-- ==== Sys2Proof/Word.lean ====
section
/-! DEFINITION. Bytes, the 4-byte words and 16-byte blocks of AES (spec 00_scope.md R13, R14), and the
32-bit words of the register bus (20_memory.md R57). Types only, and exclusive or on them. -/

namespace Sys2Proof

/-- A byte (R13). -/
abbrev Byte := BitVec 8

/-- A 32-bit word of the register bus (R57, R70). -/
abbrev BusWord := BitVec 32

/-- A word address `A[19:2]` of the register bus (R50): the byte offset is `4 * A`. -/
abbrev WordAddr := BitVec 18

/-- A key-schedule word: the 4-byte string `[a0,a1,a2,a3]`, never an integer (R14). It is also one
column of the AES state, `a_r` in row `r`. -/
structure Word where
  a0 : Byte
  a1 : Byte
  a2 : Byte
  a3 : Byte
deriving DecidableEq, Repr, Inhabited

/-- A block of 16 bytes as its four columns (R14): byte `n` is row `n mod 4` of column `n div 4`. -/
structure Block where
  w0 : Word
  w1 : Word
  w2 : Word
  w3 : Word
deriving DecidableEq, Repr, Inhabited

/-- A 32-byte key (R9): bytes 0..15 and bytes 16..31. -/
structure Key where
  lo : Block
  hi : Block
deriving DecidableEq, Repr, Inhabited

/-- Four zero bytes. -/
def Word.zero : Word := ⟨0, 0, 0, 0⟩

/-- `00^16`. -/
def Block.zero : Block := ⟨.zero, .zero, .zero, .zero⟩

/-- `00^32`. -/
def Key.zero : Key := ⟨.zero, .zero⟩

/-- Byte-wise exclusive or of words (R15). -/
def Word.xor (x y : Word) : Word := ⟨x.a0 ^^^ y.a0, x.a1 ^^^ y.a1, x.a2 ^^^ y.a2, x.a3 ^^^ y.a3⟩

/-- Byte-wise exclusive or of blocks (R15). -/
def Block.xor (x y : Block) : Block :=
  ⟨x.w0.xor y.w0, x.w1.xor y.w1, x.w2.xor y.w2, x.w3.xor y.w3⟩

end Sys2Proof
end

