-- ==== Sys2Proof/Config.lean ====
section
/-! DEFINITION. What the spec leaves free: the open parameter BUFCAP (00_scope.md R10) and the values
nothing constrains (93_implementation_defined.md U1, U3, U4, U5). -/

namespace Sys2Proof

/-- The open parameter BUFCAP (R10): a multiple of 16 with 64 ≤ BUFCAP ≤ 65536. `extra` counts the
16-byte blocks beyond the first four, so every legal value is a `BufCap` and nothing else is. -/
structure BufCap where
  extra : Fin 4093
deriving DecidableEq, Repr, Inhabited

/-- BUFCAP in bytes (R10). -/
def BufCap.bytes (c : BufCap) : Nat := 16 * (4 + c.extra.val)

/-- The capacity used by the spec's vectors, 256 bytes. DESIGN CHOICE (log 3): R10 leaves it open. -/
def BufCap.vectors : BufCap := ⟨12⟩

/-- The value of a host read the spec calls unspecified (U1, U3, U4), one fresh value per read. No
body: nothing can be proved about it. unsafe to rely on; leaving it free is safe (log 8, 9, 7). -/
opaque Config.freeWord : Nat → BusWord

/-- The 16 bytes the entropy port delivers when State lists none for it (R44, U5): free (log 10). -/
opaque Config.entropy : Nat → Block

end Sys2Proof
end

