-- ==== Sys2Proof/Machine/Bytes.lean ====
section
/-! DEFINITION. Bytes of words and blocks, bus lanes and the 128-bit counter integer (spec 00_scope.md
R14, R15; 20_memory.md R51 to R55). -/

namespace Sys2Proof

/-- Byte `k mod 4` of a word. -/
def Word.get (w : Word) (k : Nat) : Byte :=
  match k % 4 with
  | 0 => w.a0
  | 1 => w.a1
  | 2 => w.a2
  | _ => w.a3

/-- The word with byte `k` equal to `f k`. -/
def Word.tabulate (f : Nat → Byte) : Word := ⟨f 0, f 1, f 2, f 3⟩

/-- Column `c mod 4` of a block: the bytes `blk[4c..4c+4)` (R14). -/
def Block.word (b : Block) (c : Nat) : Word :=
  match c % 4 with
  | 0 => b.w0
  | 1 => b.w1
  | 2 => b.w2
  | _ => b.w3

/-- Byte `n` of a block: `s[n mod 4, n div 4]` (R14, R51). -/
def Block.get (b : Block) (n : Nat) : Byte := (b.word (n / 4)).get (n % 4)

/-- The block with byte `n` equal to `f n`. -/
def Block.tabulate (f : Nat → Byte) : Block :=
  ⟨⟨f 0, f 1, f 2, f 3⟩, ⟨f 4, f 5, f 6, f 7⟩, ⟨f 8, f 9, f 10, f 11⟩, ⟨f 12, f 13, f 14, f 15⟩⟩

/-- The block as a byte string (R13). -/
def Block.toList (b : Block) : List Byte :=
  [b.w0.a0, b.w0.a1, b.w0.a2, b.w0.a3, b.w1.a0, b.w1.a1, b.w1.a2, b.w1.a3,
   b.w2.a0, b.w2.a1, b.w2.a2, b.w2.a3, b.w3.a0, b.w3.a1, b.w3.a2, b.w3.a3]

/-- The block of the first 16 bytes of a string, zero-filled past its end (R26). -/
def Block.ofList (l : List Byte) : Block := Block.tabulate fun n => l.getD n 0

/-- The first `k` bytes of a block, the rest 00 (R26: only the first ULEN bytes are meaningful). -/
def Block.keep (k : Nat) (b : Block) : Block :=
  Block.tabulate fun n => if n < k then b.get n else 0

/-- A function of bytes applied to every lane of a word. -/
def Word.map (f : Byte → Byte) (w : Word) : Word := ⟨f w.a0, f w.a1, f w.a2, f w.a3⟩

/-- A function of words applied to every column of a block. -/
def Block.mapWords (f : Word → Word) (b : Block) : Block := ⟨f b.w0, f b.w1, f b.w2, f b.w3⟩

/-- Key bytes `4i..4i+3` (R52). -/
def Key.word (k : Key) (i : Nat) : Word := if i < 4 then k.lo.word i else k.hi.word (i - 4)

/-- The key as a byte string. -/
def Key.toList (k : Key) : List Byte := k.lo.toList ++ k.hi.toList

/-- The key of the first 32 bytes of a string, zero-filled. -/
def Key.ofList (l : List Byte) : Key := ⟨Block.ofList l, Block.ofList (l.drop 16)⟩

/-- A block with column `c` replaced. -/
def Block.setWord (b : Block) (c : Nat) (w : Word) : Block :=
  match c % 4 with
  | 0 => { b with w0 := w }
  | 1 => { b with w1 := w }
  | 2 => { b with w2 := w }
  | _ => { b with w3 := w }

/-- A key with bytes `4i..4i+3` replaced. -/
def Key.setWord (k : Key) (i : Nat) (w : Word) : Key :=
  if i < 4 then { k with lo := k.lo.setWord i w } else { k with hi := k.hi.setWord (i - 4) w }

/-- Byte `j` in lane `j`, bits `[8j+7 : 8j]` (R55). -/
def Word.toBus (w : Word) : BusWord := w.a3 ++ w.a2 ++ w.a1 ++ w.a0

/-- The four bytes in the lanes of a bus word (R55). -/
def Word.ofBus (d : BusWord) : Word :=
  ⟨d.extractLsb' 0 8, d.extractLsb' 8 8, d.extractLsb' 16 8, d.extractLsb' 24 8⟩

/-- `be128`: the unsigned integer whose most significant byte is byte 0 (R15, R54). -/
def Block.be128 (b : Block) : Nat := b.toList.foldl (fun acc x => acc * 256 + x.toNat) 0

/-- `bytes128`, the inverse of `be128`, of `n mod 2^128` (R15). -/
def Block.bytes128 (n : Nat) : Block :=
  Block.tabulate fun k => BitVec.ofNat 8 (n / 256 ^ (15 - k))

/-- `ceil16(L)` (R15). -/
def ceil16 (n : Nat) : Nat := (n + 15) / 16

end Sys2Proof
end

