-- ==== Sys2Proof/Syntax.lean ====
section
/-! DEFINITION. The syntax: the five modes, the 19 instructions of spec/opcode_table.json
(30_encoding.md R82), their two code forms (R74, R78), and the inputs a host gives (R85, R86). -/

namespace Sys2Proof

/-- The mode set {ECB, CBC, CFB, OFB, CTR} (R9, R76). -/
inductive Mode where
  | ecb
  | cbc
  | cfb
  | ofb
  | ctr
deriving DecidableEq, Repr, Inhabited

/-- The complete instruction list (R82). No instruction has an operand field (R74, R81): operands are
the staging registers, LEN_IN, IBUF, CFG, RK, S and SEQ. The ten mode-qualified commands are the pairs
(OP, CFG.mode). -/
inductive Instr where
  | init
  | encryptEcb
  | encryptCbc
  | encryptCfb
  | encryptOfb
  | encryptCtr
  | decryptEcb
  | decryptCbc
  | decryptCfb
  | decryptOfb
  | decryptCtr
  | ark
  | sb
  | sr
  | mc
  | isb
  | isr
  | imc
  | kexp
deriving DecidableEq, Repr, Inhabited

/-- The encoded forms: format CMD, a 32-bit word written to CMD (R74), and format UOP, the 4-bit code
in SEQ.uop (R78). -/
inductive Code where
  | cmd (d : BusWord)
  | uop (c : BitVec 4)
deriving DecidableEq, Repr

/-- What comes from outside the machine, in order. `write`, `read` are bus accesses (R70); `poll` is
the POLL loop of R86, which ends with the STATUS read that shows STATE ≠ BUSY; `seq` lets the core's
sequencer take one step while the host leaves the bus idle (R62, R341; log 2), and right behind a CMD
write it is taken off with the write and says that the host does not wait for the command's end (log 1);
`rst` drives the reset input (R330). -/
inductive Input where
  | write (a : WordAddr) (d : BusWord)
  | read (a : WordAddr)
  | poll
  | seq
  | rst (level : Bool)
deriving DecidableEq, Repr

/-- One line of a host program as R85 encodes it: W or R, a 20-bit byte offset, 32-bit data (data is
absent for a read). -/
structure BusLine where
  isWrite : Bool
  offset : BitVec 20
  data : BusWord
deriving DecidableEq, Repr

/-- The row of ENCRYPT for a mode (R82). -/
def Instr.encryptOf : Mode → Instr
  | .ecb => .encryptEcb
  | .cbc => .encryptCbc
  | .cfb => .encryptCfb
  | .ofb => .encryptOfb
  | .ctr => .encryptCtr

/-- The row of DECRYPT for a mode (R82). -/
def Instr.decryptOf : Mode → Instr
  | .ecb => .decryptEcb
  | .cbc => .decryptCbc
  | .cfb => .decryptCfb
  | .ofb => .decryptOfb
  | .ctr => .decryptCtr

/-- The `context` of a row of spec/opcode_table.json: the value of CFG.mode that selects it (R82). -/
def Instr.context : Instr → Option Mode
  | .init => none
  | .encryptEcb => some .ecb
  | .encryptCbc => some .cbc
  | .encryptCfb => some .cfb
  | .encryptOfb => some .ofb
  | .encryptCtr => some .ctr
  | .decryptEcb => some .ecb
  | .decryptCbc => some .cbc
  | .decryptCfb => some .cfb
  | .decryptOfb => some .ofb
  | .decryptCtr => some .ctr
  | .ark => none
  | .sb => none
  | .sr => none
  | .mc => none
  | .isb => none
  | .isr => none
  | .imc => none
  | .kexp => none

/-- Whether a row is of format CMD (R82); the others are of format UOP. -/
def Instr.isCommand : Instr → Bool
  | .init => true
  | .encryptEcb => true
  | .encryptCbc => true
  | .encryptCfb => true
  | .encryptOfb => true
  | .encryptCtr => true
  | .decryptEcb => true
  | .decryptCbc => true
  | .decryptCfb => true
  | .decryptOfb => true
  | .decryptCtr => true
  | .ark => false
  | .sb => false
  | .sr => false
  | .mc => false
  | .isb => false
  | .isr => false
  | .imc => false
  | .kexp => false

end Sys2Proof
end

