-- ==== Sys2Proof/WellFormed.lean ====
section
/-! DEFINITION. Well-formedness: a mode-qualified command stands only in its row's context
(30_encoding.md R82), and a bus line's offset is a multiple of 4 (R70). -/

namespace Sys2Proof

/-- `i` can stand where CFG.mode is `m`: a row with a context needs that mode, any other row any (R82,
R84). -/
def Instr.wellFormedIn (m : Mode) (i : Instr) : Bool :=
  match i.context with
  | none => true
  | some k => k == m

/-- A bus line is one aligned 32-bit access (R57, R70); a read carries no data (R85). -/
def BusLine.wellFormed (l : BusLine) : Bool :=
  l.offset.toNat % 4 == 0 && (l.isWrite || l.data == 0)

end Sys2Proof
end

