-- ==== Sys2Proof/Decode.lean ====
section
/-! DEFINITION. The decoder (30_encoding.md R74, R78, R82, R83), total, rejecting by name, and after it
the encoder, from the same tables. Also the mode codes (R76) and the bus lines (R85). -/

namespace Sys2Proof

/-- Why a code is no instruction. -/
inductive DecodeReject where
  /-- OP is 0, 4, 5, 6 or 7 (R74). -/
  | reservedOp
  /-- `d[31:3] ≠ 0` (R74). -/
  | highBits
  /-- Micro-operation code 0 (none) or 9 to 15, never produced (R78). -/
  | reservedUop
deriving DecidableEq, Repr

/-- Mode codes (R76). -/
def Mode.code : Mode → BitVec 3
  | .ecb => 0
  | .cbc => 1
  | .cfb => 2
  | .ofb => 3
  | .ctr => 4

/-- The mode a code names; 5, 6, 7 name none (R76). -/
def Mode.ofCode (c : BitVec 3) : Option Mode :=
  match c.toNat with
  | 0 => some .ecb
  | 1 => some .cbc
  | 2 => some .cfb
  | 3 => some .ofb
  | 4 => some .ctr
  | _ => none

/-- The instruction the command word `d` is when CFG.mode is `m` (R74, R82): `OP = d[2:0]`, and
`d[31:3]` must be 0. The mode selects the row, it does not change how the word is decoded (R84). -/
def decodeCmd (m : Mode) (d : BusWord) : Except DecodeReject Instr :=
  if d >>> 3 ≠ 0 then .error .highBits
  else
    match (d.extractLsb' 0 3).toNat with
    | 1 => .ok .init
    | 2 => .ok (.encryptOf m)
    | 3 => .ok (.decryptOf m)
    | _ => .error .reservedOp

/-- The micro-operation a 4-bit code is (R78). -/
def decodeUop (c : BitVec 4) : Except DecodeReject Instr :=
  match c.toNat with
  | 1 => .ok .ark
  | 2 => .ok .sb
  | 3 => .ok .sr
  | 4 => .ok .mc
  | 5 => .ok .isb
  | 6 => .ok .isr
  | 7 => .ok .imc
  | 8 => .ok .kexp
  | _ => .error .reservedUop

/-- Decoding either form (R82: a decoder for commands needs the word and CFG.mode). -/
def decode (m : Mode) : Code → Except DecodeReject Instr
  | .cmd d => decodeCmd m d
  | .uop c => decodeUop c

/-- The mode in which the host's table words are read. The five ENCRYPT rows share one word, likewise
the five DECRYPT rows (R82); this is CFG.mode after `State.reset`. DESIGN CHOICE (log 14). -/
def tableMode : Mode := .ecb

/-- The instruction read from a table row's bits: a 32-bit command word, or a 4-bit micro-operation
code (whose host width is one byte). -/
def decodeTableWord (nbits w : Nat) : Option Instr :=
  if nbits = 32 ∧ w < 2 ^ 32 then (decodeCmd tableMode (BitVec.ofNat 32 w)).toOption
  else if (nbits = 8 ∨ nbits = 4) ∧ w < 16 then (decodeUop (BitVec.ofNat 4 w)).toOption
  else none

/-- The code of an instruction (R74, R78). -/
def encode : Instr → Code
  | .init => .cmd 1
  | .encryptEcb => .cmd 2
  | .encryptCbc => .cmd 2
  | .encryptCfb => .cmd 2
  | .encryptOfb => .cmd 2
  | .encryptCtr => .cmd 2
  | .decryptEcb => .cmd 3
  | .decryptCbc => .cmd 3
  | .decryptCfb => .cmd 3
  | .decryptOfb => .cmd 3
  | .decryptCtr => .cmd 3
  | .ark => .uop 1
  | .sb => .uop 2
  | .sr => .uop 3
  | .mc => .uop 4
  | .isb => .uop 5
  | .isr => .uop 6
  | .imc => .uop 7
  | .kexp => .uop 8

/-- The input a bus line is (R85): `none` where its offset is no multiple of 4. -/
def BusLine.decode (l : BusLine) : Option Input :=
  if l.offset.toNat % 4 = 0 then
    some (if l.isWrite then .write (l.offset.extractLsb' 2 18) l.data
          else .read (l.offset.extractLsb' 2 18))
  else none

/-- The bus line of an access (R85); POLL, SEQ and RST are no bus lines. -/
def Input.encode : Input → Option BusLine
  | .write a d => some ⟨true, a ++ (0 : BitVec 2), d⟩
  | .read a => some ⟨false, a ++ (0 : BitVec 2), 0⟩
  | .poll => none
  | .seq => none
  | .rst _ => none

end Sys2Proof
end

