-- ==== Sys2Proof/Machine/State.lean ====
section
/-! DEFINITION. The state of the core, everything 10_state.md R20 names, as plain data; the reasons a
step can stop; the state after reset (R40). -/

namespace Sys2Proof.Machine

/-- SEQ.phase (R28). -/
inductive Phase where
  | idle
  | check
  | kexp
  | head
  | load
  | round
  | store
  | tail
deriving DecidableEq, Repr, Inhabited

/-- STATUS.STATE (R24, R75). -/
inductive RunState where
  | idle
  | busy
  | done
  | error
deriving DecidableEq, Repr, Inhabited

/-- CFG, the instance (R21). -/
structure Cfg where
  key : Key
  mode : Mode
  iv : Block
  valid : Bool
  ivgen : Bool
deriving DecidableEq, Repr

/-- The staging registers (R22) and LEN_IN (R23): what only the host writes. -/
structure Staging where
  keyIn : Key
  ivIn : Block
  mode : BitVec 3
  keylen : BitVec 8
  ivlen : BitVec 8
  lenIn : BitVec 32
deriving DecidableEq, Repr

/-- ERR (R25). -/
structure ErrReg where
  kind : BitVec 3
  sub : BitVec 4
deriving DecidableEq, Repr

/-- The datapath registers (R26). -/
structure Datapath where
  s : Block
  fb : Block
  ks : Block
  ib : Block
  ob : Block
  ulen : BitVec 5
deriving DecidableEq, Repr

/-- SEQ, in the place of a program counter (R28). `round` is 0 to 14 (R31). -/
structure Seq where
  phase : Phase
  unit : BitVec 32
  round : Fin 15
  uop : BitVec 4
  dir : Bool
deriving DecidableEq, Repr

/-- The kinds of trace records (R243). -/
inductive TraceKind where
  | input
  | key
  | pad
  | mode
  | unitStart
  | unitPre
  | round
  | unitDone
  | aggregate
  | unpad
  | final
deriving DecidableEq, Repr, Inhabited

/-- A trace record by its fields (R243); `TraceRecord.word` gives the eight bus words. -/
structure TraceRecord where
  kind : TraceKind
  round : BitVec 4 := 0
  uop : BitVec 4 := 0
  n : BitVec 8 := 0
  m : BitVec 8 := 0
  unit : BitVec 32 := 0
  aux : BitVec 32 := 0
  data : Block := Block.zero
deriving DecidableEq, Repr

/-- A byte buffer: (offset, byte) pairs, offsets strictly rising, no byte 00 listed. An unlisted offset
reads as 00 (log 5). -/
abbrev Memory := List Host.Cell

/-- The complete state (R20), the command in progress, and the boundary's inputs and outputs. -/
structure State where
  /-- CFG (R21). -/
  cfg : Cfg
  /-- KEY_IN, IV_IN, MODE, KEYLEN, IVLEN (R22), LEN_IN (R23). -/
  stage : Staging
  /-- LEN_OUT (R23). -/
  lenOut : BitVec 32
  /-- STATUS.STATE (R24). -/
  run : RunState
  /-- STATUS.HZD (R24, R341). -/
  hzd : Bool
  /-- ERR (R25). -/
  err : ErrReg
  /-- S, FB, KS, IB, OB, ULEN (R26). -/
  dp : Datapath
  /-- RK[0..59] (R27). -/
  rk : Vector Word 60
  /-- SEQ (R28). -/
  seq : Seq
  /-- TRACE (R33). -/
  trace : List TraceRecord
  /-- TRC_SEL (R33). -/
  trcSel : BitVec 32
  /-- IBUF (R34). -/
  ibuf : Memory
  /-- OBUF (R34). -/
  obuf : Memory
  /-- The command word in progress or last accepted (R210; log 12). -/
  cmd : BusWord
  /-- The parameter BUFCAP (R10), which no step changes (log 3). -/
  bufcap : BufCap
  /-- What comes next from the host and the reset pin (log 2). -/
  inputs : List Input
  /-- The data the last host read returned (log 20). -/
  rdata : BusWord
  /-- The level of RST (R330). -/
  rst : Bool
  /-- The 16-byte values waiting at the entropy port (R44; log 10). -/
  rnd : List Block
  /-- The model's own: how many free values have been used (log 8, log 10). -/
  free : Nat
deriving DecidableEq, Repr

/-- The errors of R301, the host wrapper's two included. -/
inductive ErrorCode where
  | keylen
  | mode
  | ivlen
  | short
  | empty
  | noiv
  | align
  | base64
  | utf8
  | badcmd
  | nocfg
  | capacity
deriving DecidableEq, Repr

/-- Why a step stops with a fault. -/
inductive Fault where
  /-- Raised by KEXP when SEQ.unit is outside 8..59, where R105 gives it no operand and R31 says SEQ
  never is. safe: the model stops in states no run reaches (log 17). -/
  | kexpIndex
deriving DecidableEq, Repr

/-- Why a step refuses. -/
inductive Refusal where
  /-- Raised by exec for an instruction without a meaning; no arm does so now. safe. -/
  | notModelled (mnemonic : String)
  /-- Raised by step when a phase that runs a micro-operation finds a code R78 says is never produced
  (0 or 9 to 15) in SEQ.uop. safe: no run reaches it (log 17). -/
  | reservedUop
deriving DecidableEq, Repr

/-- The reset values of R40: SEQ. -/
def Seq.reset : Seq := ⟨.idle, 0, 0, 0, false⟩

/-- The reset values of R40: no instance. Key, mode and IV: DESIGN CHOICE, unsafe (log 4). -/
def Cfg.reset : Cfg := ⟨Key.zero, .ecb, Block.zero, false, false⟩

/-- The reset values of R40: lengths and MODE 0. KEY_IN and IV_IN: DESIGN CHOICE, unsafe (log 4). -/
def Staging.reset : Staging := ⟨Key.zero, Block.zero, 0, 0, 0, 0⟩

/-- The datapath registers after reset: DESIGN CHOICE, unsafe (log 4). -/
def Datapath.reset : Datapath := ⟨Block.zero, Block.zero, Block.zero, Block.zero, Block.zero, 0⟩

/-- The state right after reset (R40, R330). RK, IBUF, OBUF: DESIGN CHOICE, unsafe (log 4, log 5). -/
def State.reset : State where
  cfg := .reset
  stage := .reset
  lenOut := 0
  run := .idle
  hzd := false
  err := ⟨0, 0⟩
  dp := .reset
  rk := Vector.replicate 60 Word.zero
  seq := .reset
  trace := []
  trcSel := 0
  ibuf := []
  obuf := []
  cmd := 0
  bufcap := .vectors
  inputs := []
  rdata := 0
  rst := false
  rnd := []
  free := 0

end Sys2Proof.Machine
end

