-- ==== Sys2Proof/Machine/Flags.lean ====
section
/-! DEFINITION. The status and error words (10_state.md R24, R25; 30_encoding.md R72, R75;
60_exceptions.md R301). The core has no condition codes (R32): these are its only flags. -/

namespace Sys2Proof.Machine

/-- The code of STATUS.STATE (R75). -/
def RunState.code : RunState → BitVec 2
  | .idle => 0
  | .busy => 1
  | .done => 2
  | .error => 3

/-- ERR.KIND and ERR.SUB of an error (R301). -/
def ErrorCode.reg : ErrorCode → ErrReg
  | .keylen => ⟨1, 1⟩
  | .mode => ⟨1, 2⟩
  | .ivlen => ⟨1, 3⟩
  | .short => ⟨2, 1⟩
  | .empty => ⟨2, 2⟩
  | .noiv => ⟨2, 3⟩
  | .align => ⟨2, 4⟩
  | .base64 => ⟨2, 5⟩
  | .utf8 => ⟨3, 1⟩
  | .badcmd => ⟨4, 1⟩
  | .nocfg => ⟨4, 2⟩
  | .capacity => ⟨4, 3⟩

/-- ERR with no error (R301). -/
def ErrReg.none : ErrReg := ⟨0, 0⟩

/-- The ERR word: KIND in bits 2:0, SUB in bits 7:4 (R72). -/
def ErrReg.word (e : ErrReg) : BusWord := e.kind.setWidth 32 ||| (e.sub.setWidth 32 <<< 4)

/-- One bit at a position of a bus word. -/
def bitAt (b : Bool) (k : Nat) : BusWord := if b then 1#32 <<< k else 0

/-- The STATUS word (R72): STATE, CFG_VALID and IV_GEN mirroring CFG (R24), HZD. -/
def State.statusWord (s : State) : BusWord :=
  s.run.code.setWidth 32 ||| bitAt s.cfg.valid 2 ||| bitAt s.cfg.ivgen 3 ||| bitAt s.hzd 4

/-- Whether a command is executing (R24). -/
def State.busy (s : State) : Bool := s.run == .busy

/-- TRC_CNT (R33): the number of records, 32 bits. -/
def State.trcCnt (s : State) : BitVec 32 := BitVec.ofNat 32 s.trace.length

end Sys2Proof.Machine
end

