-- ==== Sys2Proof/Machine/Ops.lean ====
section
/-! DEFINITION. The shared operations: the byte buffers (20_memory.md R50, R58), the round-key file
(10_state.md R27), free values, `emit` (45_trace.md R242), and the three things every command does:
the prologue (44_commands.md R210), error entry (60_exceptions.md R306) and completion (R218). There is
no return from an error (R308): the next command's prologue clears ERR. -/

namespace Sys2Proof.Machine

/-! ### Byte buffers -/

/-- The byte at an offset; an offset not listed reads 00 (log 5). -/
def Memory.read (a : Nat) : Memory → Byte
  | [] => 0
  | (b, x) :: t => if a < b then 0 else if a = b then x else Memory.read a t

/-- Storing a byte keeps the canonical form: storing 00 removes the entry. -/
def Memory.write (a : Nat) (x : Byte) : Memory → Memory
  | [] => if x = 0 then [] else [(a, x)]
  | (b, y) :: t =>
    if a < b then (if x = 0 then (b, y) :: t else (a, x) :: (b, y) :: t)
    else if a = b then (if x = 0 then t else (a, x) :: t)
    else (b, y) :: Memory.write a x t

/-- The canonical form: offsets strictly rising and at least `lo`, no byte 00. -/
def Memory.wfFrom (lo : Nat) : Memory → Bool
  | [] => true
  | (b, x) :: t => decide (lo ≤ b) && decide (x ≠ 0) && Memory.wfFrom (b + 1) t

/-- The canonical form of a byte buffer. -/
def Memory.wf (m : Memory) : Bool := Memory.wfFrom 0 m

/-- `MemRead(B, off, n)` (R16). -/
def Memory.readBytes (off n : Nat) (m : Memory) : List Byte :=
  (List.range n).map fun k => Memory.read (off + k) m

/-- `MemWrite(B, off, n, v)` (R16), `n` the length of `v`. -/
def Memory.writeBytes (off : Nat) : List Byte → Memory → Memory
  | [], m => m
  | x :: t, m => Memory.writeBytes (off + 1) t (Memory.write off x m)

/-! ### Registers -/

/-- `RK[i]`; only `i < 60` is a word of the file (R27). -/
def rkWord (rk : Vector Word 60) (i : Nat) : Word := rk[i]?.getD Word.zero

/-- `RoundKey(r) = RK[4r] ‖ RK[4r+1] ‖ RK[4r+2] ‖ RK[4r+3]` (R27). -/
def roundKey (rk : Vector Word 60) (r : Nat) : Block :=
  ⟨rkWord rk (4 * r), rkWord rk (4 * r + 1), rkWord rk (4 * r + 2), rkWord rk (4 * r + 3)⟩

/-- The host's read data (log 20). -/
def State.returns (d : BusWord) (s : State) : State := { s with rdata := d }

/-- A read whose value the spec leaves unspecified (U1, U3, U4): a fresh free value (log 8). -/
def State.returnsAny (s : State) : State :=
  { s with rdata := Config.freeWord s.free, free := s.free + 1 }

/-- `draw16()` (R16, R44): the value waiting at the entropy port; a free value if State lists none
(log 10). -/
def State.drawValue (s : State) : Block :=
  match s.rnd with
  | b :: _ => b
  | [] => Config.entropy s.free

/-- The state after `draw16()` has taken its value. -/
def State.drawn (s : State) : State :=
  match s.rnd with
  | _ :: t => { s with rnd := t }
  | [] => { s with free := s.free + 1 }

/-! ### Trace, commands, errors -/

/-- `emit(rec)` (R242): append at the end. -/
def State.emit (r : TraceRecord) (s : State) : State := { s with trace := s.trace ++ [r] }

/-- The prologue of every accepted CMD write of `d` (R210). -/
def State.prologue (d : BusWord) (s : State) : State :=
  { s with
    run := .busy
    err := .none
    lenOut := 0
    trace := []
    seq := { s.seq with phase := .check }
    cmd := d }

/-- Error entry `raise K(sub)` (R306): ERR, then STATE, then SEQ; nothing is saved, no handler runs. -/
def State.raise (e : ErrorCode) (s : State) : State :=
  { s with
    err := e.reg
    run := .error
    seq := { s.seq with phase := .idle } }

/-- Completion of a command that did not raise (R218). SEQ.uop shows none again (R78; log 13). -/
def State.complete (s : State) : State :=
  { s with
    run := .done
    seq := { s.seq with phase := .idle, uop := 0 } }

end Sys2Proof.Machine
end

