-- ==== Sys2Proof/Machine/Operands.lean ====
section
/-! DEFINITION. What ENCRYPT and DECRYPT take as operands (43_modes.md sections 2 to 4 and the preamble
of section 6; 30_encoding.md R81): message length, pad count, buffer offsets, message bytes, the IV in
force, the cipher input and the output unit of each mode. -/

namespace Sys2Proof

/-- The padded modes, ECB and CBC (R170). -/
def Mode.padded : Mode → Bool
  | .ecb => true
  | .cbc => true
  | .cfb => false
  | .ofb => false
  | .ctr => false

end Sys2Proof

namespace Sys2Proof.Machine

/-- A cipher operation: `enc` true for ENCRYPT, and its mode. -/
structure Op where
  enc : Bool
  mode : Mode
deriving DecidableEq, Repr

/-- `PadCount(L) = (16 − (L mod 16)) mod 16` (R174). -/
def padCount (n : Nat) : Nat := (16 - n % 16) % 16

/-- `ibase` (R178): a DECRYPT frame of a mode other than ECB starts with the IV. -/
def Op.ibase (o : Op) : Nat := if o.enc then 0 else if o.mode = .ecb then 0 else 16

/-- `obase` (R178): an ENCRYPT frame of a mode other than ECB starts with the IV. -/
def Op.obase (o : Op) : Nat := if o.enc then (if o.mode = .ecb then 0 else 16) else 0

/-- SEQ.dir of the operation: the inverse cipher runs for DECRYPT in ECB and CBC only (R159, R192). -/
def Op.inverse (o : Op) : Bool := !o.enc && o.mode.padded

/-- `L`, the length of the message the units cover (43_modes.md section 6), for `LEN_IN = lenIn`. -/
def Op.total (o : Op) (lenIn : Nat) : Nat :=
  if o.enc then (if o.mode.padded then lenIn + padCount lenIn else lenIn) else lenIn - o.ibase

/-- `n = ceil16(L)`, the number of units. -/
def Op.units (o : Op) (lenIn : Nat) : Nat := ceil16 (o.total lenIn)

/-- `Msg(k)` (43_modes.md section 6): an IBUF byte, or the pad value past LEN_IN (R59, R174). -/
def Op.msg (o : Op) (s : State) (k : Nat) : Byte :=
  if o.enc then
    if k < s.stage.lenIn.toNat then Memory.read k s.ibuf
    else BitVec.ofNat 8 (padCount s.stage.lenIn.toNat)
  else Memory.read (o.ibase + k) s.ibuf

/-- `iv_op` for a mode other than ECB (R179): CFG.iv for ENCRYPT, the frame's prefix for DECRYPT. -/
def Op.iv (o : Op) (s : State) : Block :=
  if o.enc then s.cfg.iv else Block.tabulate fun k => Memory.read k s.ibuf

/-- The cipher input X (R192). -/
def Op.cipherInput (o : Op) (ib fb : Block) : Block :=
  match o.mode with
  | .ecb => ib
  | .cbc => if o.enc then ib.xor fb else ib
  | .cfb => fb
  | .ofb => fb
  | .ctr => fb

/-- The counter block one higher (R190, R193): `bytes128((be128(b) + 1) mod 2^128)`. -/
def counterNext (b : Block) : Block := Block.bytes128 ((b.be128 + 1) % 2 ^ 128)

/-- OB, from the cipher output Y, the input unit IB, FB and ULEN (R193). -/
def Op.outputUnit (o : Op) (y ib fb : Block) (ulen : Nat) : Block :=
  match o.mode with
  | .ecb => y
  | .cbc => if o.enc then y else y.xor fb
  | .cfb => (ib.xor y).keep ulen
  | .ofb => (ib.xor y).keep ulen
  | .ctr => (ib.xor y).keep ulen

/-- FB for the next unit, from Y, IB, the old FB and OB (R193). -/
def Op.nextFeedback (o : Op) (y ib fb ob : Block) : Block :=
  match o.mode with
  | .ecb => fb
  | .cbc => if o.enc then y else ib
  | .cfb => if o.enc then ob else ib
  | .ofb => y
  | .ctr => counterNext fb

/-- KS after a unit (R193): the cipher output in the stream modes, untouched otherwise. -/
def Op.nextKeystream (o : Op) (y ks : Block) : Block := if o.mode.padded then ks else y

/-- `StripCount(m)` (R176), for the decrypted message `m`: the candidate is its last byte. -/
def stripCount (m : List Byte) : Nat :=
  let p := (m.getLastD 0).toNat
  if 1 ≤ p ∧ p ≤ 16 ∧ p ≤ m.length ∧ (m.drop (m.length - p)).all (fun x => x.toNat == p) then p
  else 0

end Sys2Proof.Machine
end

