-- ==== Sys2Proof/Machine/Trace.lean ====
section
/-! DEFINITION. The trace records each step emits (45_trace.md R243 to R255), and their eight bus words.
A record's DATA is a copy of a register at the emitting step (R244). -/

namespace Sys2Proof.Machine

/-- The kind codes (R243). -/
def TraceKind.code : TraceKind → BitVec 8
  | .input => 1
  | .key => 2
  | .pad => 3
  | .mode => 4
  | .unitStart => 5
  | .unitPre => 6
  | .round => 7
  | .unitDone => 8
  | .aggregate => 9
  | .unpad => 10
  | .final => 11

/-- Word `j` of a record, 0 to 7 (R243). -/
def TraceRecord.word (r : TraceRecord) (j : Nat) : BusWord :=
  match j with
  | 0 => r.m ++ r.n ++ r.uop ++ r.round ++ r.kind.code
  | 1 => r.unit
  | 2 => r.aux
  | 3 => 0
  | 4 => r.data.w0.toBus
  | 5 => r.data.w1.toBus
  | 6 => r.data.w2.toBus
  | 7 => r.data.w3.toBus
  | _ => 0

/-- K_INPUT (R245). -/
def Op.recInput (o : Op) (lenIn : BitVec 32) : TraceRecord :=
  { kind := .input, n := if o.enc then 0 else 1, aux := lenIn }

/-- K_KEY for round `r` (R246). -/
def recKey (rk : Vector Word 60) (r : Nat) : TraceRecord :=
  { kind := .key, round := BitVec.ofNat 4 r, data := roundKey rk r }

/-- The fifteen K_KEY records (R246). -/
def recKeys (rk : Vector Word 60) : List TraceRecord := (List.range 15).map (recKey rk)

/-- K_PAD (R247). -/
def Op.recPad (o : Op) (lenIn : Nat) : TraceRecord :=
  { kind := .pad
    n := if o.mode.padded then 1 else 0
    m := if o.enc && o.mode.padded then BitVec.ofNat 8 (padCount lenIn) else 0
    aux := BitVec.ofNat 32 (o.total lenIn) }

/-- K_MODE (R248); `iv` is the IV in force, not shown in ECB. -/
def Op.recMode (o : Op) (iv : Block) (lenIn : Nat) : TraceRecord :=
  { kind := .mode
    n := o.mode.code.setWidth 8
    m := if o.inverse then 1 else 0
    aux := BitVec.ofNat 32 (o.units lenIn)
    data := if o.mode = .ecb then Block.zero else iv }

/-- K_UNIT_START (R249). -/
def recUnitStart (unit : BitVec 32) (ulen : Nat) (ib : Block) : TraceRecord :=
  { kind := .unitStart, n := BitVec.ofNat 8 ulen, unit := unit, data := ib }

/-- K_UNIT_PRE (R251). -/
def recUnitPre (unit : BitVec 32) (dir : Bool) (x : Block) : TraceRecord :=
  { kind := .unitPre, n := if dir then 1 else 0, unit := unit, data := x }

/-- K_ROUND (R250): round and code as they were when the micro-operation started, S after it. -/
def recRound (unit : BitVec 32) (round : Fin 15) (uop : BitVec 4) (s : Block) : TraceRecord :=
  { kind := .round, round := BitVec.ofNat 4 round.val, uop := uop, unit := unit, data := s }

/-- The number of positions `k < ulen` at which two units differ (R252). -/
def changedBytes (ulen : Nat) (ob ib : Block) : Nat :=
  ((List.range ulen).filter fun k => ob.get k ≠ ib.get k).length

/-- K_UNIT_DONE (R252). -/
def recUnitDone (unit : BitVec 32) (ulen : Nat) (ob ib : Block) : TraceRecord :=
  { kind := .unitDone
    n := BitVec.ofNat 8 ulen
    m := BitVec.ofNat 8 (changedBytes ulen ob ib)
    unit := unit
    data := ob }

/-- K_AGGREGATE (R253): AUX = L, N = n mod 256. -/
def Op.recAggregate (o : Op) (lenIn : Nat) : TraceRecord :=
  { kind := .aggregate
    n := BitVec.ofNat 8 (o.units lenIn)
    aux := BitVec.ofNat 32 (o.total lenIn) }

/-- K_UNPAD (R254), for the decrypted message `m`. -/
def recUnpad (m : List Byte) : TraceRecord :=
  { kind := .unpad
    n := BitVec.ofNat 8 (stripCount m)
    m := m.getLastD 0
    aux := BitVec.ofNat 32 (m.length - stripCount m) }

/-- K_FINAL (R255). -/
def Op.recFinal (o : Op) (lenOut : BitVec 32) : TraceRecord :=
  { kind := .final, n := if o.enc && o.mode ≠ .ecb then 1 else 0, aux := lenOut }

end Sys2Proof.Machine
end

