-- ==== Sys2Proof/Machine/Bus.lean ====
section
/-! DEFINITION. The register bus: the map of 30_encoding.md R72, host reads and writes (R73, R77;
20_memory.md R55, R60; 10_state.md R33, R35) and the reset input (70_reset_and_hazards.md R330). -/

namespace Sys2Proof.Machine

/-- A mapped location of R72; window elements carry their word index. -/
inductive Location where
  | cmd
  | status
  | err
  | mode
  | keylen
  | ivlen
  | lenIn
  | lenOut
  | trcCnt
  | trcSel
  | keyIn (j : Nat)
  | ivIn (j : Nat)
  | ivCfg (j : Nat)
  | trcRec (j : Nat)
  | rk (i : Nat)
  | ibuf (j : Nat)
  | obuf (j : Nat)
  | reserved
deriving DecidableEq, Repr

/-- The registers, byte offsets 0x00000 to 0x0003C, by word address (R72). -/
def locateRegister : Nat → Location
  | 0 => .cmd
  | 1 => .status
  | 2 => .err
  | 3 => .mode
  | 4 => .keylen
  | 5 => .ivlen
  | 6 => .lenIn
  | 7 => .lenOut
  | 8 => .trcCnt
  | 9 => .trcSel
  | _ => .reserved

/-- The small windows, byte offsets 0x00040 to 0x000FC (R72). -/
def locateWindow (n : Nat) : Location :=
  if n < 0x00060 then .keyIn ((n - 0x00040) / 4)
  else if n < 0x00070 then .ivIn ((n - 0x00060) / 4)
  else if n < 0x00080 then .ivCfg ((n - 0x00070) / 4)
  else if n < 0x000A0 then .trcRec ((n - 0x00080) / 4)
  else .reserved

/-- The round-key window, byte offsets 0x00100 to 0x0FFFC (R72). -/
def locateRk (n : Nat) : Location := if n < 0x001F0 then .rk ((n - 0x00100) / 4) else .reserved

/-- The buffer windows, byte offsets from 0x10000 on (R72). -/
def locateBuffer (cap : BufCap) (n : Nat) : Location :=
  if n < 0x10000 + cap.bytes then .ibuf ((n - 0x10000) / 4)
  else if n < 0x20000 then .reserved
  else if n < 0x20000 + cap.bytes + 32 then .obuf ((n - 0x20000) / 4)
  else .reserved

/-- The location a word address names (R50, R72); the byte offset is `4 * a`. -/
def locate (cap : BufCap) (a : WordAddr) : Location :=
  if 4 * a.toNat < 0x00040 then locateRegister a.toNat
  else if 4 * a.toNat < 0x00100 then locateWindow (4 * a.toNat)
  else if 4 * a.toNat < 0x10000 then locateRk (4 * a.toNat)
  else locateBuffer cap (4 * a.toNat)

/-- Word `j` of a buffer window: byte `4j + k` in lane `k` (R55). -/
def Memory.busWord (m : Memory) (j : Nat) : BusWord :=
  (Word.tabulate fun k => Memory.read (4 * j + k) m).toBus

/-- Storing a bus word in a buffer window (R55). -/
def Memory.writeBusWord (m : Memory) (j : Nat) (d : BusWord) : Memory :=
  let w := Word.ofBus d
  Memory.writeBytes (4 * j) [w.a0, w.a1, w.a2, w.a3] m

/-- TRC_REC: word `j` of the record TRC_SEL selects, 0 where TRC_SEL ≥ TRC_CNT (R33). -/
def State.trcRecWord (s : State) (j : Nat) : BusWord :=
  if s.trcSel < s.trcCnt then
    match s.trace[s.trcSel.toNat]? with
    | some r => r.word j
    | none => 0
  else 0

/-- A host read while STATE ≠ BUSY (R72, R73). The RK and IV_CFG windows have a value only while
CFG.valid = 1 (R27, R35); otherwise the read returns a free value (U1; log 9). Reads change nothing else
(R60). -/
def State.busReadIdle (a : WordAddr) (s : State) : State :=
  match locate s.bufcap a with
  | .cmd => s.returns 0
  | .status => s.returns s.statusWord
  | .err => s.returns s.err.word
  | .mode => s.returns (s.stage.mode.setWidth 32)
  | .keylen => s.returns (s.stage.keylen.setWidth 32)
  | .ivlen => s.returns (s.stage.ivlen.setWidth 32)
  | .lenIn => s.returns s.stage.lenIn
  | .lenOut => s.returns s.lenOut
  | .trcCnt => s.returns s.trcCnt
  | .trcSel => s.returns s.trcSel
  | .keyIn j => s.returns (s.stage.keyIn.word j).toBus
  | .ivIn j => s.returns (s.stage.ivIn.word j).toBus
  | .ivCfg j => if s.cfg.valid then s.returns (s.cfg.iv.word j).toBus else s.returnsAny
  | .trcRec j => s.returns (s.trcRecWord j)
  | .rk i => if s.cfg.valid then s.returns (rkWord s.rk i).toBus else s.returnsAny
  | .ibuf j => s.returns (Memory.busWord s.ibuf j)
  | .obuf j => s.returns (Memory.busWord s.obuf j)
  | .reserved => s.returns 0

/-- A host read (R62, R341, R330): only STATUS has a value while BUSY (U3), nothing has one while RST is
asserted (U4). -/
def State.busRead (a : WordAddr) (s : State) : State :=
  if s.rst then s.returnsAny
  else if s.busy then
    match locate s.bufcap a with
    | .status => s.returns s.statusWord
    | _ => s.returnsAny
  else s.busReadIdle a

/-- A host write to a location other than CMD while STATE ≠ BUSY: it stores the value, or is ignored at
a read-only or reserved location (R60, R73); narrow registers take their low bits (R77). -/
def State.busStore (a : WordAddr) (d : BusWord) (s : State) : State :=
  match locate s.bufcap a with
  | .mode => { s with stage := { s.stage with mode := d.setWidth 3 } }
  | .keylen => { s with stage := { s.stage with keylen := d.setWidth 8 } }
  | .ivlen => { s with stage := { s.stage with ivlen := d.setWidth 8 } }
  | .lenIn => { s with stage := { s.stage with lenIn := d } }
  | .trcSel => { s with trcSel := d }
  | .keyIn j => { s with stage := { s.stage with keyIn := s.stage.keyIn.setWord j (Word.ofBus d) } }
  | .ivIn j => { s with stage := { s.stage with ivIn := s.stage.ivIn.setWord j (Word.ofBus d) } }
  | .ibuf j => { s with ibuf := Memory.writeBusWord s.ibuf j d }
  | .cmd => s
  | .status => s
  | .err => s
  | .lenOut => s
  | .trcCnt => s
  | .ivCfg _ => s
  | .trcRec _ => s
  | .rk _ => s
  | .obuf _ => s
  | .reserved => s

/-- A write while BUSY is dropped and sets HZD (R341). -/
def State.hazard (s : State) : State := { s with hzd := true }

/-- RST driven to a level (R330): asserting it gives the reset state of R40 at once, whatever was going
on (R331); the boundary's own fields and the parameter stay. Values R40 leaves unspecified: as
`State.reset` names them, unsafe (log 6). -/
def State.driveRst (level : Bool) (s : State) : State :=
  if level then
    { State.reset with
      bufcap := s.bufcap
      inputs := s.inputs
      rdata := s.rdata
      rst := true
      rnd := s.rnd
      free := s.free }
  else { s with rst := false }

end Sys2Proof.Machine
end

