-- ==== Sys2Proof/Machine/Cipher.lean ====
section
/-! DEFINITION. The arithmetic of GF(2^8), the S-boxes, the block functions of the seven round
micro-operations and the 14-round ciphers (41_round_ops.md R121 to R130; 42_block_cipher.md R152, R154),
as pure functions. The FIPS-197 content is in the spec's rules, which mark it as general knowledge. -/

namespace Sys2Proof.Machine

/-! ### GF(2^8) (R121) -/

/-- `xtime`: multiplication by x modulo 0x11B. -/
def xtime (a : Byte) : Byte := if a.msb then (a <<< 1) ^^^ 0x1B else a <<< 1

/-- `gmul(a, b)`: the exclusive or of `xtime^k(a)` over the set bits `k` of `b`. -/
def gmul (a b : Byte) : Byte :=
  let a1 := xtime a
  let a2 := xtime a1
  let a3 := xtime a2
  let a4 := xtime a3
  let a5 := xtime a4
  let a6 := xtime a5
  let a7 := xtime a6
  (if b.getLsbD 0 then a else 0) ^^^ (if b.getLsbD 1 then a1 else 0)
    ^^^ (if b.getLsbD 2 then a2 else 0) ^^^ (if b.getLsbD 3 then a3 else 0)
    ^^^ (if b.getLsbD 4 then a4 else 0) ^^^ (if b.getLsbD 5 then a5 else 0)
    ^^^ (if b.getLsbD 6 then a6 else 0) ^^^ (if b.getLsbD 7 then a7 else 0)

/-- `gmul(02, a)`. -/
def mul02 (a : Byte) : Byte := xtime a

/-- `gmul(03, a)`. -/
def mul03 (a : Byte) : Byte := xtime a ^^^ a

/-- `gmul(09, a)`. -/
def mul09 (a : Byte) : Byte := xtime (xtime (xtime a)) ^^^ a

/-- `gmul(0B, a)`. -/
def mul0B (a : Byte) : Byte := xtime (xtime (xtime a)) ^^^ xtime a ^^^ a

/-- `gmul(0D, a)`. -/
def mul0D (a : Byte) : Byte := xtime (xtime (xtime a)) ^^^ xtime (xtime a) ^^^ a

/-- `gmul(0E, a)`. -/
def mul0E (a : Byte) : Byte := xtime (xtime (xtime a)) ^^^ xtime (xtime a) ^^^ xtime a

/-! ### The S-boxes (R122, R123) -/

/-- The table of SBOX (R122). Rows by the high hexadecimal digit, columns by the low. -/
def sboxRows : List (List Byte) :=
  [[0x63, 0x7C, 0x77, 0x7B, 0xF2, 0x6B, 0x6F, 0xC5, 0x30, 0x01, 0x67, 0x2B, 0xFE, 0xD7, 0xAB, 0x76],
   [0xCA, 0x82, 0xC9, 0x7D, 0xFA, 0x59, 0x47, 0xF0, 0xAD, 0xD4, 0xA2, 0xAF, 0x9C, 0xA4, 0x72, 0xC0],
   [0xB7, 0xFD, 0x93, 0x26, 0x36, 0x3F, 0xF7, 0xCC, 0x34, 0xA5, 0xE5, 0xF1, 0x71, 0xD8, 0x31, 0x15],
   [0x04, 0xC7, 0x23, 0xC3, 0x18, 0x96, 0x05, 0x9A, 0x07, 0x12, 0x80, 0xE2, 0xEB, 0x27, 0xB2, 0x75],
   [0x09, 0x83, 0x2C, 0x1A, 0x1B, 0x6E, 0x5A, 0xA0, 0x52, 0x3B, 0xD6, 0xB3, 0x29, 0xE3, 0x2F, 0x84],
   [0x53, 0xD1, 0x00, 0xED, 0x20, 0xFC, 0xB1, 0x5B, 0x6A, 0xCB, 0xBE, 0x39, 0x4A, 0x4C, 0x58, 0xCF],
   [0xD0, 0xEF, 0xAA, 0xFB, 0x43, 0x4D, 0x33, 0x85, 0x45, 0xF9, 0x02, 0x7F, 0x50, 0x3C, 0x9F, 0xA8],
   [0x51, 0xA3, 0x40, 0x8F, 0x92, 0x9D, 0x38, 0xF5, 0xBC, 0xB6, 0xDA, 0x21, 0x10, 0xFF, 0xF3, 0xD2],
   [0xCD, 0x0C, 0x13, 0xEC, 0x5F, 0x97, 0x44, 0x17, 0xC4, 0xA7, 0x7E, 0x3D, 0x64, 0x5D, 0x19, 0x73],
   [0x60, 0x81, 0x4F, 0xDC, 0x22, 0x2A, 0x90, 0x88, 0x46, 0xEE, 0xB8, 0x14, 0xDE, 0x5E, 0x0B, 0xDB],
   [0xE0, 0x32, 0x3A, 0x0A, 0x49, 0x06, 0x24, 0x5C, 0xC2, 0xD3, 0xAC, 0x62, 0x91, 0x95, 0xE4, 0x79],
   [0xE7, 0xC8, 0x37, 0x6D, 0x8D, 0xD5, 0x4E, 0xA9, 0x6C, 0x56, 0xF4, 0xEA, 0x65, 0x7A, 0xAE, 0x08],
   [0xBA, 0x78, 0x25, 0x2E, 0x1C, 0xA6, 0xB4, 0xC6, 0xE8, 0xDD, 0x74, 0x1F, 0x4B, 0xBD, 0x8B, 0x8A],
   [0x70, 0x3E, 0xB5, 0x66, 0x48, 0x03, 0xF6, 0x0E, 0x61, 0x35, 0x57, 0xB9, 0x86, 0xC1, 0x1D, 0x9E],
   [0xE1, 0xF8, 0x98, 0x11, 0x69, 0xD9, 0x8E, 0x94, 0x9B, 0x1E, 0x87, 0xE9, 0xCE, 0x55, 0x28, 0xDF],
   [0x8C, 0xA1, 0x89, 0x0D, 0xBF, 0xE6, 0x42, 0x68, 0x41, 0x99, 0x2D, 0x0F, 0xB0, 0x54, 0xBB, 0x16]]

/-- The table of ISBOX (R123). Rows by the high hexadecimal digit, columns by the low. -/
def isboxRows : List (List Byte) :=
  [[0x52, 0x09, 0x6A, 0xD5, 0x30, 0x36, 0xA5, 0x38, 0xBF, 0x40, 0xA3, 0x9E, 0x81, 0xF3, 0xD7, 0xFB],
   [0x7C, 0xE3, 0x39, 0x82, 0x9B, 0x2F, 0xFF, 0x87, 0x34, 0x8E, 0x43, 0x44, 0xC4, 0xDE, 0xE9, 0xCB],
   [0x54, 0x7B, 0x94, 0x32, 0xA6, 0xC2, 0x23, 0x3D, 0xEE, 0x4C, 0x95, 0x0B, 0x42, 0xFA, 0xC3, 0x4E],
   [0x08, 0x2E, 0xA1, 0x66, 0x28, 0xD9, 0x24, 0xB2, 0x76, 0x5B, 0xA2, 0x49, 0x6D, 0x8B, 0xD1, 0x25],
   [0x72, 0xF8, 0xF6, 0x64, 0x86, 0x68, 0x98, 0x16, 0xD4, 0xA4, 0x5C, 0xCC, 0x5D, 0x65, 0xB6, 0x92],
   [0x6C, 0x70, 0x48, 0x50, 0xFD, 0xED, 0xB9, 0xDA, 0x5E, 0x15, 0x46, 0x57, 0xA7, 0x8D, 0x9D, 0x84],
   [0x90, 0xD8, 0xAB, 0x00, 0x8C, 0xBC, 0xD3, 0x0A, 0xF7, 0xE4, 0x58, 0x05, 0xB8, 0xB3, 0x45, 0x06],
   [0xD0, 0x2C, 0x1E, 0x8F, 0xCA, 0x3F, 0x0F, 0x02, 0xC1, 0xAF, 0xBD, 0x03, 0x01, 0x13, 0x8A, 0x6B],
   [0x3A, 0x91, 0x11, 0x41, 0x4F, 0x67, 0xDC, 0xEA, 0x97, 0xF2, 0xCF, 0xCE, 0xF0, 0xB4, 0xE6, 0x73],
   [0x96, 0xAC, 0x74, 0x22, 0xE7, 0xAD, 0x35, 0x85, 0xE2, 0xF9, 0x37, 0xE8, 0x1C, 0x75, 0xDF, 0x6E],
   [0x47, 0xF1, 0x1A, 0x71, 0x1D, 0x29, 0xC5, 0x89, 0x6F, 0xB7, 0x62, 0x0E, 0xAA, 0x18, 0xBE, 0x1B],
   [0xFC, 0x56, 0x3E, 0x4B, 0xC6, 0xD2, 0x79, 0x20, 0x9A, 0xDB, 0xC0, 0xFE, 0x78, 0xCD, 0x5A, 0xF4],
   [0x1F, 0xDD, 0xA8, 0x33, 0x88, 0x07, 0xC7, 0x31, 0xB1, 0x12, 0x10, 0x59, 0x27, 0x80, 0xEC, 0x5F],
   [0x60, 0x51, 0x7F, 0xA9, 0x19, 0xB5, 0x4A, 0x0D, 0x2D, 0xE5, 0x7A, 0x9F, 0x93, 0xC9, 0x9C, 0xEF],
   [0xA0, 0xE0, 0x3B, 0x4D, 0xAE, 0x2A, 0xF5, 0xB0, 0xC8, 0xEB, 0xBB, 0x3C, 0x83, 0x53, 0x99, 0x61],
   [0x17, 0x2B, 0x04, 0x7E, 0xBA, 0x77, 0xD6, 0x26, 0xE1, 0x69, 0x14, 0x63, 0x55, 0x21, 0x0C, 0x7D]]

/-- `SBOX[x]` by the table (R122). -/
def sbox (x : Byte) : Byte := (sboxRows.getD (x.toNat / 16) []).getD (x.toNat % 16) 0

/-- `ISBOX[y]` by the table (R123). -/
def isbox (y : Byte) : Byte := (isboxRows.getD (y.toNat / 16) []).getD (y.toNat % 16) 0

/-- The multiplicative inverse in GF(2^8), 00 for 00 (R122): `x^254`, by squaring and multiplying. -/
def ginv (x : Byte) : Byte :=
  let x2 := gmul x x
  let x4 := gmul x2 x2
  let x8 := gmul x4 x4
  let x16 := gmul x8 x8
  let x32 := gmul x16 x16
  let x64 := gmul x32 x32
  let x128 := gmul x64 x64
  gmul x128 (gmul x64 (gmul x32 (gmul x16 (gmul x8 (gmul x4 x2)))))

/-- The defining formula of SBOX (R122). The datapath uses the table; that the two agree is
Obligations.SboxTablesAreFormulas. -/
def sboxFormula (x : Byte) : Byte :=
  let b := ginv x
  b ^^^ b.rotateLeft 1 ^^^ b.rotateLeft 2 ^^^ b.rotateLeft 3 ^^^ b.rotateLeft 4 ^^^ 0x63

/-! ### The block functions of the micro-operations (R124 to R130) -/

/-- SubBytes (R125). -/
def subBytes (b : Block) : Block := Block.mapWords (Word.map sbox) b

/-- InvSubBytes (R128). -/
def invSubBytes (b : Block) : Block := Block.mapWords (Word.map isbox) b

/-- ShiftRows (R126): `new s[r,c] = old s[r, (c + r) mod 4]`. -/
def shiftRows (b : Block) : Block :=
  ⟨⟨b.w0.a0, b.w1.a1, b.w2.a2, b.w3.a3⟩,
   ⟨b.w1.a0, b.w2.a1, b.w3.a2, b.w0.a3⟩,
   ⟨b.w2.a0, b.w3.a1, b.w0.a2, b.w1.a3⟩,
   ⟨b.w3.a0, b.w0.a1, b.w1.a2, b.w2.a3⟩⟩

/-- InvShiftRows (R129): `new s[r, (c + r) mod 4] = old s[r,c]`. -/
def invShiftRows (b : Block) : Block :=
  ⟨⟨b.w0.a0, b.w3.a1, b.w2.a2, b.w1.a3⟩,
   ⟨b.w1.a0, b.w0.a1, b.w3.a2, b.w2.a3⟩,
   ⟨b.w2.a0, b.w1.a1, b.w0.a2, b.w3.a3⟩,
   ⟨b.w3.a0, b.w2.a1, b.w1.a2, b.w0.a3⟩⟩

/-- One column of MixColumns: the circulant matrix (02 03 01 01) (R127). -/
def mixColumn (w : Word) : Word :=
  ⟨mul02 w.a0 ^^^ mul03 w.a1 ^^^ w.a2 ^^^ w.a3,
   w.a0 ^^^ mul02 w.a1 ^^^ mul03 w.a2 ^^^ w.a3,
   w.a0 ^^^ w.a1 ^^^ mul02 w.a2 ^^^ mul03 w.a3,
   mul03 w.a0 ^^^ w.a1 ^^^ w.a2 ^^^ mul02 w.a3⟩

/-- One column of InvMixColumns: the circulant matrix (0E 0B 0D 09) (R130). -/
def invMixColumn (w : Word) : Word :=
  ⟨mul0E w.a0 ^^^ mul0B w.a1 ^^^ mul0D w.a2 ^^^ mul09 w.a3,
   mul09 w.a0 ^^^ mul0E w.a1 ^^^ mul0B w.a2 ^^^ mul0D w.a3,
   mul0D w.a0 ^^^ mul09 w.a1 ^^^ mul0E w.a2 ^^^ mul0B w.a3,
   mul0B w.a0 ^^^ mul0D w.a1 ^^^ mul09 w.a2 ^^^ mul0E w.a3⟩

/-- MixColumns (R127). -/
def mixColumns (b : Block) : Block := Block.mapWords mixColumn b

/-- InvMixColumns (R130). -/
def invMixColumns (b : Block) : Block := Block.mapWords invMixColumn b

/-- AddRoundKey with round key `k` (R124): column `c` meets word `RK[4r+c]`. -/
def addRoundKey (k b : Block) : Block := b.xor k

/-! ### The ciphers (R152, R154), for round keys `k r` -/

/-- `Cipher(RK, b)` (R152), `k r` being round key r. -/
def cipher (k : Nat → Block) (b : Block) : Block :=
  let s := [1, 2, 3, 4, 5, 6, 7, 8, 9, 10, 11, 12, 13].foldl
    (fun s r => addRoundKey (k r) (mixColumns (shiftRows (subBytes s)))) (addRoundKey (k 0) b)
  addRoundKey (k 14) (shiftRows (subBytes s))

/-- `InvCipher(RK, b)` (R154). -/
def invCipher (k : Nat → Block) (b : Block) : Block :=
  let s := [13, 12, 11, 10, 9, 8, 7, 6, 5, 4, 3, 2, 1].foldl
    (fun s r => invSubBytes (invShiftRows (invMixColumns (addRoundKey (k r) s))))
    (invSubBytes (invShiftRows (addRoundKey (k 14) b)))
  addRoundKey (k 0) s

/-! ### The key schedule (R101 to R104) -/

/-- `RotWord` (R101). -/
def rotWord (w : Word) : Word := ⟨w.a1, w.a2, w.a3, w.a0⟩

/-- `SubWord` (R102). -/
def subWord (w : Word) : Word := Word.map sbox w

/-- `Rcon(j) = [rc_j, 00, 00, 00]`, `rc_j = 2^(j-1)`, for j = 1..7 (R103). -/
def rcon (j : Nat) : Word := ⟨BitVec.ofNat 8 (2 ^ (j - 1)), 0, 0, 0⟩

/-- The word XORed onto `w[i-8]` to make `w[i]`, from `t = w[i-1]` (R104, R105). -/
def scheduleCore (i : Nat) (t : Word) : Word :=
  if i % 8 = 0 then (subWord (rotWord t)).xor (rcon (i / 8))
  else if i % 8 = 4 then subWord t
  else t

/-- The first eight words are the key, the rest of the file as it stands (R104, R106). -/
def loadKeyWords (key : Key) (rk : Vector Word 60) : Vector Word 60 :=
  [0, 1, 2, 3, 4, 5, 6, 7].foldl (fun rk i => rk.setIfInBounds i (key.word i)) rk

/-- `w[i] = w[i-8] ⊕ t` in the file (R104, R105). -/
def scheduleWord (rk : Vector Word 60) (i : Nat) : Vector Word 60 :=
  rk.setIfInBounds i
    ((rk[i - 8]?.getD Word.zero).xor (scheduleCore i (rk[i - 1]?.getD Word.zero)))

/-- `KeyExpansion(key)` (R104): the key's words, then words 8 to 59 in increasing order. -/
def keyExpansion (key : Key) : Vector Word 60 :=
  (List.range' 8 52).foldl scheduleWord (loadKeyWords key (Vector.replicate 60 Word.zero))

end Sys2Proof.Machine
end

