-- ==== Sys2Proof/Machine/RoundOps.lean ====
section
/-! DEFINITION. The meanings of the seven round micro-operations ARK, SB, SR, MC, ISB, ISR, IMC
(41_round_ops.md R120, R124 to R130) and the walk of SEQ inside phase ROUND (10_state.md R30). -/

namespace Sys2Proof.Machine

/-- SEQ after the micro-operation `code` (R30). The walk ends with (14,ARK) forward and (0,ARK) inverse,
in phase STORE, where SEQ.uop is 0, none (R78; log 13). Pairs off the walk, which R31 excludes, follow the
same rule of their own code (log 18). -/
def Seq.walkNext (code : BitVec 4) (q : Seq) : Seq :=
  match code.toNat with
  | 1 =>
    if q.dir then
      if q.round = 0 then { q with phase := .store, uop := 0 }
      else if q.round = 14 then { q with uop := 6 }
      else { q with uop := 7 }
    else
      if q.round = 14 then { q with phase := .store, uop := 0 }
      else { q with round := q.round + 1, uop := 2 }
  | 2 => { q with uop := 3 }
  | 3 => if q.round = 14 then { q with uop := 1 } else { q with uop := 4 }
  | 4 => { q with uop := 1 }
  | 5 => { q with round := q.round - 1, uop := 1 }
  | 6 => { q with uop := 5 }
  | 7 => { q with uop := 6 }
  | _ => q

/-- The three effects of a round micro-operation, in R120's order: S takes its new value, one K_ROUND
record is emitted, SEQ advances. -/
def State.roundStep (code : BitVec 4) (newS : Block) (s : State) : State :=
  { s with
    dp := { s.dp with s := newS }
    trace := s.trace ++ [recRound s.seq.unit s.seq.round code newS]
    seq := s.seq.walkNext code }

/-- ARK (R124): `S <- S ⊕ RoundKey(SEQ.round)`. -/
def arkStep (s : State) : State :=
  s.roundStep 1 (addRoundKey (roundKey s.rk s.seq.round.val) s.dp.s)

/-- SB (R125). -/
def sbStep (s : State) : State := s.roundStep 2 (subBytes s.dp.s)

/-- SR (R126). -/
def srStep (s : State) : State := s.roundStep 3 (shiftRows s.dp.s)

/-- MC (R127). -/
def mcStep (s : State) : State := s.roundStep 4 (mixColumns s.dp.s)

/-- ISB (R128). -/
def isbStep (s : State) : State := s.roundStep 5 (invSubBytes s.dp.s)

/-- ISR (R129). -/
def isrStep (s : State) : State := s.roundStep 6 (invShiftRows s.dp.s)

/-- IMC (R130). -/
def imcStep (s : State) : State := s.roundStep 7 (invMixColumns s.dp.s)

/-- The meaning of ARK: it cannot fail (R120). -/
def execArk (s : State) : Host.Outcome State Fault Refusal := .next (arkStep s)

/-- The meaning of SB. -/
def execSb (s : State) : Host.Outcome State Fault Refusal := .next (sbStep s)

/-- The meaning of SR. -/
def execSr (s : State) : Host.Outcome State Fault Refusal := .next (srStep s)

/-- The meaning of MC. -/
def execMc (s : State) : Host.Outcome State Fault Refusal := .next (mcStep s)

/-- The meaning of ISB. -/
def execIsb (s : State) : Host.Outcome State Fault Refusal := .next (isbStep s)

/-- The meaning of ISR. -/
def execIsr (s : State) : Host.Outcome State Fault Refusal := .next (isrStep s)

/-- The meaning of IMC. -/
def execImc (s : State) : Host.Outcome State Fault Refusal := .next (imcStep s)

/-- The micro-operation that SEQ.uop names, executed (R158); no code outside 1 to 7 occurs in phase
ROUND (R78). -/
def microStep (s : State) : State :=
  match s.seq.uop.toNat with
  | 1 => arkStep s
  | 2 => sbStep s
  | 3 => srStep s
  | 4 => mcStep s
  | 5 => isbStep s
  | 6 => isrStep s
  | 7 => imcStep s
  | _ => s

/-- The forward walk as R30 writes it: 56 pairs (round, code). -/
def forwardWalk : List (Nat × BitVec 4) :=
  [(0, 1)] ++ (List.range' 1 13).flatMap (fun r => [(r, 2), (r, 3), (r, 4), (r, 1)])
    ++ [(14, 2), (14, 3), (14, 1)]

/-- The inverse walk as R30 writes it: 56 pairs (round, code). -/
def inverseWalk : List (Nat × BitVec 4) :=
  [(14, 1), (14, 6), (14, 5)]
    ++ (List.range' 1 13).reverse.flatMap (fun r => [(r, 1), (r, 7), (r, 6), (r, 5)]) ++ [(0, 1)]

end Sys2Proof.Machine
end

