-- ==== Sys2Proof/Machine/Phases.lean ====
section
/-! DEFINITION. The phases HEAD, LOAD, ROUND, STORE, TAIL that realise the ten mode operations
(43_modes.md R192 to R195), and the whole walk of one ENCRYPT or DECRYPT after its checks
(44_commands.md R214, R216). -/

namespace Sys2Proof.Machine

/-- The header records of HEAD, in R194's order. -/
def Op.headRecords (o : Op) (s : State) : List TraceRecord :=
  [o.recInput s.stage.lenIn] ++ recKeys s.rk
    ++ [o.recPad s.stage.lenIn.toNat, o.recMode (o.iv s) s.stage.lenIn.toNat]

/-- HEAD (R194), once per command. -/
def Op.headPhase (o : Op) (s : State) : State :=
  { s with
    trace := s.trace ++ o.headRecords s
    obuf := if o.enc ∧ o.mode ≠ .ecb then Memory.writeBytes 0 s.cfg.iv.toList s.obuf else s.obuf
    dp := { s.dp with fb := if o.mode = .ecb then s.dp.fb else o.iv s }
    seq := { s.seq with unit := 0, phase := .load } }

/-- ULEN of unit `i` (R192). -/
def Op.ulen (o : Op) (lenIn i : Nat) : Nat := min 16 (o.total lenIn - 16 * i)

/-- IB of unit `i` (R192): the message bytes, zero-filled past ULEN. -/
def Op.inputUnit (o : Op) (s : State) (i : Nat) : Block :=
  Block.tabulate fun k => if k < o.ulen s.stage.lenIn.toNat i then o.msg s (16 * i + k) else 0

/-- LOAD (R192) of unit `i = SEQ.unit`, and the start of the walk (R158). -/
def Op.loadPhase (o : Op) (s : State) : State :=
  let i := s.seq.unit.toNat
  let ulen := o.ulen s.stage.lenIn.toNat i
  let ib := o.inputUnit s i
  let x := o.cipherInput ib s.dp.fb
  { s with
    dp := { s.dp with ulen := BitVec.ofNat 5 ulen, ib := ib, s := x }
    trace := s.trace ++ [recUnitStart s.seq.unit ulen ib, recUnitPre s.seq.unit o.inverse x]
    seq := { s.seq with
      phase := .round
      dir := o.inverse
      round := if o.inverse then 14 else 0
      uop := 1 } }

/-- STORE (R193) of unit `i = SEQ.unit`, `Y = S` being the cipher output. -/
def Op.storePhase (o : Op) (s : State) : State :=
  let i := s.seq.unit.toNat
  let ulen := s.dp.ulen.toNat
  let y := s.dp.s
  let ob := o.outputUnit y s.dp.ib s.dp.fb ulen
  { s with
    dp := { s.dp with
      ob := ob
      fb := o.nextFeedback y s.dp.ib s.dp.fb ob
      ks := o.nextKeystream y s.dp.ks }
    obuf := Memory.writeBytes (o.obase + 16 * i) (ob.toList.take ulen) s.obuf
    trace := s.trace ++ [recUnitDone s.seq.unit ulen ob s.dp.ib]
    seq := { s.seq with
      unit := s.seq.unit + 1
      phase := if i + 1 < o.units s.stage.lenIn.toNat then .load else .tail } }

/-- The decrypted message, OBUF[0..L), that TAIL looks at for padding (R195). -/
def Op.decrypted (o : Op) (s : State) : List Byte :=
  Memory.readBytes 0 (o.total s.stage.lenIn.toNat) s.obuf

/-- LEN_OUT of the operation (R195): `obase + L` for ENCRYPT, `L − k` for DECRYPT. -/
def Op.lenOut (o : Op) (s : State) : BitVec 32 :=
  let total := o.total s.stage.lenIn.toNat
  if o.enc then BitVec.ofNat 32 (o.obase + total)
  else if o.mode.padded then BitVec.ofNat 32 (total - stripCount (o.decrypted s))
  else BitVec.ofNat 32 total

/-- The records of TAIL, in R195's order. -/
def Op.tailRecords (o : Op) (s : State) : List TraceRecord :=
  [o.recAggregate s.stage.lenIn.toNat]
    ++ (if o.inverse then [recUnpad (o.decrypted s)] else [])
    ++ [o.recFinal (o.lenOut s)]

/-- TAIL (R195), once per command; it ends in completion (R218). -/
def Op.tailPhase (o : Op) (s : State) : State :=
  State.complete { s with trace := s.trace ++ o.tailRecords s, lenOut := o.lenOut s }

/-- One unit: LOAD, the 56 micro-operations SEQ names one after another, STORE (R29, R158). -/
def Op.unitStep (o : Op) (s : State) : State := o.storePhase (microStep^[56] (o.loadPhase s))

/-- The walk of a command after its checks: HEAD, the units in order, TAIL (R214, R216). -/
def Op.run (o : Op) (s : State) : State :=
  o.tailPhase (o.unitStep^[o.units s.stage.lenIn.toNat] (o.headPhase s))

end Sys2Proof.Machine
end

