-- ==== Sys2Proof/Machine/Decrypt.lean ====
section
/-! DEFINITION. The meanings of the five DECRYPT rows (44_commands.md R213, R216; 43_modes.md R181,
R183, R185, R187, R189). The row's own mode is used; where the word decodes to the row it is CFG.mode
(log 16). -/

namespace Sys2Proof.Machine

/-- The checks of DECRYPT in a mode, the first that applies (R213, R216, R303). -/
def State.decryptCheck (m : Mode) (s : State) : Option ErrorCode :=
  let n := s.stage.lenIn.toNat
  let ct := n - (Op.mk false m).ibase
  if s.cfg.valid = false then some .nocfg
  else if n > s.bufcap.bytes then some .capacity
  else if n = 0 then some .empty
  else if m ≠ .ecb ∧ n < 17 then some .noiv
  else if m.padded = true ∧ (ct = 0 ∨ ct % 16 ≠ 0) then some .align
  else none

/-- DECRYPT in a mode (R216, R220): prologue, checks, then HEAD, the units, TAIL. -/
def decryptRun (m : Mode) (s : State) : State :=
  let t := s.prologue 3
  match t.decryptCheck m with
  | some e => t.raise e
  | none => Op.run ⟨false, m⟩ t

/-- DECRYPT.ECB (R181). -/
def execDecryptEcb (s : State) : Host.Outcome State Fault Refusal := .next (decryptRun .ecb s)

/-- DECRYPT.CBC (R183). -/
def execDecryptCbc (s : State) : Host.Outcome State Fault Refusal := .next (decryptRun .cbc s)

/-- DECRYPT.CFB (R185). -/
def execDecryptCfb (s : State) : Host.Outcome State Fault Refusal := .next (decryptRun .cfb s)

/-- DECRYPT.OFB (R187). -/
def execDecryptOfb (s : State) : Host.Outcome State Fault Refusal := .next (decryptRun .ofb s)

/-- DECRYPT.CTR (R189). -/
def execDecryptCtr (s : State) : Host.Outcome State Fault Refusal := .next (decryptRun .ctr s)

end Sys2Proof.Machine
end

