-- ==== Sys2Proof/Machine/Encrypt.lean ====
section
/-! DEFINITION. The meanings of the five ENCRYPT rows (44_commands.md R213, R214; 43_modes.md R180,
R182, R184, R186, R188). The row's own mode is used; where the word decodes to the row it is CFG.mode
(log 16). -/

namespace Sys2Proof.Machine

/-- The checks of ENCRYPT, the first that applies (R213, R214, R303). -/
def State.encryptCheck (s : State) : Option ErrorCode :=
  if s.cfg.valid = false then some .nocfg
  else if s.stage.lenIn.toNat > s.bufcap.bytes then some .capacity
  else if s.stage.lenIn.toNat < 16 then some .short
  else none

/-- ENCRYPT in a mode (R214, R220): prologue, checks, then HEAD, the units, TAIL. -/
def encryptRun (m : Mode) (s : State) : State :=
  let t := s.prologue 2
  match t.encryptCheck with
  | some e => t.raise e
  | none => Op.run ⟨true, m⟩ t

/-- ENCRYPT.ECB (R180). -/
def execEncryptEcb (s : State) : Host.Outcome State Fault Refusal := .next (encryptRun .ecb s)

/-- ENCRYPT.CBC (R182). -/
def execEncryptCbc (s : State) : Host.Outcome State Fault Refusal := .next (encryptRun .cbc s)

/-- ENCRYPT.CFB (R184). -/
def execEncryptCfb (s : State) : Host.Outcome State Fault Refusal := .next (encryptRun .cfb s)

/-- ENCRYPT.OFB (R186). -/
def execEncryptOfb (s : State) : Host.Outcome State Fault Refusal := .next (encryptRun .ofb s)

/-- ENCRYPT.CTR (R188). -/
def execEncryptCtr (s : State) : Host.Outcome State Fault Refusal := .next (encryptRun .ctr s)

end Sys2Proof.Machine
end

