-- ==== Sys2Proof/Machine/KeySchedule.lean ====
section
/-! DEFINITION. The meaning of KEXP, one word of the key schedule (40_key_schedule.md R105), and of its
last step, which completes INIT (R106). -/

namespace Sys2Proof.Machine

/-- Completion of INIT after word 59 (R105, R106, R212): `CFG.valid <- 1`, then R218. -/
def State.completeInit (s : State) : State :=
  State.complete { s with cfg := { s.cfg with valid := true } }

/-- KEXP for `i = SEQ.unit` in 8..59 (R105): RK[i] is written, SEQ.unit advances, and after i = 59 the
INIT command completes. No trace record. -/
def kexpStep (s : State) : State :=
  let t : State :=
    { s with
      rk := scheduleWord s.rk s.seq.unit.toNat
      seq := { s.seq with unit := s.seq.unit + 1 } }
  if s.seq.unit = 59 then t.completeInit else t

/-- The meaning of KEXP. R105 gives it the word indices 8 to 59; SEQ.unit is never another (R31), and
the model stops there (log 17). -/
def execKexp (s : State) : Host.Outcome State Fault Refusal :=
  if 8 ≤ s.seq.unit.toNat ∧ s.seq.unit.toNat ≤ 59 then .next (kexpStep s) else .fault .kexpIndex

end Sys2Proof.Machine
end

