-- ==== Sys2Proof/Machine/Init.lean ====
section
/-! DEFINITION. The meaning of INIT (44_commands.md R212). -/

namespace Sys2Proof.Machine

/-- The checks of INIT, the first that applies (R212, R303). -/
def State.initCheck (s : State) : Option ErrorCode :=
  if s.stage.keylen ≠ 32 then some .keylen
  else if s.stage.mode.toNat > 4 then some .mode
  else if s.stage.mode ≠ 0 ∧ s.stage.ivlen ≠ 16 ∧ s.stage.ivlen ≠ 0 then some .ivlen
  else none

/-- The prologue, and the end of the previous instance: CFG.valid is cleared before any check (R212). -/
def State.initOpen (s : State) : State :=
  let t := s.prologue 1
  { t with cfg := { t.cfg with valid := false } }

/-- Whether INIT draws an IV: a mode other than ECB and IVLEN = 0 (R212). -/
def State.drawsIv (s : State) : Bool := s.stage.mode ≠ 0 && s.stage.ivlen == 0

/-- After the checks (R212): the IV is chosen (drawn at most once), CFG is latched, RK[0..7] take the
key, and SEQ goes to phase KEXP at word 8 (R106), SEQ.uop naming KEXP (log 13). -/
def State.initLatch (s : State) : State :=
  let iv := if s.stage.mode = 0 then Block.zero
    else if s.stage.ivlen = 16 then s.stage.ivIn else s.drawValue
  let t := if s.drawsIv then s.drawn else s
  { t with
    cfg :=
      { key := s.stage.keyIn
        mode := (Mode.ofCode s.stage.mode).getD .ecb
        iv := iv
        valid := false
        ivgen := s.drawsIv }
    rk := loadKeyWords s.stage.keyIn s.rk
    seq := { s.seq with phase := .kexp, unit := 8, uop := 8 } }

/-- The meaning of INIT (R212, R220): the checks, then the latched instance and 52 KEXP steps, the last
of which completes the command. -/
def execInit (s : State) : Host.Outcome State Fault Refusal :=
  let t := s.initOpen
  match t.initCheck with
  | some e => .next (t.raise e)
  | none => .next (kexpStep^[52] t.initLatch)

end Sys2Proof.Machine
end

