-- ==== Sys2Proof/Machine/Dispatch.lean ====
section
/-! DEFINITION. One arm per instruction of spec/opcode_table.json. -/

namespace Sys2Proof.Machine

def exec (i : Instr) (s : State) : Host.Outcome State Fault Refusal :=
  match i with
  | .init => Sys2Proof.Machine.execInit s
  | .encryptEcb => Sys2Proof.Machine.execEncryptEcb s
  | .encryptCbc => Sys2Proof.Machine.execEncryptCbc s
  | .encryptCfb => Sys2Proof.Machine.execEncryptCfb s
  | .encryptOfb => Sys2Proof.Machine.execEncryptOfb s
  | .encryptCtr => Sys2Proof.Machine.execEncryptCtr s
  | .decryptEcb => Sys2Proof.Machine.execDecryptEcb s
  | .decryptCbc => Sys2Proof.Machine.execDecryptCbc s
  | .decryptCfb => Sys2Proof.Machine.execDecryptCfb s
  | .decryptOfb => Sys2Proof.Machine.execDecryptOfb s
  | .decryptCtr => Sys2Proof.Machine.execDecryptCtr s
  | .ark => Sys2Proof.Machine.execArk s
  | .sb => Sys2Proof.Machine.execSb s
  | .sr => Sys2Proof.Machine.execSr s
  | .mc => Sys2Proof.Machine.execMc s
  | .isb => Sys2Proof.Machine.execIsb s
  | .isr => Sys2Proof.Machine.execIsr s
  | .imc => Sys2Proof.Machine.execImc s
  | .kexp => Sys2Proof.Machine.execKexp s

end Sys2Proof.Machine
end

