-- ==== Sys2Proof/Machine/Sequencer.lean ====
section
/-! DEFINITION. The sequencer one step at a time (10_state.md R28 to R30), and the acceptance of a
command (44_commands.md R210, R211, R220). -/

namespace Sys2Proof.Machine

/-- The cipher operation of a command row. -/
def commandOp : Instr → Option Op
  | .init => none
  | .encryptEcb => some ⟨true, .ecb⟩
  | .encryptCbc => some ⟨true, .cbc⟩
  | .encryptCfb => some ⟨true, .cfb⟩
  | .encryptOfb => some ⟨true, .ofb⟩
  | .encryptCtr => some ⟨true, .ctr⟩
  | .decryptEcb => some ⟨false, .ecb⟩
  | .decryptCbc => some ⟨false, .cbc⟩
  | .decryptCfb => some ⟨false, .cfb⟩
  | .decryptOfb => some ⟨false, .ofb⟩
  | .decryptCtr => some ⟨false, .ctr⟩
  | .ark => none
  | .sb => none
  | .sr => none
  | .mc => none
  | .isb => none
  | .isr => none
  | .imc => none
  | .kexp => none

/-- The checks of ENCRYPT or DECRYPT (R214, R216). -/
def Op.check (o : Op) (s : State) : Option ErrorCode :=
  if o.enc then s.encryptCheck else s.decryptCheck o.mode

/-- The operation in progress: `enc` from the accepted command word (R74), the mode from CFG. -/
def State.currentOp (s : State) : Op := ⟨s.cmd == 2, s.cfg.mode⟩

/-- Phase CHECK of INIT (R212). -/
def State.checkInit (s : State) : State :=
  let t : State := { s with cfg := { s.cfg with valid := false } }
  match t.initCheck with
  | some e => t.raise e
  | none => t.initLatch

/-- Phase CHECK of ENCRYPT or DECRYPT: an error, or on to HEAD (R29). -/
def State.checkCipher (o : Op) (s : State) : State :=
  match o.check s with
  | some e => s.raise e
  | none => { s with seq := { s.seq with phase := .head } }

/-- Phase CHECK: the command word is decoded, and the command's own rule runs (R210, R211, R304). -/
def State.checkPhase (s : State) : State :=
  match decodeCmd s.cfg.mode s.cmd with
  | .error _ => s.raise .badcmd
  | .ok i =>
    match commandOp i with
    | some o => s.checkCipher o
    | none => s.checkInit

/-- The micro-operation SEQ.uop names, run in phase KEXP or ROUND (R28, R78). -/
def State.runUop (s : State) : Host.Outcome State Fault Refusal :=
  match decodeUop s.seq.uop with
  | .ok i => exec i s
  | .error _ => .refused .reservedUop

/-- One step of the sequencer, by the phase it is in (R28, R29). -/
def State.seqStep (s : State) : Host.Outcome State Fault Refusal :=
  match s.seq.phase with
  | .idle => .next s
  | .check => .next s.checkPhase
  | .kexp => s.runUop
  | .head => .next (s.currentOp.headPhase s)
  | .load => .next (s.currentOp.loadPhase s)
  | .round => s.runUop
  | .store => .next (s.currentOp.storePhase s)
  | .tail => .next (s.currentOp.tailPhase s)

/-- Sequencer steps, as many as `k`, stopping where one stops. -/
def State.seqSteps : Nat → State → Host.Outcome State Fault Refusal
  | 0, s => .next s
  | k + 1, s =>
    match s.seqStep with
    | .next t => State.seqSteps k t
    | .fault f => .fault f
    | .refused r => .refused r

/-- A whole command as one step (R62, R220): the instruction's meaning, or BADCMD (R211). -/
def State.runCommand (d : BusWord) (s : State) : Host.Outcome State Fault Refusal :=
  match decodeCmd s.cfg.mode d with
  | .ok i => exec i s
  | .error _ => .next ((s.prologue d).raise .badcmd)

/-- Whether the host leaves the bus alone until the command has ended: its next input is not `seq`.
DESIGN CHOICE (log 1, log 2): the spec fixes no interleaving of the host with a command in progress. -/
def hostWaits : List Input → Bool
  | .seq :: _ => false
  | _ => true

/-- An accepted CMD write (R210): the whole command where the host waits for its end; else the prologue
alone, and the sequencer goes on step by step. The `seq` that says so is taken off with the write and
moves nothing, so an access or a change of RST may come between the prologue and CHECK, as R341 and R350
leave open (log 2). -/
def State.acceptCommand (d : BusWord) (s : State) : Host.Outcome State Fault Refusal :=
  if hostWaits s.inputs then s.runCommand d
  else .next (State.prologue d { s with inputs := s.inputs.tail })

/-- A host write: dropped while RST is asserted (R330), dropped with HZD while BUSY (R341), a command at
CMD (R210), a store elsewhere. -/
def State.busWrite (a : WordAddr) (d : BusWord) (s : State) : Host.Outcome State Fault Refusal :=
  if s.rst then .next s
  else if s.busy then .next s.hazard
  else
    match locate s.bufcap a with
    | .cmd => s.acceptCommand d
    | _ => .next (s.busStore a d)

/-- The word address of CMD (R72). -/
def cmdAddr : WordAddr := 0

/-- The word address of STATUS (R72). -/
def statusAddr : WordAddr := 1

/-- One turn of POLL (R86): a STATUS read; while it shows BUSY the core goes on and the host reads again,
so the input stays. -/
def State.pollStep (rest : List Input) (s : State) : Host.Outcome State Fault Refusal :=
  if s.busy then (s.busRead statusAddr).seqStep
  else .next (State.busRead statusAddr { s with inputs := rest })

/-- What one input does; `s.inputs` is `i :: rest`. -/
def State.inputStep (i : Input) (rest : List Input) (s : State) :
    Host.Outcome State Fault Refusal :=
  match i with
  | .write a d => State.busWrite a d { s with inputs := rest }
  | .read a => .next (State.busRead a { s with inputs := rest })
  | .poll => s.pollStep rest
  | .seq => if s.busy then State.seqStep { s with inputs := rest } else .next { s with inputs := rest }
  | .rst level => .next (State.driveRst level { s with inputs := rest })

/-- What a step does when no input waits: a command in progress goes on (R218); at rest nothing happens
(R333). -/
def State.quietStep (s : State) : Host.Outcome State Fault Refusal :=
  if s.busy then s.seqStep else .next s

/-! ### Placing an instruction where it is fetched -/

/-- The command word `w` as the next access on the bus, to CMD, of a core at rest. -/
def State.placeCommand (w : Nat) (s : State) : State :=
  { s with
    rst := false
    run := if s.busy then .done else s.run
    seq := if s.busy then { s.seq with phase := .idle } else s.seq
    inputs := [.write cmdAddr (BitVec.ofNat 32 w)] }

/-- A position of the walk at which the micro-operation `code` stands, the present one where it does. -/
def Seq.placeUop (code : BitVec 4) (q : Seq) : Seq :=
  match code.toNat with
  | 2 => { q with phase := .round, uop := code, dir := false,
                  round := if q.round = 0 then 1 else q.round }
  | 3 => { q with phase := .round, uop := code, dir := false,
                  round := if q.round = 0 then 1 else q.round }
  | 4 => { q with phase := .round, uop := code, dir := false,
                  round := if q.round = 0 ∨ q.round = 14 then 1 else q.round }
  | 5 => { q with phase := .round, uop := code, dir := true,
                  round := if q.round = 0 then 14 else q.round }
  | 6 => { q with phase := .round, uop := code, dir := true,
                  round := if q.round = 0 then 14 else q.round }
  | 7 => { q with phase := .round, uop := code, dir := true,
                  round := if q.round = 0 ∨ q.round = 14 then 13 else q.round }
  | 8 => { q with phase := .kexp, uop := code,
                  unit := if 8 ≤ q.unit.toNat ∧ q.unit.toNat ≤ 59 then q.unit else 8 }
  | _ => { q with phase := .round, uop := code }

/-- The micro-operation code `w` as the one SEQ is about to execute, with no input before it. -/
def State.placeUop (w : Nat) (s : State) : State :=
  { s with
    rst := false
    run := .busy
    seq := s.seq.placeUop (BitVec.ofNat 4 w)
    inputs := [] }

end Sys2Proof.Machine
end

