-- ==== Sys2Proof/Machine/Step.lean ====
section
/-! DEFINITION. One step of the machine: the next input from outside, or the sequencer's next step (log
1, log 2); and placing an instruction where it is fetched (log 15). -/

namespace Sys2Proof.Machine

/-- One step. -/
def step (s : State) : Host.Outcome State Fault Refusal :=
  match s.inputs with
  | [] => s.quietStep
  | i :: rest => s.inputStep i rest

/-- `s` with the instruction whose bits are `w` where the next step runs it: a command word as the
host's next access to CMD, a micro-operation code in SEQ.uop (log 15). -/
def State.withFetchWord (s : State) (nbits w : Nat) : State :=
  if nbits = 32 then s.placeCommand w else s.placeUop w

end Sys2Proof.Machine
end

