-- ==== Sys2Proof/Machine/HostProgram.lean ====
section
/-! DEFINITION. The host-program notation of 30_encoding.md R85, R86 as lists of inputs, and running a
list of inputs. -/

namespace Sys2Proof.Machine

/-- The addresses of the registers a host program names (R72), as word addresses. -/
def modeAddr : WordAddr := 3

/-- KEYLEN. -/
def keylenAddr : WordAddr := 4

/-- IVLEN. -/
def ivlenAddr : WordAddr := 5

/-- LEN_IN. -/
def lenInAddr : WordAddr := 6

/-- LEN_OUT. -/
def lenOutAddr : WordAddr := 7

/-- ERR. -/
def errAddr : WordAddr := 2

/-- TRC_SEL. -/
def trcSelAddr : WordAddr := 9

/-- KEY_IN[0]. -/
def keyInAddr : WordAddr := 16

/-- IV_IN[0]. -/
def ivInAddr : WordAddr := 24

/-- TRC_REC[0]. -/
def trcRecAddr : WordAddr := 32

/-- IBUF, word 0. -/
def ibufAddr : WordAddr := 16384

/-- OBUF, word 0. -/
def obufAddr : WordAddr := 32768

/-- Word `j` of a byte string in lanes, 00 past its end (R86). -/
def stringWord (m : List Byte) (j : Nat) : BusWord :=
  (Word.tabulate fun k => m.getD (4 * j + k) 0).toBus

/-- `WRS window, m` (R86). -/
def wrs (window : WordAddr) (m : List Byte) : List Input :=
  (List.range ((m.length + 3) / 4)).map fun j =>
    .write (window + BitVec.ofNat 18 j) (stringWord m j)

/-- The reads of `RDS window, n` (R86). -/
def rds (window : WordAddr) (n : Nat) : List Input :=
  (List.range ((n + 3) / 4)).map fun j => .read (window + BitVec.ofNat 18 j)

/-- `CONFIG mode, key, iv` (R86): `code` is the MODE value, `iv` absent when the IV is omitted. -/
def configProgram (code : BitVec 3) (key : List Byte) (iv : Option (List Byte)) : List Input :=
  wrs keyInAddr key
    ++ [.write keylenAddr (BitVec.ofNat 32 key.length), .write modeAddr (code.setWidth 32)]
    ++ (match iv with
        | some b => wrs ivInAddr b ++ [.write ivlenAddr (BitVec.ofNat 32 b.length)]
        | none => [.write ivlenAddr 0])
    ++ [.write cmdAddr 1, .poll]

/-- `ENC m` (R86). -/
def encProgram (m : List Byte) : List Input :=
  wrs ibufAddr m ++ [.write lenInAddr (BitVec.ofNat 32 m.length), .write cmdAddr 2, .poll]

/-- `DEC f` (R86). -/
def decProgram (f : List Byte) : List Input :=
  wrs ibufAddr f ++ [.write lenInAddr (BitVec.ofNat 32 f.length), .write cmdAddr 3, .poll]

/-- The accesses of `RDR k` (R86). -/
def rdrProgram (k : BitVec 32) : List Input :=
  .write trcSelAddr k :: (List.range 8).map fun j => .read (trcRecAddr + BitVec.ofNat 18 j)

/-- One input given to the machine, one step taken. -/
def access (i : Input) (s : State) : Host.Outcome State Fault Refusal := step { s with inputs := [i] }

/-- Inputs given one after another, stopping where a step stops. -/
def runInputs : List Input → State → Host.Outcome State Fault Refusal
  | [], s => .next s
  | i :: is, s =>
    match access i s with
    | .next t => runInputs is t
    | .fault f => .fault f
    | .refused r => .refused r

/-- Reads given one after another, and the words they return. -/
def readAll : List Input → State → Option (List BusWord × State)
  | [], s => some ([], s)
  | i :: is, s =>
    match access i s with
    | .next t =>
      match readAll is t with
      | some (ws, u) => some (t.rdata :: ws, u)
      | none => none
    | .fault _ => none
    | .refused _ => none

/-- The bytes of words, lane 0 first (R55). -/
def wordBytes (ws : List BusWord) : List Byte :=
  ws.flatMap fun d => [(Word.ofBus d).a0, (Word.ofBus d).a1, (Word.ofBus d).a2, (Word.ofBus d).a3]

end Sys2Proof.Machine
end

