-- ==== Sys2Proof/Machine/HostWrapper.lean ====
section
/-! DEFINITION. The text layer around the core (46_host_wrapper.md R270 to R281): host software outside
the hardware boundary (00_scope.md R6), as functions that drive `step`. A text is a list of Unicode scalar
values. Also the rendering conventions of 45_trace.md R262. -/

namespace Sys2Proof.Machine

/-! ### UTF-8 (R271, R273) -/

/-- The UTF-8 bytes of one scalar value (R271), always the shortest form. -/
def utf8Char (c : Char) : List Byte :=
  let n := c.toNat
  if n < 0x80 then [BitVec.ofNat 8 n]
  else if n < 0x800 then [BitVec.ofNat 8 (0xC0 + n / 64), BitVec.ofNat 8 (0x80 + n % 64)]
  else if n < 0x10000 then
    [BitVec.ofNat 8 (0xE0 + n / 4096), BitVec.ofNat 8 (0x80 + n / 64 % 64),
     BitVec.ofNat 8 (0x80 + n % 64)]
  else
    [BitVec.ofNat 8 (0xF0 + n / 262144), BitVec.ofNat 8 (0x80 + n / 4096 % 64),
     BitVec.ofNat 8 (0x80 + n / 64 % 64), BitVec.ofNat 8 (0x80 + n % 64)]

/-- `Utf8Encode` (R271). -/
def utf8Encode (t : List Char) : List Byte := t.flatMap utf8Char

/-- The scalar value `n`, where `n` is one and is at least `low`, the smallest value of its form. -/
def scalarFrom (low n : Nat) : Option Char :=
  if h : n.isValidChar then (if low ≤ n then some (Char.ofNatAux n h) else none) else none

/-- The low six bits of a continuation byte 10xxxxxx. -/
def contBits (b : Byte) : Option Nat :=
  if 0x80 ≤ b.toNat ∧ b.toNat < 0xC0 then some (b.toNat - 0x80) else none

/-- `Utf8Decode` (R273): fails on a stray or missing continuation byte, an overlong form, a surrogate, a
value above U+10FFFF, and the bytes that begin no form. -/
def utf8Decode : List Byte → Option (List Char)
  | [] => some []
  | b0 :: t =>
    if b0.toNat < 0x80 then
      match scalarFrom 0 b0.toNat, utf8Decode t with
      | some c, some cs => some (c :: cs)
      | _, _ => none
    else if b0.toNat < 0xC0 then none
    else
      match t with
      | [] => none
      | b1 :: t1 =>
        if b0.toNat < 0xE0 then
          match contBits b1, utf8Decode t1 with
          | some x1, some cs =>
            (scalarFrom 0x80 ((b0.toNat - 0xC0) * 64 + x1)).map (· :: cs)
          | _, _ => none
        else
          match t1 with
          | [] => none
          | b2 :: t2 =>
            if b0.toNat < 0xF0 then
              match contBits b1, contBits b2, utf8Decode t2 with
              | some x1, some x2, some cs =>
                (scalarFrom 0x800 ((b0.toNat - 0xE0) * 4096 + x1 * 64 + x2)).map (· :: cs)
              | _, _, _ => none
            else
              match t2 with
              | [] => none
              | b3 :: t3 =>
                if b0.toNat < 0xF8 then
                  match contBits b1, contBits b2, contBits b3, utf8Decode t3 with
                  | some x1, some x2, some x3, some cs =>
                    (scalarFrom 0x10000
                      ((b0.toNat - 0xF0) * 262144 + x1 * 4096 + x2 * 64 + x3)).map (· :: cs)
                  | _, _, _, _ => none
                else none

/-! ### Base64 (R272, R274) -/

/-- The alphabet of RFC 4648 section 4 (R272): A-Z, a-z, 0-9, +, /. -/
def b64Char (v : Nat) : Char :=
  if v < 26 then Char.ofNat (65 + v)
  else if v < 52 then Char.ofNat (97 + (v - 26))
  else if v < 62 then Char.ofNat (48 + (v - 52))
  else if v = 62 then '+' else '/'

/-- The 6-bit value of a character of the alphabet. -/
def b64Value (c : Char) : Option Nat :=
  let n := c.toNat
  if 65 ≤ n ∧ n ≤ 90 then some (n - 65)
  else if 97 ≤ n ∧ n ≤ 122 then some (n - 97 + 26)
  else if 48 ≤ n ∧ n ≤ 57 then some (n - 48 + 52)
  else if n = 43 then some 62
  else if n = 47 then some 63
  else none

/-- `B64Encode` (R272). -/
def b64Encode : List Byte → List Char
  | [] => []
  | [a] => [b64Char (a.toNat / 4), b64Char (a.toNat % 4 * 16), '=', '=']
  | [a, b] =>
    [b64Char (a.toNat / 4), b64Char (a.toNat % 4 * 16 + b.toNat / 16),
     b64Char (b.toNat % 16 * 4), '=']
  | a :: b :: c :: r =>
    b64Char (a.toNat / 4) :: b64Char (a.toNat % 4 * 16 + b.toNat / 16)
      :: b64Char (b.toNat % 16 * 4 + c.toNat / 64) :: b64Char (c.toNat % 64) :: b64Encode r

/-- The bytes of the last group of four characters (R274): unused low bits before padding must be 0. -/
def b64Last (c0 c1 c2 c3 : Char) : Option (List Byte) :=
  if c3 = '=' then
    if c2 = '=' then
      match b64Value c0, b64Value c1 with
      | some v0, some v1 =>
        if v1 % 16 = 0 then some [BitVec.ofNat 8 (v0 * 4 + v1 / 16)] else none
      | _, _ => none
    else
      match b64Value c0, b64Value c1, b64Value c2 with
      | some v0, some v1, some v2 =>
        if v2 % 4 = 0 then
          some [BitVec.ofNat 8 (v0 * 4 + v1 / 16), BitVec.ofNat 8 (v1 % 16 * 16 + v2 / 4)]
        else none
      | _, _, _ => none
  else
    match b64Value c0, b64Value c1, b64Value c2, b64Value c3 with
    | some v0, some v1, some v2, some v3 =>
      some [BitVec.ofNat 8 (v0 * 4 + v1 / 16), BitVec.ofNat 8 (v1 % 16 * 16 + v2 / 4),
        BitVec.ofNat 8 (v2 % 4 * 64 + v3)]
    | _, _, _, _ => none

/-- `B64Decode` (R274): the strict inverse of `b64Encode`; `=` only in the last group. -/
def b64Decode : List Char → Option (List Byte)
  | [] => some []
  | c0 :: c1 :: c2 :: c3 :: r =>
    if r = [] then b64Last c0 c1 c2 c3
    else if c3 = '=' then none
    else
      match b64Last c0 c1 c2 c3, b64Decode r with
      | some x, some y => some (x ++ y)
      | _, _ => none
  | _ => none

/-! ### The wrapped operations (R270, R275, R277) -/

/-- What a wrapped operation answers: a text, or an error value in ERR's numbering (R277). -/
abbrev TextResult := Except ErrReg (List Char)

/-- A length as the wrapper writes it: above 255 it is written as 255 (R270). -/
def wrapperLength (n : Nat) : BitVec 32 := BitVec.ofNat 32 (min n 255)

/-- The bytes of the characters of a key or IV at the request boundary (R278): their character codes. R278
gives ASCII characters only; the code of any other is taken modulo 256. DESIGN CHOICE, unsafe (log 27). -/
def charCodes (t : List Char) : List Byte := t.map fun c => BitVec.ofNat 8 c.toNat

/-- Construction at this layer (R270): at most 32 key bytes and 16 IV bytes are copied, the lengths are
those given, and a mode name outside the five is written as 7. -/
def constructProgram (mode : Option Mode) (key : List Byte) (iv : Option (List Byte)) : List Input :=
  wrs keyInAddr (key.take 32)
    ++ [.write keylenAddr (wrapperLength key.length),
        .write modeAddr (((mode.map Mode.code).getD 7).setWidth 32)]
    ++ wrs ivInAddr ((iv.getD []).take 16)
    ++ [.write ivlenAddr (wrapperLength (iv.getD []).length), .write cmdAddr 1, .poll]

/-- `RDS OBUF, LEN_OUT` over the bus (R86, R275). -/
def readResult (s : State) : Option (List Byte × State) :=
  match readAll [.read lenOutAddr] s with
  | some (n :: _, t) =>
    match readAll (rds obufAddr n.toNat) t with
    | some (ws, u) => some ((wordBytes ws).take n.toNat, u)
    | none => none
  | _ => none

/-- The accesses of an operation on input bytes, and what the host then sees: the result bytes, or ERR
(R275). `none` only where a step stops. -/
def textOperation (program : List Input) (s : State) : Option (Except ErrReg (List Byte) × State) :=
  match runInputs program s with
  | .next t =>
    if t.run = .error then some (.error t.err, t)
    else
      match readResult t with
      | some (f, u) => some (.ok f, u)
      | none => none
  | .fault _ => none
  | .refused _ => none

/-- `encrypt_text(t)` (R275). -/
def encryptText (t : List Char) (s : State) : Option (TextResult × State) :=
  let m := utf8Encode t
  if m.length > s.bufcap.bytes then some (.error ErrorCode.capacity.reg, s)
  else
    match textOperation (encProgram m) s with
    | some (.ok f, u) => some (.ok (b64Encode f), u)
    | some (.error e, u) => some (.error e, u)
    | none => none

/-- `decrypt_text(w)` (R275, R277). A frame above BUFCAP is refused as R275 says, although R279 counts such
a text in where its own bytes fit. DESIGN CHOICE, unsafe (log 28). -/
def decryptText (w : List Char) (s : State) : Option (TextResult × State) :=
  match b64Decode w with
  | none => some (.error ErrorCode.base64.reg, s)
  | some f =>
    if f.length > s.bufcap.bytes then some (.error ErrorCode.capacity.reg, s)
    else
      match textOperation (decProgram f) s with
      | some (.ok p, u) =>
        match utf8Decode p with
        | some t => some (.ok t, u)
        | none => some (.error ErrorCode.utf8.reg, u)
      | some (.error e, u) => some (.error e, u)
      | none => none

/-! ### Rendering (R262, R276) -/

/-- A hexadecimal digit, upper case. -/
def hexDigit (n : Nat) : Char := if n < 10 then Char.ofNat (48 + n) else Char.ofNat (55 + n)

/-- "Hexadecimal rendering uses uppercase pairs" (R262). -/
def hexByte (b : Byte) : List Char := [hexDigit (b.toNat / 16), hexDigit (b.toNat % 16)]

/-- Row `r` of the 4×4 grid: block bytes `r, r+4, r+8, r+12` (R262, R14). -/
def gridRow (b : Block) (r : Nat) : List (List Char) :=
  [hexByte (b.get r), hexByte (b.get (r + 4)), hexByte (b.get (r + 8)), hexByte (b.get (r + 12))]

/-- Whether the operation the trace narrates is a DECRYPT, as its K_INPUT record says (R245); `none` where
there is no trace. -/
def narratesDecrypt (s : State) : Option Bool :=
  match s.trace with
  | [] => none
  | r :: _ => some (r.n == 1)

/-- What the rendering of K_FINAL quotes (R276): after `encrypt_text` the Base64 text it returns, after
`decrypt_text` the recovered text; `none` where there is no trace, or no text (R277). -/
def finalQuote (s : State) : Option (List Char) :=
  match narratesDecrypt s with
  | none => none
  | some false => some (b64Encode (Memory.readBytes 0 s.lenOut.toNat s.obuf))
  | some true => utf8Decode (Memory.readBytes 0 s.lenOut.toNat s.obuf)

/-- What the rendering of K_INPUT may quote (R276): after `decrypt_text` the Base64 text `w` it was
given; `none` after `encrypt_text`. -/
def inputQuote (w : List Char) (s : State) : Option (List Char) :=
  match narratesDecrypt s with
  | none => none
  | some false => none
  | some true => some w

end Sys2Proof.Machine
end

