-- ==== Sys2Proof/Machine/Whole.lean ====
section
/-! DEFINITION. The whole-message functions EncryptBytes and DecryptBytes (43_modes.md R171, R174, R176,
R180 to R191), written from the mode rules on byte strings, independently of the sequencer's phases. -/

namespace Sys2Proof.Machine

/-- `Pad(m)` (R174, R175): nothing is added to an aligned message. -/
def pad (m : List Byte) : List Byte :=
  m ++ List.replicate (padCount m.length) (BitVec.ofNat 8 (padCount m.length))

/-- `Unpad(m)` (R176). -/
def unpad (m : List Byte) : List Byte := m.take (m.length - stripCount m)

/-- Segmentation (R171): unit `i` is `m[16i .. min(16i+16, L))`. -/
def unitsOf (m : List Byte) : List (List Byte) :=
  (List.range (ceil16 m.length)).map fun i => (m.drop (16 * i)).take 16

/-- `u ⊕ k[0..|u|)`. -/
def xorUnit (u : List Byte) (k : Block) : List Byte := List.zipWith (· ^^^ ·) u k.toList

/-- `CtrBlock(iv, i)` (R190). -/
def ctrBlock (iv : Block) (i : Nat) : Block := Block.bytes128 ((iv.be128 + i) % 2 ^ 128)

/-- ECB in either direction, `f` being E or D (R180, R181). -/
def ecbMessage (f : Block → Block) : List (List Byte) → List Byte
  | [] => []
  | u :: us => (f (Block.ofList u)).toList ++ ecbMessage f us

/-- ENCRYPT.CBC from the previous ciphertext block `c` (R182). -/
def cbcEncrypt (e : Block → Block) (c : Block) : List (List Byte) → List Byte
  | [] => []
  | u :: us =>
    (e ((Block.ofList u).xor c)).toList ++ cbcEncrypt e (e ((Block.ofList u).xor c)) us

/-- DECRYPT.CBC from the previous ciphertext block `c` (R183). -/
def cbcDecrypt (d : Block → Block) (c : Block) : List (List Byte) → List Byte
  | [] => []
  | u :: us => ((d (Block.ofList u)).xor c).toList ++ cbcDecrypt d (Block.ofList u) us

/-- ENCRYPT.CFB from the previous ciphertext block `c` (R184). -/
def cfbEncrypt (e : Block → Block) (c : Block) : List (List Byte) → List Byte
  | [] => []
  | u :: us => xorUnit u (e c) ++ cfbEncrypt e (Block.ofList (xorUnit u (e c))) us

/-- DECRYPT.CFB from the previous ciphertext block `c` (R185). -/
def cfbDecrypt (e : Block → Block) (c : Block) : List (List Byte) → List Byte
  | [] => []
  | u :: us => xorUnit u (e c) ++ cfbDecrypt e (Block.ofList u) us

/-- OFB in either direction from the previous keystream block `k` (R186, R187). -/
def ofbMessage (e : Block → Block) (k : Block) : List (List Byte) → List Byte
  | [] => []
  | u :: us => xorUnit u (e k) ++ ofbMessage e (e k) us

/-- CTR in either direction, from unit `i` on (R188, R189). -/
def ctrMessage (e : Block → Block) (iv : Block) (i : Nat) : List (List Byte) → List Byte
  | [] => []
  | u :: us => xorUnit u (e (ctrBlock iv i)) ++ ctrMessage e iv (i + 1) us

/-- The frame of ENCRYPT for round keys `k` (R180, R182, R184, R186, R188). -/
def encryptWith (k : Nat → Block) (mode : Mode) (iv : Block) (m : List Byte) : List Byte :=
  match mode with
  | .ecb => ecbMessage (cipher k) (unitsOf (pad m))
  | .cbc => iv.toList ++ cbcEncrypt (cipher k) iv (unitsOf (pad m))
  | .cfb => iv.toList ++ cfbEncrypt (cipher k) iv (unitsOf m)
  | .ofb => iv.toList ++ ofbMessage (cipher k) iv (unitsOf m)
  | .ctr => iv.toList ++ ctrMessage (cipher k) iv 0 (unitsOf m)

/-- The result of DECRYPT for round keys `k` (R181, R183, R185, R187, R189); the IV is the frame's
prefix. -/
def decryptWith (k : Nat → Block) (mode : Mode) (f : List Byte) : List Byte :=
  let iv := Block.ofList f
  let c := f.drop 16
  match mode with
  | .ecb => unpad (ecbMessage (invCipher k) (unitsOf f))
  | .cbc => unpad (cbcDecrypt (invCipher k) iv (unitsOf c))
  | .cfb => cfbDecrypt (cipher k) iv (unitsOf c)
  | .ofb => ofbMessage (cipher k) iv (unitsOf c)
  | .ctr => ctrMessage (cipher k) iv 0 (unitsOf c)

/-- `EncryptBytes(key, mode, iv, m)` (R191). -/
def encryptBytes (key : Key) (mode : Mode) (iv : Block) (m : List Byte) : List Byte :=
  encryptWith (roundKey (keyExpansion key)) mode iv m

/-- `DecryptBytes(key, mode, f)` (R191). -/
def decryptBytes (key : Key) (mode : Mode) (f : List Byte) : List Byte :=
  decryptWith (roundKey (keyExpansion key)) mode f

/-- The legal lengths of a frame given to DECRYPT (R79). -/
def legalFrame (mode : Mode) (n : Nat) : Bool :=
  match mode with
  | .ecb => decide (16 ≤ n) && n % 16 == 0
  | .cbc => decide (32 ≤ n) && n % 16 == 0
  | .cfb => decide (17 ≤ n)
  | .ofb => decide (17 ≤ n)
  | .ctr => decide (17 ≤ n)

end Sys2Proof.Machine
end

