-- ==== Sys2Proof/Safety.lean ====
section
/-! DEFINITION. What a well-behaved state of the core is: the invariants the spec states or implies for
every reachable state, bundled as `State.Inv`, and the frames the statements are written in. -/

namespace Sys2Proof.Machine

/-! ### Invariants -/

/-- The walk of a direction (R30). -/
def walkOf (dir : Bool) : List (Nat × BitVec 4) := if dir then inverseWalk else forwardWalk

/-- How many micro-operations of the walk come before the one SEQ names. -/
def Seq.walkIndex (q : Seq) : Nat := (walkOf q.dir).idxOf (q.round.val, q.uop)

/-- Every listed offset of a buffer lies below `n` (R34, R50). -/
def Memory.Below (n : Nat) (m : Memory) : Prop := ∀ c ∈ m, c.1 < n

/-- Both buffers have the one canonical form. -/
structure State.BuffersCanonical (s : State) : Prop where
  ibuf : Memory.wf s.ibuf = true
  obuf : Memory.wf s.obuf = true

/-- STATUS, ERR, SEQ and RST agree (R24, R25, R28, R330). -/
structure State.StatusAgrees (s : State) : Prop where
  /-- BUSY exactly when SEQ.phase is not IDLE (R28). -/
  busyIffPhase : s.run = .busy ↔ s.seq.phase ≠ .idle
  /-- ERROR exactly when ERR shows an error (R24, R25). -/
  errorIffErr : s.run = .error ↔ s.err ≠ .none
  /-- While RST is asserted the core is in IDLE (R330). -/
  resetIsIdle : s.rst = true → s.run = .idle

/-- RK against CFG.key (R27), also while KEXP fills it (R105, R106). -/
structure State.KeyScheduleOk (s : State) : Prop where
  /-- While an instance exists RK is the expansion of its key (R27). -/
  expanded : s.cfg.valid = true → s.rk = keyExpansion s.cfg.key
  /-- No instance exists while its key is being expanded (R212). -/
  kexpNoInstance : s.seq.phase = .kexp → s.cfg.valid = false
  /-- Phase KEXP runs KEXP (R28, R78). -/
  kexpUop : s.seq.phase = .kexp → s.seq.uop = 8
  /-- The word index is 8 to 59 (R29, R31). -/
  kexpUnit : s.seq.phase = .kexp → 8 ≤ s.seq.unit.toNat ∧ s.seq.unit.toNat ≤ 59
  /-- The words below the index are done (R106). -/
  kexpWords : s.seq.phase = .kexp →
    ∀ j < s.seq.unit.toNat, rkWord s.rk j = rkWord (keyExpansion s.cfg.key) j
  /-- Phase ROUND never runs KEXP (R30). -/
  roundUop : s.seq.phase = .round → s.seq.uop ≠ 8

/-- SEQ stands on the walk of its direction in phase ROUND (R30, R31). -/
def State.OnWalk (s : State) : Prop :=
  s.seq.phase = .round → (s.seq.round.val, s.seq.uop) ∈ walkOf s.seq.dir

/-- The phases an ENCRYPT or DECRYPT passes after its checks (R29). -/
def Phase.ofCipher : Phase → Bool
  | .idle => false
  | .check => false
  | .kexp => false
  | .head => true
  | .load => true
  | .round => true
  | .store => true
  | .tail => true

/-- A command in progress: legal operands after CHECK (R29, R304), unit bounds (R31), and as many trace
records as its position says (R260). -/
structure State.CommandOk (s : State) : Prop where
  /-- Nothing is emitted before HEAD (R304), nor by INIT (R256). -/
  beforeHead : s.seq.phase = .check ∨ s.seq.phase = .kexp ∨ s.seq.phase = .head → s.trace = []
  /-- No result length before the end (R210, R195). -/
  lenOutZero : s.seq.phase ≠ .idle → s.lenOut = 0
  /-- After CHECK the command is an ENCRYPT or DECRYPT whose checks pass. -/
  legal : s.seq.phase.ofCipher = true →
    (s.cmd = 2 ∨ s.cmd = 3) ∧ s.currentOp.check s = none
  load : s.seq.phase = .load →
    s.seq.unit.toNat < s.currentOp.units s.stage.lenIn.toNat
      ∧ s.trace.length = 18 + 59 * s.seq.unit.toNat
  round : s.seq.phase = .round →
    s.seq.unit.toNat < s.currentOp.units s.stage.lenIn.toNat
      ∧ s.seq.dir = s.currentOp.inverse
      ∧ s.dp.ulen.toNat = s.currentOp.ulen s.stage.lenIn.toNat s.seq.unit.toNat
      ∧ s.trace.length = 20 + 59 * s.seq.unit.toNat + s.seq.walkIndex
  store : s.seq.phase = .store →
    s.seq.unit.toNat < s.currentOp.units s.stage.lenIn.toNat
      ∧ s.dp.ulen.toNat = s.currentOp.ulen s.stage.lenIn.toNat s.seq.unit.toNat
      ∧ s.trace.length = 76 + 59 * s.seq.unit.toNat
  tail : s.seq.phase = .tail →
    s.trace.length = 18 + 59 * s.currentOp.units s.stage.lenIn.toNat

/-- What fits where (R34, R50, R259), and the errors the core can show (R75, R301). -/
structure State.Fits (s : State) : Prop where
  ibuf : Memory.Below s.bufcap.bytes s.ibuf
  obuf : Memory.Below (s.bufcap.bytes + 32) s.obuf
  lenOut : s.lenOut.toNat ≤ s.bufcap.bytes + 16
  trace : s.trace.length ≤ 21 + 59 * (s.bufcap.bytes / 16)
  /-- In ECB, CFG.iv is `00^16` (R21). -/
  ecbIv : s.cfg.mode = .ecb → s.cfg.iv = Block.zero
  /-- ERR never shows the host wrapper's two errors (R75). -/
  err : s.err = .none ∨ ∃ e : ErrorCode, e ≠ .base64 ∧ e ≠ .utf8 ∧ s.err = e.reg

/-- The invariant of the core. -/
structure State.Inv (s : State) : Prop where
  buffers : s.BuffersCanonical
  status : s.StatusAgrees
  keySchedule : s.KeyScheduleOk
  onWalk : s.OnWalk
  command : s.CommandOk
  fits : s.Fits

/-! ### Frames -/

/-- What ENCRYPT and DECRYPT leave alone (R36, R214): everything but the datapath registers, OBUF,
LEN_OUT, TRACE, STATUS.STATE, ERR, SEQ and the latched command word. -/
structure KeptByCipher (s t : State) : Prop where
  cfg : t.cfg = s.cfg
  stage : t.stage = s.stage
  rk : t.rk = s.rk
  hzd : t.hzd = s.hzd
  trcSel : t.trcSel = s.trcSel
  ibuf : t.ibuf = s.ibuf
  bufcap : t.bufcap = s.bufcap
  inputs : t.inputs = s.inputs
  rdata : t.rdata = s.rdata
  rst : t.rst = s.rst
  rnd : t.rnd = s.rnd
  free : t.free = s.free

/-- What INIT leaves alone (R36): everything but CFG, RK, TRACE, LEN_OUT, STATUS.STATE, ERR, SEQ, the
latched command word and, where it draws an IV, the entropy port. -/
structure KeptByInit (s t : State) : Prop where
  stage : t.stage = s.stage
  dp : t.dp = s.dp
  hzd : t.hzd = s.hzd
  trcSel : t.trcSel = s.trcSel
  ibuf : t.ibuf = s.ibuf
  obuf : t.obuf = s.obuf
  bufcap : t.bufcap = s.bufcap
  inputs : t.inputs = s.inputs
  rdata : t.rdata = s.rdata
  rst : t.rst = s.rst

/-- The state a command that raises `e` leaves (R307): the state before the CMD write but for
STATUS.STATE, ERR, LEN_OUT, TRACE, SEQ.phase and the latched command word. -/
def State.refusedWith (e : ErrorCode) (d : BusWord) (s : State) : State :=
  { s with
    run := .error
    err := e.reg
    lenOut := 0
    trace := []
    seq := { s.seq with phase := .idle }
    cmd := d }

/-- What a round micro-operation changes (R120): S, TRACE, and SEQ's phase, round and uop. -/
structure KeptByRoundOp (s t : State) : Prop where
  rest : t = { s with dp := { s.dp with s := t.dp.s }, trace := t.trace, seq := t.seq }
  unit : t.seq.unit = s.seq.unit
  dir : t.seq.dir = s.seq.dir

/-- The one record a round micro-operation of code `c` emits (R120, R250): round and unit as they were
before it, S as it is after it. -/
def EmitsRound (c : BitVec 4) (s t : State) : Prop :=
  t.trace = s.trace ++
    [{ kind := .round, round := BitVec.ofNat 4 s.seq.round.val, uop := c, unit := s.seq.unit,
       data := t.dp.s }]

/-- The block a round micro-operation of code `c` makes of `b`, `k` being the round key ARK meets (R124 to
R130). -/
def uopBlock (k : Block) (c : BitVec 4) (b : Block) : Block :=
  match c.toNat with
  | 1 => addRoundKey k b
  | 2 => subBytes b
  | 3 => shiftRows b
  | 4 => mixColumns b
  | 5 => invSubBytes b
  | 6 => invShiftRows b
  | 7 => invMixColumns b
  | _ => b

/-- A cipher command that has ended without an error (R218). -/
structure State.Finished (s : State) : Prop where
  run : s.run = .done
  err : s.err = .none
  phase : s.seq.phase = .idle

/-- The reset state of R40: the values the rule gives, and nothing about those it leaves open. -/
structure State.IsReset (s : State) : Prop where
  run : s.run = .idle
  valid : s.cfg.valid = false
  ivgen : s.cfg.ivgen = false
  hzd : s.hzd = false
  err : s.err = ⟨0, 0⟩
  mode : s.stage.mode = 0
  keylen : s.stage.keylen = 0
  ivlen : s.stage.ivlen = 0
  lenIn : s.stage.lenIn = 0
  lenOut : s.lenOut = 0
  trace : s.trace = []
  trcSel : s.trcSel = 0
  seq : s.seq = ⟨.idle, 0, 0, 0, false⟩

/-! ### Conditions -/

/-- ENCRYPT executes (R213, R214). -/
structure State.EncryptLegal (s : State) : Prop where
  hasInstance : s.cfg.valid = true
  fits : s.stage.lenIn.toNat ≤ s.bufcap.bytes
  long : 16 ≤ s.stage.lenIn.toNat

/-- DECRYPT executes in mode `m` (R79, R213, R216). -/
structure State.DecryptLegal (m : Mode) (s : State) : Prop where
  hasInstance : s.cfg.valid = true
  fits : s.stage.lenIn.toNat ≤ s.bufcap.bytes
  frame : legalFrame m s.stage.lenIn.toNat = true

/-- The row of an operation (R82). -/
def Op.instr (o : Op) : Instr := if o.enc then Instr.encryptOf o.mode else Instr.decryptOf o.mode

/-- The operation executes: its checks pass (R213, R214, R216). -/
def Op.Legal (o : Op) (s : State) : Prop :=
  if o.enc then s.EncryptLegal else s.DecryptLegal o.mode

/-- INIT executes (R77, R212): KEYLEN = 32, MODE in 0..4, IVLEN 0 or 16 unless the mode is ECB. -/
structure State.InitLegal (s : State) : Prop where
  keylen : s.stage.keylen = 32
  mode : s.stage.mode.toNat ≤ 4
  ivlen : s.stage.mode = 0 ∨ s.stage.ivlen = 0 ∨ s.stage.ivlen = 16

/-- The message bytes `IBUF[0..LEN_IN)` a command is given. -/
def State.message (s : State) : List Byte := Memory.readBytes 0 s.stage.lenIn.toNat s.ibuf

/-- The result `OBUF[0..LEN_OUT)` a command leaves (R34). -/
def State.result (s : State) : List Byte := Memory.readBytes 0 s.lenOut.toNat s.obuf

end Sys2Proof.Machine
end

