-- ==== Sys2Proof/Certificates/Slice0/Obligations.lean ====
section
/-! DEFINITION. The statements for the provers. Each docstring names the rules of spec/ it formalises. -/

open Sys2Proof Sys2Proof.Machine

/-! ### Encoding -/

/-- R74, R78: the command words and micro-operation codes, written out from the tables of
30_encoding.md, and one reserved code of each kind. -/
def Obligations.DecodeOfWrittenWords : Prop :=
  (∀ m, decodeCmd m 0x00000001#32 = .ok .init
    ∧ decodeCmd m 0x00000002#32 = .ok (Instr.encryptOf m)
    ∧ decodeCmd m 0x00000003#32 = .ok (Instr.decryptOf m)
    ∧ decodeCmd m 0x00000004#32 = .error .reservedOp
    ∧ decodeCmd m 0x0000000A#32 = .error .highBits)
  ∧ decodeUop 0b0001#4 = .ok .ark ∧ decodeUop 0b0010#4 = .ok .sb ∧ decodeUop 0b0011#4 = .ok .sr
  ∧ decodeUop 0b0100#4 = .ok .mc ∧ decodeUop 0b0101#4 = .ok .isb ∧ decodeUop 0b0110#4 = .ok .isr
  ∧ decodeUop 0b0111#4 = .ok .imc ∧ decodeUop 0b1000#4 = .ok .kexp
  ∧ decodeUop 0b0000#4 = .error .reservedUop ∧ decodeUop 0b1001#4 = .error .reservedUop

/-- R74, R78, R82, R83: over all 2^32 command words and all micro-operation codes, in every mode, a code
decodes to an instruction exactly when it is that instruction's code and the instruction can stand in that
mode. Every other code is refused. -/
def Obligations.DecodeExactlyEncoded : Prop :=
  ∀ (m : Mode) (c : Code) (i : Instr),
    decode m c = .ok i ↔ encode i = c ∧ i.wellFormedIn m = true

/-- R85: an access is encoded as a well-formed bus line that decodes to it, and a well-formed bus line
decodes to an access whose line it is. -/
def Obligations.BusLineRoundTrip : Prop :=
  (∀ i l, Input.encode i = some l → l.wellFormed = true ∧ l.decode = some i)
  ∧ ∀ l : BusLine, l.wellFormed = true → ∃ i, l.decode = some i ∧ Input.encode i = some l

/-! ### Steps -/

/-- R210: a write of `d` to CMD while STATE is not BUSY and RST is low. Where the host waits for the end,
one step is `exec` of the instruction `d` decodes to (R62, R220); where it does not (its next input is
`seq`, which is taken off too), the step is the prologue alone, and whatever input comes next comes before
CHECK. The two step sizes are the model's choice (log 1, log 2). -/
def Obligations.StepRunsDecodedCommand : Prop :=
  ∀ (s : State) (d : BusWord) (rest : List Input),
    s.inputs = .write cmdAddr d :: rest → s.rst = false → s.run ≠ .busy →
    (∀ i, hostWaits rest = true → decodeCmd s.cfg.mode d = .ok i →
        step s = exec i { s with inputs := rest })
    ∧ (hostWaits rest = false →
        step s = .next (State.prologue d { s with inputs := rest.tail }))

/-- R28, R78: while BUSY in phase KEXP or ROUND, a step is `exec` of the micro-operation SEQ.uop names,
with no input waiting or with `seq` taken off (log 2). -/
def Obligations.StepRunsDecodedMicroOp : Prop :=
  ∀ (s : State) (i : Instr),
    s.run = .busy → s.seq.phase = .kexp ∨ s.seq.phase = .round → decodeUop s.seq.uop = .ok i →
    (s.inputs = [] → step s = exec i s)
    ∧ ∀ rest, s.inputs = .seq :: rest → step s = exec i { s with inputs := rest }

/-- R211: a reserved command word is accepted and raises ProtocolError(BADCMD); everything but STATE, ERR,
LEN_OUT, TRACE, SEQ.phase and the latched word stays, the instance included. ERR then reads 0x14. -/
def Obligations.BadCommandWordRaises : Prop :=
  (∀ (s : State) (d : BusWord) (rest : List Input),
    s.inputs = .write cmdAddr d :: rest → s.rst = false → s.run ≠ .busy → hostWaits rest = true →
    ((d.extractLsb' 0 3).toNat ∈ [0, 4, 5, 6, 7] ∨ d.extractLsb' 3 29 ≠ 0) →
    step s = .next (State.refusedWith .badcmd d { s with inputs := rest }))
  ∧ (ErrorCode.badcmd.reg).word = 0x14

/-- R333: with no input waiting and STATE not BUSY, the core waits. -/
def Obligations.RestingCoreWaits : Prop :=
  ∀ s : State, s.inputs = [] → s.run ≠ .busy → step s = .next s

/-- R330, R331: asserting RST gives the reset state of R40 in any state; while RST is asserted writes are
dropped and reads change only the returned value; releasing it changes nothing else. -/
def Obligations.ResetInputEntersReset : Prop :=
  (∀ (s : State) (rest : List Input), s.inputs = .rst true :: rest →
    ∃ t, step s = .next t ∧ t.IsReset ∧ t.rst = true ∧ t.inputs = rest)
  ∧ (∀ (s : State) (rest : List Input), s.rst = true →
    (∀ a d, s.inputs = .write a d :: rest → step s = .next { s with inputs := rest })
    ∧ (∀ a, s.inputs = .read a :: rest →
        ∃ v n, step s = .next { s with inputs := rest, rdata := v, free := n })
    ∧ (s.inputs = .rst false :: rest → step s = .next { s with inputs := rest, rst := false }))

/-- R40: the values after reset that the table gives. -/
def Obligations.ResetValues : Prop := State.reset.IsReset

/-- The invariant holds after reset. The values R40 leaves open are the model's (log 4, log 5). -/
def Obligations.ResetMeetsInvariant : Prop := State.reset.Inv

/-! ### Bus -/

/-- R72, R75, R301: the fields of STATUS and ERR; unlisted bits read 0; the ERR value of every error. -/
def Obligations.StatusAndErrFields : Prop :=
  ∀ s : State,
    (s.statusWord.extractLsb' 0 2 = s.run.code ∧ s.statusWord.getLsbD 2 = s.cfg.valid
      ∧ s.statusWord.getLsbD 3 = s.cfg.ivgen ∧ s.statusWord.getLsbD 4 = s.hzd
      ∧ s.statusWord.extractLsb' 5 27 = 0)
    ∧ (s.err.word.extractLsb' 0 3 = s.err.kind ∧ s.err.word.getLsbD 3 = false
      ∧ s.err.word.extractLsb' 4 4 = s.err.sub ∧ s.err.word.extractLsb' 8 24 = 0)
    ∧ [RunState.idle, .busy, .done, .error].map RunState.code = [0, 1, 2, 3]
    ∧ ([.keylen, .mode, .ivlen, .short, .empty, .noiv, .align, .base64, .utf8, .badcmd, .nocfg,
        .capacity] : List ErrorCode).map (fun e => e.reg.word)
      = [0x11, 0x21, 0x31, 0x12, 0x22, 0x32, 0x42, 0x52, 0x13, 0x14, 0x24, 0x34]
    ∧ ErrReg.none.word = 0

/-- R72, R73, R33, R55: what a read of each mapped location returns while STATE is not BUSY; the windows
RK and IV_CFG while an instance exists. A word is at word address (byte offset)/4. R243: the eight words of
a trace record, field by field, and the kind codes. -/
def Obligations.ReadValues : Prop :=
  (∀ r : TraceRecord,
    (r.word 0).extractLsb' 0 8 = r.kind.code ∧ (r.word 0).extractLsb' 8 4 = r.round
    ∧ (r.word 0).extractLsb' 12 4 = r.uop ∧ (r.word 0).extractLsb' 16 8 = r.n
    ∧ (r.word 0).extractLsb' 24 8 = r.m ∧ r.word 1 = r.unit ∧ r.word 2 = r.aux ∧ r.word 3 = 0
    ∧ ∀ k < 16, (r.word (4 + k / 4)).extractLsb' (8 * (k % 4)) 8 = r.data.get k)
  ∧ ([.input, .key, .pad, .mode, .unitStart, .unitPre, .round, .unitDone, .aggregate, .unpad, .final]
      : List TraceKind).map TraceKind.code = [1, 2, 3, 4, 5, 6, 7, 8, 9, 10, 11]
  ∧ ∀ (s : State) (a : WordAddr) (rest : List Input),
    s.inputs = .read a :: rest → s.rst = false → s.run ≠ .busy →
    ∃ t, step s = .next t ∧
      (a.toNat = 0 → t.rdata = 0)
      ∧ (a.toNat = 1 → t.rdata = s.statusWord)
      ∧ (a.toNat = 2 → t.rdata = s.err.word)
      ∧ (a.toNat = 3 → t.rdata = s.stage.mode.setWidth 32)
      ∧ (a.toNat = 4 → t.rdata = s.stage.keylen.setWidth 32)
      ∧ (a.toNat = 5 → t.rdata = s.stage.ivlen.setWidth 32)
      ∧ (a.toNat = 6 → t.rdata = s.stage.lenIn)
      ∧ (a.toNat = 7 → t.rdata = s.lenOut)
      ∧ (a.toNat = 8 → t.rdata = BitVec.ofNat 32 s.trace.length)
      ∧ (a.toNat = 9 → t.rdata = s.trcSel)
      ∧ (∀ j < 8, a.toNat = 0x40 / 4 + j →
          ∀ k < 4, t.rdata.extractLsb' (8 * k) 8 = s.stage.keyIn.toList.getD (4 * j + k) 0)
      ∧ (∀ j < 4, a.toNat = 0x60 / 4 + j →
          ∀ k < 4, t.rdata.extractLsb' (8 * k) 8 = s.stage.ivIn.get (4 * j + k))
      ∧ (∀ j < 4, a.toNat = 0x70 / 4 + j → s.cfg.valid = true →
          ∀ k < 4, t.rdata.extractLsb' (8 * k) 8 = s.cfg.iv.get (4 * j + k))
      ∧ (∀ j < 8, a.toNat = 0x80 / 4 + j → ∀ r, s.trace.length < 2 ^ 32 →
          s.trace[s.trcSel.toNat]? = some r → t.rdata = r.word j)
      ∧ (∀ j < 8, a.toNat = 0x80 / 4 + j → s.trace.length ≤ s.trcSel.toNat → t.rdata = 0)
      ∧ (∀ j < 60, a.toNat = 0x100 / 4 + j → s.cfg.valid = true →
          ∀ k < 4, t.rdata.extractLsb' (8 * k) 8 = (rkWord s.rk j).get k)
      ∧ (∀ j < s.bufcap.bytes / 4, a.toNat = 0x10000 / 4 + j →
          ∀ k < 4, t.rdata.extractLsb' (8 * k) 8 = Memory.read (4 * j + k) s.ibuf)
      ∧ (∀ j < (s.bufcap.bytes + 32) / 4, a.toNat = 0x20000 / 4 + j →
          ∀ k < 4, t.rdata.extractLsb' (8 * k) 8 = Memory.read (4 * j + k) s.obuf)
      ∧ ((0x28 / 4 ≤ a.toNat ∧ a.toNat < 0x40 / 4 ∨ 0xA0 / 4 ≤ a.toNat ∧ a.toNat < 0x100 / 4
            ∨ 0x1F0 / 4 ≤ a.toNat ∧ a.toNat < 0x10000 / 4
            ∨ (0x10000 + s.bufcap.bytes) / 4 ≤ a.toNat ∧ a.toNat < 0x20000 / 4
            ∨ (0x20000 + s.bufcap.bytes + 32) / 4 ≤ a.toNat) → t.rdata = 0)

/-- R60: a read changes nothing but what it returns (and the count of free values used, log 8), whatever
the state, and a second read returns the same, wherever the first has a defined value: RST is not
asserted, STATUS alone is read while BUSY (R62), the RK and IV_CFG windows while an instance exists. -/
def Obligations.ReadsHaveNoEffect : Prop :=
  (∀ (s : State) (a : WordAddr) (rest : List Input), s.inputs = .read a :: rest →
    ∃ v n, step s = .next { s with inputs := rest, rdata := v, free := n })
  ∧ ∀ (s t u : State) (a : WordAddr) (rest : List Input),
      s.inputs = .read a :: .read a :: rest → s.rst = false → (s.run = .busy → a = statusAddr) →
      (0x70 / 4 ≤ a.toNat ∧ a.toNat < 0x80 / 4 ∨ 0x100 / 4 ≤ a.toNat ∧ a.toNat < 0x1F0 / 4 →
        s.cfg.valid = true) →
      step s = .next t → step t = .next u → u.rdata = t.rdata

/-- R60, R73, R77, R55: what a write to each location other than CMD does while STATE is not BUSY: a
writable location takes the value (narrow registers its low bits, windows their four bytes), a read-only
or reserved one ignores it. -/
def Obligations.WritesStore : Prop :=
  ∀ (s : State) (a : WordAddr) (d : BusWord) (rest : List Input),
    s.inputs = .write a d :: rest → s.rst = false → s.run ≠ .busy → Memory.wf s.ibuf = true →
    (a.toNat = 3 → step s = .next { s with
        inputs := rest, stage := { s.stage with mode := d.extractLsb' 0 3 } })
    ∧ (a.toNat = 4 → step s = .next { s with
        inputs := rest, stage := { s.stage with keylen := d.extractLsb' 0 8 } })
    ∧ (a.toNat = 5 → step s = .next { s with
        inputs := rest, stage := { s.stage with ivlen := d.extractLsb' 0 8 } })
    ∧ (a.toNat = 6 → step s = .next { s with
        inputs := rest, stage := { s.stage with lenIn := d } })
    ∧ (a.toNat = 9 → step s = .next { s with inputs := rest, trcSel := d })
    ∧ (∀ j < 8, a.toNat = 0x40 / 4 + j → ∃ key : Key,
        step s = .next { s with inputs := rest, stage := { s.stage with keyIn := key } }
        ∧ ∀ n < 32, key.toList.getD n 0 =
            if n / 4 = j then d.extractLsb' (8 * (n % 4)) 8 else s.stage.keyIn.toList.getD n 0)
    ∧ (∀ j < 4, a.toNat = 0x60 / 4 + j → ∃ iv : Block,
        step s = .next { s with inputs := rest, stage := { s.stage with ivIn := iv } }
        ∧ ∀ n < 16, iv.get n =
            if n / 4 = j then d.extractLsb' (8 * (n % 4)) 8 else s.stage.ivIn.get n)
    ∧ (∀ j < s.bufcap.bytes / 4, a.toNat = 0x10000 / 4 + j → ∃ m : Memory,
        step s = .next { s with inputs := rest, ibuf := m }
        ∧ ∀ n, Memory.read n m =
            if n / 4 = j then d.extractLsb' (8 * (n % 4)) 8 else Memory.read n s.ibuf)
    ∧ (a.toNat ∈ [1, 2, 7, 8] ∨ 0x28 / 4 ≤ a.toNat ∧ a.toNat < 0x40 / 4
        ∨ 0x70 / 4 ≤ a.toNat ∧ a.toNat < 0x10000 / 4
        ∨ (0x10000 + s.bufcap.bytes) / 4 ≤ a.toNat → step s = .next { s with inputs := rest })

/-- R341: accesses while BUSY. A write to any offset is dropped and sets HZD; a read of anything returns
some value and does nothing else, and STATUS reads as it is; HZD is set by nothing else and cleared by
nothing but RST. -/
def Obligations.BusyAccesses : Prop :=
  (∀ (s : State) (rest : List Input), s.run = .busy → s.rst = false →
    (∀ a d, s.inputs = .write a d :: rest → step s = .next { s with inputs := rest, hzd := true })
    ∧ (∀ a, s.inputs = .read a :: rest →
        ∃ v n, step s = .next { s with inputs := rest, rdata := v, free := n })
    ∧ (s.inputs = .read statusAddr :: rest →
        step s = .next { s with inputs := rest, rdata := s.statusWord }))
  ∧ ∀ s t : State, step s = .next t →
      (s.hzd = true → (∀ rest, s.inputs ≠ .rst true :: rest) → t.hzd = true)
      ∧ (s.hzd = false → t.hzd = true → s.run = .busy ∧ ∃ a d rest, s.inputs = .write a d :: rest)

/-! ### GF(2^8), the S-boxes, the round functions -/

/-- R121: the field of bytes, and the six multipliers of the datapath. -/
def Obligations.FieldOfBytes : Prop :=
  (∀ a, xtime a = if a.getLsbD 7 then (a <<< 1) ^^^ 0x1B else a <<< 1)
  ∧ (∀ a b, gmul a b = (List.range 8).foldl
      (fun acc k => acc ^^^ if b.getLsbD k then xtime^[k] a else 0) 0)
  ∧ (∀ a b, gmul a b = gmul b a) ∧ (∀ a b c, gmul (gmul a b) c = gmul a (gmul b c))
  ∧ (∀ a b c, gmul a (b ^^^ c) = gmul a b ^^^ gmul a c)
  ∧ (∀ a, gmul 1 a = a) ∧ (∀ a, gmul 0 a = 0)
  ∧ (∀ a, a ≠ 0 → ∃ b, gmul a b = 1 ∧ ∀ c, gmul a c = 1 → c = b)
  ∧ (∀ a, gmul 0x02 a = mul02 a ∧ gmul 0x03 a = mul03 a ∧ gmul 0x09 a = mul09 a
      ∧ gmul 0x0B a = mul0B a ∧ gmul 0x0D a = mul0D a ∧ gmul 0x0E a = mul0E a)
  ∧ xtime 0x57 = 0xAE ∧ xtime 0xAE = 0x47 ∧ xtime 0x80 = 0x1B
  ∧ gmul 0x57 0x13 = 0xFE ∧ gmul 0x57 0x83 = 0xC1

/-- R122, R123: the table of SBOX is the inverse in the field followed by the affine map, and ISBOX[y] is
the unique x with SBOX[x] = y. -/
def Obligations.SboxTablesAreFormulas : Prop :=
  (∀ x : Byte, gmul x (ginv x) = if x = 0 then 0 else 1) ∧ ginv 0 = 0
  ∧ (∀ x, sbox x = sboxFormula x)
  ∧ (∀ y, sbox (isbox y) = y) ∧ (∀ x, isbox (sbox x) = x) ∧ (∀ x, sbox x ≠ x)
  ∧ sbox 0x00 = 0x63 ∧ sbox 0x53 = 0xED ∧ sbox 0xFF = 0x16
  ∧ isbox 0x63 = 0x00 ∧ isbox 0x00 = 0x52 ∧ isbox 0xED = 0x53

/-- R124, R120, R250: ARK XORs the round key SEQ.round names onto S, byte for byte, emits its record, and
changes nothing else but SEQ. -/
def Obligations.ArkResult : Prop :=
  (∀ s : State, ∃ t, exec .ark s = .next t
    ∧ (∀ n < 16, t.dp.s.get n
        = s.dp.s.get n ^^^ (rkWord s.rk (4 * s.seq.round.val + n / 4)).get (n % 4))
    ∧ EmitsRound 1 s t ∧ KeptByRoundOp s t)
  ∧ (∀ k b, addRoundKey k (addRoundKey k b) = b ∧ addRoundKey Block.zero b = b)
  ∧ addRoundKey (Block.bytes128 0x4D795365637265744B65793132333435)
      (Block.bytes128 0x48656C6C6F20576F726C642121212121)
      = Block.bytes128 0x051C3F090C52321B39091D1013121514

/-- R125, R128, R120, R250: SB and ISB replace each byte of S by its table entry, emit their record, and
change nothing else but SEQ; ISB undoes SB; SBOX has no fixed point. -/
def Obligations.SubBytesResults : Prop :=
  (∀ s : State, ∃ t, exec .sb s = .next t
    ∧ (∀ n < 16, t.dp.s.get n = sbox (s.dp.s.get n)) ∧ EmitsRound 2 s t ∧ KeptByRoundOp s t)
  ∧ (∀ s : State, ∃ t, exec .isb s = .next t
    ∧ (∀ n < 16, t.dp.s.get n = isbox (s.dp.s.get n)) ∧ EmitsRound 5 s t ∧ KeptByRoundOp s t)
  ∧ subBytes Block.zero = (Block.tabulate fun _ => 0x63)
  ∧ invSubBytes Block.zero = (Block.tabulate fun _ => 0x52)
  ∧ (∀ x, sbox x ≠ x)
  ∧ subBytes (Block.bytes128 0x051C3F090C52321B39091D1013121514)
      = Block.bytes128 0x6B9C7501FE0023AF1201A4CA7DC959FA
  ∧ ∀ b, invSubBytes (subBytes b) = b ∧ subBytes (invSubBytes b) = b

/-- R126, R129, R120, R250: SR and ISR permute the bytes of S by the lists P and Q, emit their record, and
change nothing else but SEQ; each undoes the other; a block of equal bytes is unchanged. -/
def Obligations.ShiftRowsResults : Prop :=
  (∀ s : State, ∃ t, exec .sr s = .next t
    ∧ (∀ n < 16, t.dp.s.get n
        = s.dp.s.get ([0, 5, 10, 15, 4, 9, 14, 3, 8, 13, 2, 7, 12, 1, 6, 11].getD n 0))
    ∧ (∀ r < 4, ∀ c < 4, t.dp.s.get (r + 4 * c) = s.dp.s.get (r + 4 * ((c + r) % 4)))
    ∧ EmitsRound 3 s t ∧ KeptByRoundOp s t)
  ∧ (∀ s : State, ∃ t, exec .isr s = .next t
    ∧ (∀ n < 16, t.dp.s.get n
        = s.dp.s.get ([0, 13, 10, 7, 4, 1, 14, 11, 8, 5, 2, 15, 12, 9, 6, 3].getD n 0))
    ∧ (∀ r < 4, ∀ c < 4, t.dp.s.get (r + 4 * ((c + r) % 4)) = s.dp.s.get (r + 4 * c))
    ∧ EmitsRound 6 s t ∧ KeptByRoundOp s t)
  ∧ (∀ x, shiftRows (Block.tabulate fun _ => x) = Block.tabulate fun _ => x)
  ∧ shiftRows (Block.bytes128 0x000102030405060708090A0B0C0D0E0F)
      = Block.bytes128 0x00050A0F04090E03080D02070C01060B
  ∧ invShiftRows (Block.bytes128 0x000102030405060708090A0B0C0D0E0F)
      = Block.bytes128 0x000D0A0704010E0B0805020F0C090603
  ∧ ∀ b, invShiftRows (shiftRows b) = b ∧ shiftRows (invShiftRows b) = b

/-- R127, R130, R120, R250: MC and IMC multiply each column of S by their matrix over GF(2^8), emit their
record, and change nothing else but SEQ; each undoes the other; a column of equal bytes is unchanged;
neither is executed in round 14. -/
def Obligations.MixColumnsResults : Prop :=
  (∀ s : State, ∃ t, exec .mc s = .next t
    ∧ (∀ c < 4, ∀ a, s.dp.s.word c = a → t.dp.s.word c =
        ⟨gmul 2 a.a0 ^^^ gmul 3 a.a1 ^^^ a.a2 ^^^ a.a3,
         a.a0 ^^^ gmul 2 a.a1 ^^^ gmul 3 a.a2 ^^^ a.a3,
         a.a0 ^^^ a.a1 ^^^ gmul 2 a.a2 ^^^ gmul 3 a.a3,
         gmul 3 a.a0 ^^^ a.a1 ^^^ a.a2 ^^^ gmul 2 a.a3⟩)
    ∧ EmitsRound 4 s t ∧ KeptByRoundOp s t)
  ∧ (∀ s : State, ∃ t, exec .imc s = .next t
    ∧ (∀ c < 4, ∀ a, s.dp.s.word c = a → t.dp.s.word c =
        ⟨gmul 0x0E a.a0 ^^^ gmul 0x0B a.a1 ^^^ gmul 0x0D a.a2 ^^^ gmul 0x09 a.a3,
         gmul 0x09 a.a0 ^^^ gmul 0x0E a.a1 ^^^ gmul 0x0B a.a2 ^^^ gmul 0x0D a.a3,
         gmul 0x0D a.a0 ^^^ gmul 0x09 a.a1 ^^^ gmul 0x0E a.a2 ^^^ gmul 0x0B a.a3,
         gmul 0x0B a.a0 ^^^ gmul 0x0D a.a1 ^^^ gmul 0x09 a.a2 ^^^ gmul 0x0E a.a3⟩)
    ∧ EmitsRound 7 s t ∧ KeptByRoundOp s t)
  ∧ (∀ x, mixColumn ⟨x, x, x, x⟩ = ⟨x, x, x, x⟩ ∧ invMixColumn ⟨x, x, x, x⟩ = ⟨x, x, x, x⟩)
  ∧ (∀ b, invMixColumns (mixColumns b) = b ∧ mixColumns (invMixColumns b) = b)
  ∧ (∀ p ∈ walkOf false ++ walkOf true, p.2 = 4 ∨ p.2 = 7 → p.1 ≠ 14)
  ∧ mixColumn ⟨0x6B, 0x00, 0xA4, 0xFA⟩ = ⟨0x88, 0x66, 0x2D, 0xF6⟩
  ∧ mixColumn ⟨0xDB, 0x13, 0x53, 0x45⟩ = ⟨0x8E, 0x4D, 0xA1, 0xBC⟩
  ∧ mixColumn ⟨0xF2, 0x0A, 0x22, 0x5C⟩ = ⟨0x9F, 0xDC, 0x58, 0x9D⟩

/-- R131: the inverse and commutation laws of the round functions, and linearity of MC and IMC. -/
def Obligations.RoundFunctionLaws : Prop :=
  ∀ a b k : Block,
    invSubBytes (subBytes b) = b ∧ subBytes (invSubBytes b) = b
    ∧ invShiftRows (shiftRows b) = b ∧ shiftRows (invShiftRows b) = b
    ∧ invMixColumns (mixColumns b) = b ∧ mixColumns (invMixColumns b) = b
    ∧ addRoundKey k (addRoundKey k b) = b
    ∧ subBytes (shiftRows b) = shiftRows (subBytes b)
    ∧ invSubBytes (invShiftRows b) = invShiftRows (invSubBytes b)
    ∧ mixColumns (a.xor b) = (mixColumns a).xor (mixColumns b)
    ∧ invMixColumns (a.xor b) = (invMixColumns a).xor (invMixColumns b)

/-! ### Key schedule -/

/-- R101 to R104, R52: RotWord, SubWord, Rcon, and KeyExpansion's words: the key's bytes, then the
recurrence for words 8 to 59; round keys 0 and 1 are the key. -/
def Obligations.KeyExpansionRecurrence : Prop :=
  (∀ a0 a1 a2 a3 : Byte, rotWord ⟨a0, a1, a2, a3⟩ = ⟨a1, a2, a3, a0⟩
    ∧ subWord ⟨a0, a1, a2, a3⟩ = ⟨sbox a0, sbox a1, sbox a2, sbox a3⟩)
  ∧ [1, 2, 3, 4, 5, 6, 7].map rcon
      = ([0x01, 0x02, 0x04, 0x08, 0x10, 0x20, 0x40] : List Byte).map (fun x => ⟨x, 0, 0, 0⟩)
  ∧ ∀ (key : Key) (w : Nat → Word), (∀ i, w i = rkWord (keyExpansion key) i) →
      (∀ i < 8, ∀ k < 4, (w i).get k = key.toList.getD (4 * i + k) 0)
      ∧ (∀ i, 8 ≤ i → i < 60 → w i = (w (i - 8)).xor
          (if i % 8 = 0 then (subWord (rotWord (w (i - 1)))).xor (rcon (i / 8))
           else if i % 8 = 4 then subWord (w (i - 1))
           else w (i - 1)))
      ∧ (∀ r < 15, ∀ c < 4, (roundKey (keyExpansion key) r).word c = w (4 * r + c))
      ∧ (roundKey (keyExpansion key) 0).toList ++ (roundKey (keyExpansion key) 1).toList = key.toList

/-- R105: KEXP for i = SEQ.unit in 8..59 writes RK[i] from RK[i-1] and RK[i-8], leaves every other word,
advances SEQ.unit and emits nothing; after i = 59 the INIT command completes (R106, R212, R218); nothing
else changes. -/
def Obligations.KexpResult : Prop :=
  ∀ (s : State) (i : Nat), s.seq.unit.toNat = i → 8 ≤ i → i ≤ 59 →
    ∃ t, exec .kexp s = .next t
      ∧ rkWord t.rk i = (rkWord s.rk (i - 8)).xor
          (if i % 8 = 0 then (subWord (rotWord (rkWord s.rk (i - 1)))).xor (rcon (i / 8))
           else if i % 8 = 4 then subWord (rkWord s.rk (i - 1))
           else rkWord s.rk (i - 1))
      ∧ (∀ j < 60, j ≠ i → rkWord t.rk j = rkWord s.rk j)
      ∧ t.seq.unit.toNat = i + 1 ∧ t.seq.round = s.seq.round ∧ t.seq.dir = s.seq.dir
      ∧ (i < 59 → t = { s with rk := t.rk, seq := { s.seq with unit := t.seq.unit } })
      ∧ (i = 59 → t.seq.phase = .idle ∧ t = { s with
          rk := t.rk, seq := t.seq, run := .done, cfg := { s.cfg with valid := true } })

/-- R31, R105: outside 8..59 KEXP has no operand, and SEQ.unit is never there; the model stops by name.
The stop is the model's choice (log 17). -/
def Obligations.KexpOutsideStops : Prop :=
  ∀ s : State, s.seq.unit.toNat < 8 ∨ 59 < s.seq.unit.toNat → exec .kexp s = .fault .kexpIndex

/-! ### The block cipher -/

/-- R156: the two ciphers undo each other for every round-key file. -/
def Obligations.CiphersUndoEachOther : Prop :=
  ∀ (rk : Vector Word 60) (b : Block),
    invCipher (roundKey rk) (cipher (roundKey rk) b) = b
    ∧ cipher (roundKey rk) (invCipher (roundKey rk) b) = b

/-- R30, R153, R157: each micro-operation of phase ROUND moves SEQ to the next pair of the walk of its
direction, and the last one to phase STORE; and how often each stands in the two walks. Codes: 1 ARK, 2 SB,
3 SR, 4 MC, 5 ISB, 6 ISR, 7 IMC. -/
def Obligations.WalkOrder : Prop :=
  (walkOf false).length = 56 ∧ (walkOf true).length = 56
  ∧ ([1, 2, 3, 4, 5, 6, 7] : List (BitVec 4)).map
      (fun c => ((walkOf false).filter (fun p => p.2 == c)).length) = [15, 14, 14, 13, 0, 0, 0]
  ∧ ([1, 2, 3, 4, 5, 6, 7] : List (BitVec 4)).map
      (fun c => ((walkOf true).filter (fun p => p.2 == c)).length) = [15, 0, 0, 0, 14, 14, 13]
  ∧ ∀ (s : State) (j : Nat), j < 56 → s.seq.phase = .round →
    (walkOf s.seq.dir)[j]? = some (s.seq.round.val, s.seq.uop) →
    ∃ i t, decodeUop s.seq.uop = .ok i ∧ exec i s = .next t
      ∧ t.seq.dir = s.seq.dir ∧ t.seq.unit = s.seq.unit
      ∧ (j < 55 → t.seq.phase = .round
          ∧ (walkOf s.seq.dir)[j + 1]? = some (t.seq.round.val, t.seq.uop))
      ∧ (j = 55 → t.seq.phase = .store)

/-- R158: from the start of a walk, 56 steps of the sequencer leave Cipher or InvCipher of S in S, 56
records of the walk in TRACE, and SEQ in phase STORE of the same unit; nothing else changes. -/
def Obligations.WalkComputesCipher : Prop :=
  ∀ s : State, s.seq.phase = .round → s.seq.uop = 1 → s.seq.round = (if s.seq.dir then 14 else 0) →
    ∃ t, State.seqSteps 56 s = .next t
      ∧ t.dp = { s.dp with
          s := if s.seq.dir then invCipher (roundKey s.rk) s.dp.s else cipher (roundKey s.rk) s.dp.s }
      ∧ t.seq.phase = .store ∧ t.seq.unit = s.seq.unit ∧ t.seq.dir = s.seq.dir
      ∧ (∃ l, t.trace = s.trace ++ l
          ∧ l.map (fun r => (r.round.toNat, r.uop)) = walkOf s.seq.dir
          ∧ ∀ r ∈ l, r.kind = .round ∧ r.unit = s.seq.unit)
      ∧ t = { s with dp := t.dp, seq := t.seq, trace := t.trace }

/-- R194, R245 to R248: the HEAD step emits the eighteen header records, stores the IV prefix for ENCRYPT
in a mode other than ECB, loads FB with the IV in force in a mode other than ECB, and goes to LOAD of unit
0; nothing else changes. -/
def Obligations.HeadResult : Prop :=
  ∀ (s : State) (o : Op), s.seq.phase = .head → o = s.currentOp → Memory.wf s.obuf = true →
    ∃ t, s.seqStep = .next t
      ∧ (o.mode = .ecb → t.dp.fb = s.dp.fb ∧ t.obuf = s.obuf)
      ∧ (o.mode ≠ .ecb → o.enc = true → t.dp.fb = s.cfg.iv
          ∧ ∀ a, Memory.read a t.obuf = if a < 16 then s.cfg.iv.get a else Memory.read a s.obuf)
      ∧ (o.mode ≠ .ecb → o.enc = false → t.obuf = s.obuf
          ∧ ∀ k < 16, t.dp.fb.get k = Memory.read k s.ibuf)
      ∧ t.trace = s.trace
          ++ [{ kind := .input, n := if o.enc then 0 else 1, aux := s.stage.lenIn }]
          ++ (List.range 15).map (fun r =>
              { kind := .key, round := BitVec.ofNat 4 r, data := roundKey s.rk r })
          ++ [{ kind := .pad
                n := if o.mode = .ecb ∨ o.mode = .cbc then 1 else 0
                m := if o.enc = true ∧ (o.mode = .ecb ∨ o.mode = .cbc)
                  then BitVec.ofNat 8 (padCount s.stage.lenIn.toNat) else 0
                aux := BitVec.ofNat 32 (o.total s.stage.lenIn.toNat) },
              { kind := .mode
                n := s.cfg.mode.code.setWidth 8
                m := if o.enc = false ∧ (o.mode = .ecb ∨ o.mode = .cbc) then 1 else 0
                aux := BitVec.ofNat 32 (o.units s.stage.lenIn.toNat)
                data := if o.mode = .ecb then Block.zero else t.dp.fb }]
      ∧ t = { s with
          dp := { s.dp with fb := t.dp.fb }
          obuf := t.obuf
          trace := t.trace
          seq := { s.seq with unit := 0, phase := .load } }

/-- R195, R218, R253 to R255: the TAIL step emits its records, sets LEN_OUT (`obase + L`, or `L` less the
padding found in OBUF) and completes the command; nothing else changes but SEQ.uop (log 13). -/
def Obligations.TailResult : Prop :=
  ∀ (s : State) (o : Op) (n k : Nat) (l : List Byte), s.seq.phase = .tail → o = s.currentOp →
    n = o.total s.stage.lenIn.toNat → l = Memory.readBytes 0 n s.obuf →
    k = (if o.enc = false ∧ (o.mode = .ecb ∨ o.mode = .cbc) then stripCount l else 0) →
    ∃ t, s.seqStep = .next t
      ∧ t.lenOut = BitVec.ofNat 32 (if o.enc then o.obase + n else n - k)
      ∧ t.trace = s.trace
          ++ [{ kind := .aggregate, n := BitVec.ofNat 8 (o.units s.stage.lenIn.toNat)
                aux := BitVec.ofNat 32 n }]
          ++ (if o.enc = false ∧ (o.mode = .ecb ∨ o.mode = .cbc)
              then [{ kind := .unpad, n := BitVec.ofNat 8 k, m := l.getLastD 0
                      aux := BitVec.ofNat 32 (n - k) }] else [])
          ++ [{ kind := .final, n := if o.enc = true ∧ o.mode ≠ .ecb then 1 else 0
                aux := t.lenOut }]
      ∧ t = { s with
          lenOut := t.lenOut
          trace := t.trace
          run := .done
          seq := { s.seq with phase := .idle, uop := t.seq.uop } }

/-- R192, R158: the LOAD step of unit i = SEQ.unit sets ULEN, IB, S, SEQ.dir and the start of the walk,
and emits its two records; nothing else changes. X, the cipher input, is given by mode. -/
def Obligations.LoadResult : Prop :=
  ∀ (s : State) (o : Op) (i n : Nat), s.seq.phase = .load → o = s.currentOp → i = s.seq.unit.toNat →
    n = o.total s.stage.lenIn.toNat → 16 * i < n →
    ∃ t, s.seqStep = .next t
      ∧ t.dp.ulen.toNat = min 16 (n - 16 * i)
      ∧ (∀ k < 16, t.dp.ib.get k = if 16 * i + k < n then o.msg s (16 * i + k) else 0)
      ∧ (o.mode = .ecb → t.dp.s = t.dp.ib)
      ∧ (o.mode = .cbc → t.dp.s = if o.enc then t.dp.ib.xor s.dp.fb else t.dp.ib)
      ∧ (o.mode = .cfb ∨ o.mode = .ofb ∨ o.mode = .ctr → t.dp.s = s.dp.fb)
      ∧ t.seq.dir = (!o.enc && (o.mode == .ecb || o.mode == .cbc))
      ∧ t.seq.round = (if t.seq.dir then 14 else 0) ∧ t.seq.uop = 1 ∧ t.seq.phase = .round
      ∧ t.trace = s.trace ++
          [{ kind := .unitStart, n := t.dp.ulen.setWidth 8, unit := s.seq.unit, data := t.dp.ib },
           { kind := .unitPre, n := if t.seq.dir then 1 else 0, unit := s.seq.unit,
             data := t.dp.s }]
      ∧ t = { s with
          dp := { s.dp with ulen := t.dp.ulen, ib := t.dp.ib, s := t.dp.s }
          trace := t.trace
          seq := { t.seq with unit := s.seq.unit } }

/-- R193: the STORE step sets OB, FB and KS by mode from Y = S, stores the first ULEN bytes of OB at OBUF
offset `obase + 16i`, and goes to the next unit or to TAIL; S, IB and ULEN keep their values. -/
def Obligations.StoreResult : Prop :=
  ∀ (s : State) (o : Op) (i : Nat), s.seq.phase = .store → o = s.currentOp → i = s.seq.unit.toNat →
    s.dp.ulen.toNat ≤ 16 → i + 1 < 2 ^ 32 → Memory.wf s.obuf = true →
    ∃ t, s.seqStep = .next t
      ∧ (o.mode = .ecb → t.dp.ob = s.dp.s ∧ t.dp.fb = s.dp.fb ∧ t.dp.ks = s.dp.ks)
      ∧ (o.mode = .cbc → o.enc = true → t.dp.ob = s.dp.s ∧ t.dp.fb = s.dp.s ∧ t.dp.ks = s.dp.ks)
      ∧ (o.mode = .cbc → o.enc = false →
          t.dp.ob = s.dp.s.xor s.dp.fb ∧ t.dp.fb = s.dp.ib ∧ t.dp.ks = s.dp.ks)
      ∧ (o.mode = .cfb ∨ o.mode = .ofb ∨ o.mode = .ctr → t.dp.ks = s.dp.s
          ∧ ∀ k < 16, t.dp.ob.get k =
              if k < s.dp.ulen.toNat then s.dp.ib.get k ^^^ s.dp.s.get k else 0)
      ∧ (o.mode = .cfb → t.dp.fb = if o.enc then t.dp.ob else s.dp.ib)
      ∧ (o.mode = .ofb → t.dp.fb = s.dp.s)
      ∧ (o.mode = .ctr → t.dp.fb.be128 = (s.dp.fb.be128 + 1) % 2 ^ 128)
      ∧ (∀ a, Memory.read a t.obuf =
          if o.obase + 16 * i ≤ a ∧ a < o.obase + 16 * i + s.dp.ulen.toNat
          then t.dp.ob.get (a - (o.obase + 16 * i)) else Memory.read a s.obuf)
      ∧ t.seq.unit.toNat = i + 1
      ∧ t.seq.phase = (if i + 1 < o.units s.stage.lenIn.toNat then .load else .tail)
      ∧ t.trace = s.trace ++
          [{ kind := .unitDone, n := s.dp.ulen.setWidth 8
             m := BitVec.ofNat 8 ((List.range s.dp.ulen.toNat).filter
               (fun k => t.dp.ob.get k ≠ s.dp.ib.get k)).length
             unit := s.seq.unit, data := t.dp.ob }]
      ∧ t = { s with
          dp := { s.dp with ob := t.dp.ob, fb := t.dp.fb, ks := t.dp.ks }
          obuf := t.obuf
          trace := t.trace
          seq := { s.seq with unit := t.seq.unit, phase := t.seq.phase } }

/-! ### INIT -/

/-- R212, R106, R218, R44: INIT with legal staging registers completes: the key, mode and IV are latched,
RK is the expansion of the key, the instance is valid; an IV is drawn only where the mode needs one and
none was supplied, and then once. What is drawn where the port lists no value is free (log 10). R76: the
mode codes, ECB 0, CBC 1, CFB 2, OFB 3, CTR 4. -/
def Obligations.InitResult : Prop :=
  ([.ecb, .cbc, .cfb, .ofb, .ctr] : List Mode).map Mode.code = [0, 1, 2, 3, 4]
  ∧ ∀ s : State, s.InitLegal →
    ∃ t, exec .init s = .next t ∧ t.Finished ∧ t.lenOut = 0 ∧ t.trace = []
      ∧ t.cfg.valid = true ∧ t.cfg.key = s.stage.keyIn ∧ t.cfg.mode.code = s.stage.mode
      ∧ t.rk = keyExpansion s.stage.keyIn
      ∧ (s.stage.mode = 0 → t.cfg.iv = Block.zero ∧ t.cfg.ivgen = false)
      ∧ (s.stage.mode ≠ 0 → s.stage.ivlen = 16 → t.cfg.iv = s.stage.ivIn ∧ t.cfg.ivgen = false)
      ∧ (s.stage.mode ≠ 0 → s.stage.ivlen = 0 → t.cfg.ivgen = true
          ∧ ∀ b l, s.rnd = b :: l → t.cfg.iv = b ∧ t.rnd = l ∧ t.free = s.free)
      ∧ (s.stage.mode = 0 ∨ s.stage.ivlen = 16 → t.rnd = s.rnd ∧ t.free = s.free)
      ∧ KeptByInit s t

/-- R212, R303, R306: INIT's three checks in their order; the error leaves everything but STATE, ERR,
LEN_OUT, TRACE, SEQ.phase and CFG.valid, which is 0; nothing is drawn. -/
def Obligations.InitErrors : Prop :=
  ∀ (s u : State), u = { s with cfg := { s.cfg with valid := false } } →
    (s.stage.keylen ≠ 32 → exec .init s = .next (State.refusedWith .keylen 1 u))
    ∧ (s.stage.keylen = 32 → 4 < s.stage.mode.toNat →
        exec .init s = .next (State.refusedWith .mode 1 u))
    ∧ (s.stage.keylen = 32 → s.stage.mode.toNat ≤ 4 → s.stage.mode ≠ 0 → s.stage.ivlen ≠ 0 →
        s.stage.ivlen ≠ 16 → exec .init s = .next (State.refusedWith .ivlen 1 u))

/-! ### ENCRYPT and DECRYPT -/

/-- R213, R214, R303, R306: the checks of ENCRYPT in their order, in each of the five modes. -/
def Obligations.EncryptErrors : Prop :=
  ∀ (m : Mode) (s : State),
    (s.cfg.valid = false →
      exec (Instr.encryptOf m) s = .next (State.refusedWith .nocfg 2 s))
    ∧ (s.cfg.valid = true → s.bufcap.bytes < s.stage.lenIn.toNat →
        exec (Instr.encryptOf m) s = .next (State.refusedWith .capacity 2 s))
    ∧ (s.cfg.valid = true → s.stage.lenIn.toNat < 16 →
        exec (Instr.encryptOf m) s = .next (State.refusedWith .short 2 s))

/-- R213, R216, R303, R306: the checks of DECRYPT in their order, in each of the five modes. -/
def Obligations.DecryptErrors : Prop :=
  ∀ (m : Mode) (s : State) (n : Nat), s.stage.lenIn.toNat = n →
    (s.cfg.valid = false →
      exec (Instr.decryptOf m) s = .next (State.refusedWith .nocfg 3 s))
    ∧ (s.cfg.valid = true → s.bufcap.bytes < n →
        exec (Instr.decryptOf m) s = .next (State.refusedWith .capacity 3 s))
    ∧ (s.cfg.valid = true → n = 0 →
        exec (Instr.decryptOf m) s = .next (State.refusedWith .empty 3 s))
    ∧ (s.cfg.valid = true → m ≠ .ecb → 0 < n → n < 17 →
        exec (Instr.decryptOf m) s = .next (State.refusedWith .noiv 3 s))
    ∧ (s.cfg.valid = true → n ≤ s.bufcap.bytes → m = .ecb → n % 16 ≠ 0 →
        exec (Instr.decryptOf m) s = .next (State.refusedWith .align 3 s))
    ∧ (s.cfg.valid = true → n ≤ s.bufcap.bytes → m = .cbc → 17 ≤ n → n % 16 ≠ 0 →
        exec (Instr.decryptOf m) s = .next (State.refusedWith .align 3 s))

/-- R307: a command, be it a reserved word, that ends in ERROR leaves exactly the state before the CMD
write, but for STATE, ERR, LEN_OUT = 0, TRACE empty, and CFG.valid = 0 if it was INIT. The latched command
word is the model's (log 12). -/
def Obligations.ErrorsArePrecise : Prop :=
  ∀ (s t : State) (d : BusWord), s.seq.phase = .idle → s.runCommand d = .next t → t.run = .error →
    t = { (if d = 1 then { s with cfg := { s.cfg with valid := false } } else s) with
      run := .error
      err := t.err
      lenOut := 0
      trace := []
      cmd := d }

/-- R196: the length laws of ENCRYPT and DECRYPT in the five modes; both complete. -/
def Obligations.LengthLaws : Prop :=
  (∀ (m : Mode) (s : State) (n : Nat), s.EncryptLegal → s.stage.lenIn.toNat = n →
    ∃ t, exec (Instr.encryptOf m) s = .next t ∧ t.Finished
      ∧ (m = .ecb → t.lenOut.toNat = n + padCount n)
      ∧ (m = .cbc → t.lenOut.toNat = 16 + n + padCount n)
      ∧ (m = .cfb ∨ m = .ofb ∨ m = .ctr → t.lenOut.toNat = 16 + n))
  ∧ ∀ (m : Mode) (s : State) (n : Nat), s.DecryptLegal m → s.stage.lenIn.toNat = n →
      ∃ t, exec (Instr.decryptOf m) s = .next t ∧ t.Finished
        ∧ (∀ k, m = .ecb → k = stripCount (Memory.readBytes 0 n t.obuf) →
            k ≤ 16 ∧ k ≤ n ∧ t.lenOut.toNat = n - k)
        ∧ (∀ k, m = .cbc → k = stripCount (Memory.readBytes 0 (n - 16) t.obuf) →
            k ≤ 16 ∧ k ≤ n - 16 ∧ t.lenOut.toNat = n - 16 - k)
        ∧ (m = .cfb ∨ m = .ofb ∨ m = .ctr → t.lenOut.toNat = n - 16)

/-- R191, R214, R180, R182, R184, R186, R188: ENCRYPT in CFG.mode completes, and
`OBUF[0..LEN_OUT)` is EncryptBytes(CFG.key, CFG.mode, CFG.iv, IBUF[0..LEN_IN)), for every instance whose RK
is the expansion of its key (R27). -/
def Obligations.EncryptResult : Prop :=
  ∀ (m : Mode) (s : State), s.EncryptLegal → s.cfg.mode = m → s.rk = keyExpansion s.cfg.key →
    Memory.wf s.obuf = true →
    ∃ t, exec (Instr.encryptOf m) s = .next t ∧ t.Finished
      ∧ t.result = encryptBytes s.cfg.key m s.cfg.iv s.message

/-- R191, R216, R181, R183, R185, R187, R189: DECRYPT in CFG.mode completes, and `OBUF[0..LEN_OUT)` is
DecryptBytes(CFG.key, CFG.mode, IBUF[0..LEN_IN)). -/
def Obligations.DecryptResult : Prop :=
  ∀ (m : Mode) (s : State), s.DecryptLegal m → s.cfg.mode = m → s.rk = keyExpansion s.cfg.key →
    Memory.wf s.obuf = true →
    ∃ t, exec (Instr.decryptOf m) s = .next t ∧ t.Finished
      ∧ t.result = decryptBytes s.cfg.key m s.message

/-- R36, R178, R195: what ENCRYPT and DECRYPT leave alone: every register but those R36 lists, IBUF, and
every byte of OBUF outside the stored ones, which are `obase + 16i + k` for the units' bytes and, for
ENCRYPT with an IV, `0..16`: all below `obase + L`. Also where they raise. -/
def Obligations.CipherFrame : Prop :=
  ∀ (o : Op) (s : State), Memory.wf s.obuf = true →
    ∃ t, exec o.instr s = .next t ∧ KeptByCipher s t
      ∧ (∀ a, o.obase + o.total s.stage.lenIn.toNat ≤ a →
          Memory.read a t.obuf = Memory.read a s.obuf)
      ∧ (t.run = .error → t.obuf = s.obuf ∧ t.dp = s.dp)

/-- R36: no instruction writes the staging registers, LEN_IN, TRC_SEL or IBUF; nor HZD, BUFCAP, the
inputs, the read data or RST. (The entropy port and the count of free values, which an INIT that draws an
IV changes, are not among them.) -/
def Obligations.CommandsKeepHostRegisters : Prop :=
  ∀ (i : Instr) (s t : State), exec i s = .next t →
    t.stage = s.stage ∧ t.trcSel = s.trcSel ∧ t.ibuf = s.ibuf ∧ t.hzd = s.hzd
    ∧ t.bufcap = s.bufcap ∧ t.inputs = s.inputs ∧ t.rdata = s.rdata ∧ t.rst = s.rst

/-- R197, R219, R59, R26: a cipher command's outcome depends on CFG, RK, LEN_IN, BUFCAP and IBUF below
LEN_IN alone: nothing else, neither the datapath registers, nor OBUF, nor IBUF past LEN_IN, shows in the
result, the error or the trace. -/
def Obligations.NothingCarriesOver : Prop :=
  ∀ (o : Op) (s u : State), s.cfg = u.cfg → s.rk = u.rk → s.stage.lenIn = u.stage.lenIn →
    s.bufcap = u.bufcap → Memory.readBytes 0 s.stage.lenIn.toNat s.ibuf
      = Memory.readBytes 0 s.stage.lenIn.toNat u.ibuf →
    Memory.wf s.obuf = true → Memory.wf u.obuf = true →
    ∃ t v, exec o.instr s = .next t ∧ exec o.instr u = .next v
      ∧ t.run = v.run ∧ t.err = v.err ∧ t.lenOut = v.lenOut ∧ t.trace = v.trace
      ∧ t.result = v.result

/-- R36, R179: DECRYPT neither reads nor writes CFG.iv. -/
def Obligations.DecryptIgnoresCfgIv : Prop :=
  ∀ (m : Mode) (s : State) (iv : Block),
    ∃ t, exec (Instr.decryptOf m) s = .next t
      ∧ exec (Instr.decryptOf m) { s with cfg := { s.cfg with iv := iv } }
          = .next { t with cfg := { t.cfg with iv := iv } }

/-! ### Laws of the modes -/

/-- R174 to R177: Pad, and Unpad of a padded message; an aligned message is not padded; Unpad removes the
last p bytes exactly where the last byte p is 1 to 16 and the last p bytes all equal it. -/
def Obligations.PaddingLaws : Prop :=
  (∀ m : List Byte, 16 ≤ m.length →
    (m.length % 16 = 0 → pad m = m)
    ∧ (m.length % 16 ≠ 0 → ∃ p : Nat, p = 16 - m.length % 16
        ∧ pad m = m ++ List.replicate p (BitVec.ofNat 8 p) ∧ (pad m).length % 16 = 0
        ∧ stripCount (pad m) = p ∧ unpad (pad m) = m))
  ∧ ∀ (m : List Byte) (x : Byte) (l : List Byte), m = l ++ [x] → 16 ≤ m.length →
      (∀ l', 1 ≤ x.toNat → x.toNat ≤ 16 → m = l' ++ List.replicate x.toNat x → unpad m = l')
      ∧ ((¬ ∃ l', 1 ≤ x.toNat ∧ x.toNat ≤ 16 ∧ m = l' ++ List.replicate x.toNat x) → unpad m = m)

/-- R190: counter block i is the IV read as a 128-bit big-endian integer plus i, modulo 2^128; STORE's
increment (R193) steps from one to the next; block 0 is the IV. -/
def Obligations.CounterBlocks : Prop :=
  ∀ (iv : Block) (i : Nat),
    (ctrBlock iv i).be128 = (iv.be128 + i) % 2 ^ 128 ∧ ctrBlock iv 0 = iv
    ∧ counterNext (ctrBlock iv i) = ctrBlock iv (i + 1)
    ∧ ctrBlock (Block.tabulate fun _ => 0xFF) 1 = Block.zero
    ∧ (ctrBlock (Block.ofList (List.replicate 15 0 ++ [0xFF])) 1).toList
        = List.replicate 14 0 ++ [0x01, 0x00]
    ∧ (ctrBlock (Block.ofList (List.ofFn fun k : Fin 16 => BitVec.ofNat 8 k.val)) 1).get 15 = 0x10

/-- R198: DecryptBytes undoes EncryptBytes for every key, mode, IV and message of at least 16 bytes, but
for an aligned message in a padded mode, which loses the valid padding pattern it happens to end in. -/
def Obligations.RoundTripLaw : Prop :=
  ∀ (key : Key) (mode : Mode) (iv : Block) (m : List Byte), 16 ≤ m.length →
    decryptBytes key mode (encryptBytes key mode iv m) =
      if mode.padded = true ∧ m.length % 16 = 0 then m.take (m.length - stripCount m) else m

/-- R199: in OFB and CTR, ENCRYPT applied twice to a message gives it back, and DECRYPT on the ciphertext
part is the computation ENCRYPT does; in CFB it is not. -/
def Obligations.StreamInvolutions : Prop :=
  (∀ (k : Nat → Block) (iv : Block) (m : List Byte),
    decryptWith k .ofb (iv.toList ++ m) = (encryptWith k .ofb iv m).drop 16
    ∧ decryptWith k .ctr (iv.toList ++ m) = (encryptWith k .ctr iv m).drop 16
    ∧ (encryptWith k .ofb iv ((encryptWith k .ofb iv m).drop 16)).drop 16 = m
    ∧ (encryptWith k .ctr iv ((encryptWith k .ctr iv m).drop 16)).drop 16 = m)
  ∧ ∃ (key : Key) (iv : Block) (m : List Byte),
      decryptBytes key .cfb (iv.toList ++ m) ≠ (encryptBytes key .cfb iv m).drop 16

/-! ### The trace -/

/-- R256: the kinds of the records of every command, in order. -/
def Obligations.TraceOrder : Prop :=
  (∀ (o : Op) (s : State), o.Legal s →
    ∃ t, exec o.instr s = .next t ∧
      t.trace.map TraceRecord.kind =
        [.input] ++ List.replicate 15 .key ++ [.pad, .mode]
          ++ (List.replicate (o.units s.stage.lenIn.toNat)
                ([.unitStart, .unitPre] ++ List.replicate 56 .round ++ [.unitDone])).flatten
          ++ [.aggregate] ++ (if o.inverse then [.unpad] else []) ++ [.final])
  ∧ (∀ s t : State, exec .init s = .next t → t.trace = [])
  ∧ ∀ (s t : State) (d : BusWord), s.runCommand d = .next t → t.run = .error → t.trace = []

/-- R244 to R255, R260: every record of a command that completes: where it stands and every field it has.
`ib i`, `ob i` are IB and OB of unit `i`, `st i j` is S before micro-operation `j` of its walk. The input
units are the message bytes, the cipher input X = `st i 0` is as R192 gives it by mode, each micro-operation
makes the next S of the one before, the last S is the cipher's output, the output units are the bytes that
stand in OBUF, and the padding count is that of OBUF. -/
def Obligations.TraceQuotesWhatHappened : Prop :=
  ∀ (o : Op) (s : State) (n total : Nat) (iv : Block), o.Legal s → Memory.wf s.obuf = true →
    n = o.units s.stage.lenIn.toNat → total = o.total s.stage.lenIn.toNat → iv = o.iv s →
    ∃ (t : State) (ib ob : Nat → Block) (st : Nat → Nat → Block) (final : TraceRecord),
      exec o.instr s = .next t
      ∧ t.trace[0]? = some
          { kind := .input, n := if o.enc then 0 else 1, aux := s.stage.lenIn }
      ∧ (∀ r < 15, t.trace[1 + r]? = some
          { kind := .key, round := BitVec.ofNat 4 r, data := roundKey s.rk r })
      ∧ t.trace[16]? = some
          { kind := .pad
            n := if o.mode = .ecb ∨ o.mode = .cbc then 1 else 0
            m := if o.enc = true ∧ (o.mode = .ecb ∨ o.mode = .cbc)
              then BitVec.ofNat 8 (padCount s.stage.lenIn.toNat) else 0
            aux := BitVec.ofNat 32 total }
      ∧ t.trace[17]? = some
          { kind := .mode
            n := o.mode.code.setWidth 8
            m := if o.inverse then 1 else 0
            aux := BitVec.ofNat 32 n
            data := if o.mode = .ecb then Block.zero else iv }
      ∧ (∀ i < n, ∀ ulen, ulen = o.ulen s.stage.lenIn.toNat i →
          t.trace[18 + 59 * i]? = some
            { kind := .unitStart, n := BitVec.ofNat 8 ulen, unit := BitVec.ofNat 32 i, data := ib i }
          ∧ (∀ k < 16, (ib i).get k = if k < ulen then o.msg s (16 * i + k) else 0)
          ∧ t.trace[19 + 59 * i]? = some
            { kind := .unitPre, n := if o.inverse then 1 else 0, unit := BitVec.ofNat 32 i
              data := st i 0 }
          ∧ (o.mode = .ecb → st i 0 = ib i)
          ∧ (o.mode = .cbc → st i 0 =
              if o.enc then (ib i).xor (if i = 0 then iv else ob (i - 1)) else ib i)
          ∧ (o.mode = .cfb → st i 0 =
              if i = 0 then iv else if o.enc then ob (i - 1) else ib (i - 1))
          ∧ (o.mode = .ofb → st i 0 = if i = 0 then iv else st (i - 1) 56)
          ∧ (o.mode = .ctr → st i 0 = ctrBlock iv i)
          ∧ (∀ j r c, (walkOf o.inverse)[j]? = some (r, c) →
              t.trace[20 + 59 * i + j]? = some
                { kind := .round, round := BitVec.ofNat 4 r, uop := c, unit := BitVec.ofNat 32 i
                  data := st i (j + 1) }
              ∧ st i (j + 1) = uopBlock (roundKey s.rk r) c (st i j))
          ∧ (st i 56 = if o.inverse then invCipher (roundKey s.rk) (st i 0)
              else cipher (roundKey s.rk) (st i 0))
          ∧ t.trace[76 + 59 * i]? = some
            { kind := .unitDone
              n := BitVec.ofNat 8 ulen
              m := BitVec.ofNat 8 ((List.range ulen).filter
                (fun k => (ob i).get k ≠ (ib i).get k)).length
              unit := BitVec.ofNat 32 i
              data := ob i }
          ∧ ∀ k < 16, (ob i).get k =
              if k < ulen then Memory.read (o.obase + 16 * i + k) t.obuf else 0)
      ∧ t.trace[18 + 59 * n]? = some
          { kind := .aggregate, n := BitVec.ofNat 8 n, aux := BitVec.ofNat 32 total }
      ∧ final = { kind := .final
                  n := if o.enc = true ∧ o.mode ≠ .ecb then 1 else 0
                  aux := t.lenOut }
      ∧ (o.inverse = false → t.trace[19 + 59 * n]? = some final ∧ t.trace.length = 20 + 59 * n)
      ∧ (o.inverse = true → ∀ l k, l = Memory.readBytes 0 total t.obuf → k = stripCount l →
          t.trace[19 + 59 * n]? = some
            { kind := .unpad, n := BitVec.ofNat 8 k, m := l.getLastD 0
              aux := BitVec.ofNat 32 (total - k) }
          ∧ t.trace[20 + 59 * n]? = some final ∧ t.trace.length = 21 + 59 * n)

/-- R259: TRC_CNT after each command. -/
def Obligations.TraceLengths : Prop :=
  (∀ (o : Op) (s : State), o.Legal s →
    ∃ t, exec o.instr s = .next t
      ∧ t.trcCnt.toNat = (if o.inverse then 21 else 20) + 59 * o.units s.stage.lenIn.toNat)
  ∧ (∀ s t : State, exec .init s = .next t → t.trcCnt = 0)
  ∧ (∀ (s t : State) (d : BusWord), s.runCommand d = .next t →
      (t.run = .error → t.trcCnt = 0)
      ∧ t.trcCnt.toNat ≤ 21 + 59 * (s.bufcap.bytes / 16))

/-! ### The whole machine -/

/-- R220, R350, R29: the sequencer's small steps refine the big step: after the prologue of a command word,
at most 53 of them for INIT, and at most `3 + 58 * (BUFCAP div 16)` for any other word, end the command in
exactly the state of the big step. -/
def Obligations.SmallStepsRefineCommands : Prop :=
  ∀ (s : State) (d : BusWord) (k : Nat),
    (if d = 1 then 53 else 3 + 58 * (s.bufcap.bytes / 16)) ≤ k →
    State.seqSteps k (s.prologue d) = s.runCommand d

/-- R21, R212: CFG changes only where INIT acts (its whole command, its CHECK, a KEXP step) or RST is
asserted. -/
def Obligations.OnlyInitWritesCfg : Prop :=
  ∀ s t : State, step s = .next t → t.cfg ≠ s.cfg →
    (∃ rest, s.inputs = .rst true :: rest)
    ∨ (∃ rest, s.inputs = .write cmdAddr 1 :: rest ∧ s.run ≠ .busy)
    ∨ (s.run = .busy ∧ ((s.seq.phase = .check ∧ s.cmd = 1) ∨ s.seq.uop = 8))

/-- R240, R241: a step only appends to TRACE, but at RST, where TRACE is empty afterwards, and at an
accepted CMD write. There the prologue clears it: TRACE is empty where the prologue is the whole step, and
nothing of the old TRACE is left where the whole command runs, since any other TRACE before the write gives
the same next state. -/
def Obligations.TraceOnlyGrows : Prop :=
  ∀ s t : State, step s = .next t →
    ((∃ l, t.trace = s.trace ++ l) ∨ (∃ rest, s.inputs = .rst true :: rest)
      ∨ ∃ d rest, s.inputs = .write cmdAddr d :: rest ∧ s.run ≠ .busy ∧ s.rst = false)
    ∧ (∀ rest, s.inputs = .rst true :: rest → t.trace = [])
    ∧ ∀ d rest, s.inputs = .write cmdAddr d :: rest → s.run ≠ .busy → s.rst = false →
        (hostWaits rest = false → t.trace = []) ∧ ∀ l, step { s with trace := l } = .next t

/-- Every step keeps the canonical form of both buffers. The form is the model's own (log 5). -/
def Obligations.StepKeepsBuffersCanonical : Prop :=
  ∀ s t : State, s.BuffersCanonical → step s = .next t → t.BuffersCanonical

/-- R27, R106: every step keeps RK = KeyExpansion(CFG.key) while an instance exists, together with the
partial expansion KEXP builds on. -/
def Obligations.StepKeepsKeySchedule : Prop :=
  ∀ s t : State, s.KeyScheduleOk → step s = .next t → t.KeyScheduleOk

/-- R28, R30, R31, R34, R75, R259, R304: every step keeps the whole invariant of the core. -/
def Obligations.StepKeepsInvariant : Prop :=
  ∀ s t : State, s.Inv → step s = .next t → t.Inv

/-- R304, R308: from every state that meets the invariant every step gives a next state: no sequence of
accesses makes the core stop. -/
def Obligations.CoreNeverStops : Prop :=
  ∀ s : State, s.Inv → ∃ t, step s = .next t

/-! ### The text layer -/

/-- R272, R274, R280: B64Decode and B64Encode are inverse wherever B64Decode is defined; the encoded
length. -/
def Obligations.Base64RoundTrip : Prop :=
  (∀ b : List Byte, b64Decode (b64Encode b) = some b
    ∧ (b64Encode b).length = 4 * ((b.length + 2) / 3))
  ∧ ∀ (t : List Char) (b : List Byte), b64Decode t = some b → b64Encode b = t

/-- R271, R273: Utf8Decode undoes Utf8Encode, and is defined only on encodings. -/
def Obligations.Utf8RoundTrip : Prop :=
  (∀ t : List Char, utf8Decode (utf8Encode t) = some t)
  ∧ ∀ (b : List Byte) (t : List Char), utf8Decode b = some t → utf8Encode t = b
end

