-- ==== Sys2Proof/Laws/State.lean ====
section
/-! SUPPORT. What each named update of the state does to each field, one lemma per field, so that no later
proof unfolds a record update. -/

namespace Sys2Proof.Machine

/-! ### `State.returns` -/

@[simp] theorem State.returns_cfg (d : BusWord) (s : State) : (s.returns d).cfg = s.cfg := rfl

@[simp] theorem State.returns_stage (d : BusWord) (s : State) :
    (s.returns d).stage = s.stage := rfl

@[simp] theorem State.returns_lenOut (d : BusWord) (s : State) :
    (s.returns d).lenOut = s.lenOut := rfl

@[simp] theorem State.returns_run (d : BusWord) (s : State) : (s.returns d).run = s.run := rfl

@[simp] theorem State.returns_hzd (d : BusWord) (s : State) : (s.returns d).hzd = s.hzd := rfl

@[simp] theorem State.returns_err (d : BusWord) (s : State) : (s.returns d).err = s.err := rfl

@[simp] theorem State.returns_dp (d : BusWord) (s : State) : (s.returns d).dp = s.dp := rfl

@[simp] theorem State.returns_rk (d : BusWord) (s : State) : (s.returns d).rk = s.rk := rfl

@[simp] theorem State.returns_seq (d : BusWord) (s : State) : (s.returns d).seq = s.seq := rfl

@[simp] theorem State.returns_trace (d : BusWord) (s : State) :
    (s.returns d).trace = s.trace := rfl

@[simp] theorem State.returns_trcSel (d : BusWord) (s : State) :
    (s.returns d).trcSel = s.trcSel := rfl

@[simp] theorem State.returns_ibuf (d : BusWord) (s : State) :
    (s.returns d).ibuf = s.ibuf := rfl

@[simp] theorem State.returns_obuf (d : BusWord) (s : State) :
    (s.returns d).obuf = s.obuf := rfl

@[simp] theorem State.returns_cmd (d : BusWord) (s : State) : (s.returns d).cmd = s.cmd := rfl

@[simp] theorem State.returns_bufcap (d : BusWord) (s : State) :
    (s.returns d).bufcap = s.bufcap := rfl

@[simp] theorem State.returns_inputs (d : BusWord) (s : State) :
    (s.returns d).inputs = s.inputs := rfl

@[simp] theorem State.returns_rdata (d : BusWord) (s : State) : (s.returns d).rdata = d := rfl

@[simp] theorem State.returns_rst (d : BusWord) (s : State) : (s.returns d).rst = s.rst := rfl

@[simp] theorem State.returns_rnd (d : BusWord) (s : State) : (s.returns d).rnd = s.rnd := rfl

@[simp] theorem State.returns_free (d : BusWord) (s : State) :
    (s.returns d).free = s.free := rfl

/-! ### `State.returnsAny` -/

@[simp] theorem State.returnsAny_cfg (s : State) : (s.returnsAny).cfg = s.cfg := rfl

@[simp] theorem State.returnsAny_stage (s : State) : (s.returnsAny).stage = s.stage := rfl

@[simp] theorem State.returnsAny_lenOut (s : State) : (s.returnsAny).lenOut = s.lenOut := rfl

@[simp] theorem State.returnsAny_run (s : State) : (s.returnsAny).run = s.run := rfl

@[simp] theorem State.returnsAny_hzd (s : State) : (s.returnsAny).hzd = s.hzd := rfl

@[simp] theorem State.returnsAny_err (s : State) : (s.returnsAny).err = s.err := rfl

@[simp] theorem State.returnsAny_dp (s : State) : (s.returnsAny).dp = s.dp := rfl

@[simp] theorem State.returnsAny_rk (s : State) : (s.returnsAny).rk = s.rk := rfl

@[simp] theorem State.returnsAny_seq (s : State) : (s.returnsAny).seq = s.seq := rfl

@[simp] theorem State.returnsAny_trace (s : State) : (s.returnsAny).trace = s.trace := rfl

@[simp] theorem State.returnsAny_trcSel (s : State) : (s.returnsAny).trcSel = s.trcSel := rfl

@[simp] theorem State.returnsAny_ibuf (s : State) : (s.returnsAny).ibuf = s.ibuf := rfl

@[simp] theorem State.returnsAny_obuf (s : State) : (s.returnsAny).obuf = s.obuf := rfl

@[simp] theorem State.returnsAny_cmd (s : State) : (s.returnsAny).cmd = s.cmd := rfl

@[simp] theorem State.returnsAny_bufcap (s : State) : (s.returnsAny).bufcap = s.bufcap := rfl

@[simp] theorem State.returnsAny_inputs (s : State) : (s.returnsAny).inputs = s.inputs := rfl

@[simp] theorem State.returnsAny_rdata (s : State) :
    (s.returnsAny).rdata = Config.freeWord s.free := rfl

@[simp] theorem State.returnsAny_rst (s : State) : (s.returnsAny).rst = s.rst := rfl

@[simp] theorem State.returnsAny_rnd (s : State) : (s.returnsAny).rnd = s.rnd := rfl

@[simp] theorem State.returnsAny_free (s : State) : (s.returnsAny).free = s.free + 1 := rfl

/-! ### `State.emit` -/

@[simp] theorem State.emit_cfg (r : TraceRecord) (s : State) : (s.emit r).cfg = s.cfg := rfl

@[simp] theorem State.emit_stage (r : TraceRecord) (s : State) :
    (s.emit r).stage = s.stage := rfl

@[simp] theorem State.emit_lenOut (r : TraceRecord) (s : State) :
    (s.emit r).lenOut = s.lenOut := rfl

@[simp] theorem State.emit_run (r : TraceRecord) (s : State) : (s.emit r).run = s.run := rfl

@[simp] theorem State.emit_hzd (r : TraceRecord) (s : State) : (s.emit r).hzd = s.hzd := rfl

@[simp] theorem State.emit_err (r : TraceRecord) (s : State) : (s.emit r).err = s.err := rfl

@[simp] theorem State.emit_dp (r : TraceRecord) (s : State) : (s.emit r).dp = s.dp := rfl

@[simp] theorem State.emit_rk (r : TraceRecord) (s : State) : (s.emit r).rk = s.rk := rfl

@[simp] theorem State.emit_seq (r : TraceRecord) (s : State) : (s.emit r).seq = s.seq := rfl

@[simp] theorem State.emit_trace (r : TraceRecord) (s : State) :
    (s.emit r).trace = s.trace ++ [r] := rfl

@[simp] theorem State.emit_trcSel (r : TraceRecord) (s : State) :
    (s.emit r).trcSel = s.trcSel := rfl

@[simp] theorem State.emit_ibuf (r : TraceRecord) (s : State) : (s.emit r).ibuf = s.ibuf := rfl

@[simp] theorem State.emit_obuf (r : TraceRecord) (s : State) : (s.emit r).obuf = s.obuf := rfl

@[simp] theorem State.emit_cmd (r : TraceRecord) (s : State) : (s.emit r).cmd = s.cmd := rfl

@[simp] theorem State.emit_bufcap (r : TraceRecord) (s : State) :
    (s.emit r).bufcap = s.bufcap := rfl

@[simp] theorem State.emit_inputs (r : TraceRecord) (s : State) :
    (s.emit r).inputs = s.inputs := rfl

@[simp] theorem State.emit_rdata (r : TraceRecord) (s : State) :
    (s.emit r).rdata = s.rdata := rfl

@[simp] theorem State.emit_rst (r : TraceRecord) (s : State) : (s.emit r).rst = s.rst := rfl

@[simp] theorem State.emit_rnd (r : TraceRecord) (s : State) : (s.emit r).rnd = s.rnd := rfl

@[simp] theorem State.emit_free (r : TraceRecord) (s : State) : (s.emit r).free = s.free := rfl

/-! ### `State.prologue` -/

@[simp] theorem State.prologue_cfg (d : BusWord) (s : State) :
    (s.prologue d).cfg = s.cfg := rfl

@[simp] theorem State.prologue_stage (d : BusWord) (s : State) :
    (s.prologue d).stage = s.stage := rfl

@[simp] theorem State.prologue_lenOut (d : BusWord) (s : State) : (s.prologue d).lenOut = 0 := rfl

@[simp] theorem State.prologue_run (d : BusWord) (s : State) :
    (s.prologue d).run = .busy := rfl

@[simp] theorem State.prologue_hzd (d : BusWord) (s : State) :
    (s.prologue d).hzd = s.hzd := rfl

@[simp] theorem State.prologue_err (d : BusWord) (s : State) :
    (s.prologue d).err = .none := rfl

@[simp] theorem State.prologue_dp (d : BusWord) (s : State) : (s.prologue d).dp = s.dp := rfl

@[simp] theorem State.prologue_rk (d : BusWord) (s : State) : (s.prologue d).rk = s.rk := rfl

@[simp] theorem State.prologue_seq (d : BusWord) (s : State) :
    (s.prologue d).seq = { s.seq with phase := .check } := rfl

@[simp] theorem State.prologue_trace (d : BusWord) (s : State) : (s.prologue d).trace = [] := rfl

@[simp] theorem State.prologue_trcSel (d : BusWord) (s : State) :
    (s.prologue d).trcSel = s.trcSel := rfl

@[simp] theorem State.prologue_ibuf (d : BusWord) (s : State) :
    (s.prologue d).ibuf = s.ibuf := rfl

@[simp] theorem State.prologue_obuf (d : BusWord) (s : State) :
    (s.prologue d).obuf = s.obuf := rfl

@[simp] theorem State.prologue_cmd (d : BusWord) (s : State) : (s.prologue d).cmd = d := rfl

@[simp] theorem State.prologue_bufcap (d : BusWord) (s : State) :
    (s.prologue d).bufcap = s.bufcap := rfl

@[simp] theorem State.prologue_inputs (d : BusWord) (s : State) :
    (s.prologue d).inputs = s.inputs := rfl

@[simp] theorem State.prologue_rdata (d : BusWord) (s : State) :
    (s.prologue d).rdata = s.rdata := rfl

@[simp] theorem State.prologue_rst (d : BusWord) (s : State) :
    (s.prologue d).rst = s.rst := rfl

@[simp] theorem State.prologue_rnd (d : BusWord) (s : State) :
    (s.prologue d).rnd = s.rnd := rfl

@[simp] theorem State.prologue_free (d : BusWord) (s : State) :
    (s.prologue d).free = s.free := rfl

/-! ### `State.raise` -/

@[simp] theorem State.raise_cfg (e : ErrorCode) (s : State) : (s.raise e).cfg = s.cfg := rfl

@[simp] theorem State.raise_stage (e : ErrorCode) (s : State) :
    (s.raise e).stage = s.stage := rfl

@[simp] theorem State.raise_lenOut (e : ErrorCode) (s : State) :
    (s.raise e).lenOut = s.lenOut := rfl

@[simp] theorem State.raise_run (e : ErrorCode) (s : State) : (s.raise e).run = .error := rfl

@[simp] theorem State.raise_hzd (e : ErrorCode) (s : State) : (s.raise e).hzd = s.hzd := rfl

@[simp] theorem State.raise_err (e : ErrorCode) (s : State) : (s.raise e).err = e.reg := rfl

@[simp] theorem State.raise_dp (e : ErrorCode) (s : State) : (s.raise e).dp = s.dp := rfl

@[simp] theorem State.raise_rk (e : ErrorCode) (s : State) : (s.raise e).rk = s.rk := rfl

@[simp] theorem State.raise_seq (e : ErrorCode) (s : State) :
    (s.raise e).seq = { s.seq with phase := .idle } := rfl

@[simp] theorem State.raise_trace (e : ErrorCode) (s : State) :
    (s.raise e).trace = s.trace := rfl

@[simp] theorem State.raise_trcSel (e : ErrorCode) (s : State) :
    (s.raise e).trcSel = s.trcSel := rfl

@[simp] theorem State.raise_ibuf (e : ErrorCode) (s : State) : (s.raise e).ibuf = s.ibuf := rfl

@[simp] theorem State.raise_obuf (e : ErrorCode) (s : State) : (s.raise e).obuf = s.obuf := rfl

@[simp] theorem State.raise_cmd (e : ErrorCode) (s : State) : (s.raise e).cmd = s.cmd := rfl

@[simp] theorem State.raise_bufcap (e : ErrorCode) (s : State) :
    (s.raise e).bufcap = s.bufcap := rfl

@[simp] theorem State.raise_inputs (e : ErrorCode) (s : State) :
    (s.raise e).inputs = s.inputs := rfl

@[simp] theorem State.raise_rdata (e : ErrorCode) (s : State) :
    (s.raise e).rdata = s.rdata := rfl

@[simp] theorem State.raise_rst (e : ErrorCode) (s : State) : (s.raise e).rst = s.rst := rfl

@[simp] theorem State.raise_rnd (e : ErrorCode) (s : State) : (s.raise e).rnd = s.rnd := rfl

@[simp] theorem State.raise_free (e : ErrorCode) (s : State) : (s.raise e).free = s.free := rfl

/-! ### `State.complete` -/

@[simp] theorem State.complete_cfg (s : State) : (s.complete).cfg = s.cfg := rfl

@[simp] theorem State.complete_stage (s : State) : (s.complete).stage = s.stage := rfl

@[simp] theorem State.complete_lenOut (s : State) : (s.complete).lenOut = s.lenOut := rfl

@[simp] theorem State.complete_run (s : State) : (s.complete).run = .done := rfl

@[simp] theorem State.complete_hzd (s : State) : (s.complete).hzd = s.hzd := rfl

@[simp] theorem State.complete_err (s : State) : (s.complete).err = s.err := rfl

@[simp] theorem State.complete_dp (s : State) : (s.complete).dp = s.dp := rfl

@[simp] theorem State.complete_rk (s : State) : (s.complete).rk = s.rk := rfl

@[simp] theorem State.complete_seq (s : State) :
    (s.complete).seq = { s.seq with phase := .idle, uop := 0 } := rfl

@[simp] theorem State.complete_trace (s : State) : (s.complete).trace = s.trace := rfl

@[simp] theorem State.complete_trcSel (s : State) : (s.complete).trcSel = s.trcSel := rfl

@[simp] theorem State.complete_ibuf (s : State) : (s.complete).ibuf = s.ibuf := rfl

@[simp] theorem State.complete_obuf (s : State) : (s.complete).obuf = s.obuf := rfl

@[simp] theorem State.complete_cmd (s : State) : (s.complete).cmd = s.cmd := rfl

@[simp] theorem State.complete_bufcap (s : State) : (s.complete).bufcap = s.bufcap := rfl

@[simp] theorem State.complete_inputs (s : State) : (s.complete).inputs = s.inputs := rfl

@[simp] theorem State.complete_rdata (s : State) : (s.complete).rdata = s.rdata := rfl

@[simp] theorem State.complete_rst (s : State) : (s.complete).rst = s.rst := rfl

@[simp] theorem State.complete_rnd (s : State) : (s.complete).rnd = s.rnd := rfl

@[simp] theorem State.complete_free (s : State) : (s.complete).free = s.free := rfl

/-! ### `State.hazard` -/

@[simp] theorem State.hazard_cfg (s : State) : (s.hazard).cfg = s.cfg := rfl

@[simp] theorem State.hazard_stage (s : State) : (s.hazard).stage = s.stage := rfl

@[simp] theorem State.hazard_lenOut (s : State) : (s.hazard).lenOut = s.lenOut := rfl

@[simp] theorem State.hazard_run (s : State) : (s.hazard).run = s.run := rfl

@[simp] theorem State.hazard_hzd (s : State) : (s.hazard).hzd = true := rfl

@[simp] theorem State.hazard_err (s : State) : (s.hazard).err = s.err := rfl

@[simp] theorem State.hazard_dp (s : State) : (s.hazard).dp = s.dp := rfl

@[simp] theorem State.hazard_rk (s : State) : (s.hazard).rk = s.rk := rfl

@[simp] theorem State.hazard_seq (s : State) : (s.hazard).seq = s.seq := rfl

@[simp] theorem State.hazard_trace (s : State) : (s.hazard).trace = s.trace := rfl

@[simp] theorem State.hazard_trcSel (s : State) : (s.hazard).trcSel = s.trcSel := rfl

@[simp] theorem State.hazard_ibuf (s : State) : (s.hazard).ibuf = s.ibuf := rfl

@[simp] theorem State.hazard_obuf (s : State) : (s.hazard).obuf = s.obuf := rfl

@[simp] theorem State.hazard_cmd (s : State) : (s.hazard).cmd = s.cmd := rfl

@[simp] theorem State.hazard_bufcap (s : State) : (s.hazard).bufcap = s.bufcap := rfl

@[simp] theorem State.hazard_inputs (s : State) : (s.hazard).inputs = s.inputs := rfl

@[simp] theorem State.hazard_rdata (s : State) : (s.hazard).rdata = s.rdata := rfl

@[simp] theorem State.hazard_rst (s : State) : (s.hazard).rst = s.rst := rfl

@[simp] theorem State.hazard_rnd (s : State) : (s.hazard).rnd = s.rnd := rfl

@[simp] theorem State.hazard_free (s : State) : (s.hazard).free = s.free := rfl

/-! ### `State.roundStep` -/

@[simp] theorem State.roundStep_cfg (c : BitVec 4) (b : Block) (s : State) :
    (s.roundStep c b).cfg = s.cfg := rfl

@[simp] theorem State.roundStep_stage (c : BitVec 4) (b : Block) (s : State) :
    (s.roundStep c b).stage = s.stage := rfl

@[simp] theorem State.roundStep_lenOut (c : BitVec 4) (b : Block) (s : State) :
    (s.roundStep c b).lenOut = s.lenOut := rfl

@[simp] theorem State.roundStep_run (c : BitVec 4) (b : Block) (s : State) :
    (s.roundStep c b).run = s.run := rfl

@[simp] theorem State.roundStep_hzd (c : BitVec 4) (b : Block) (s : State) :
    (s.roundStep c b).hzd = s.hzd := rfl

@[simp] theorem State.roundStep_err (c : BitVec 4) (b : Block) (s : State) :
    (s.roundStep c b).err = s.err := rfl

@[simp] theorem State.roundStep_dp (c : BitVec 4) (b : Block) (s : State) :
    (s.roundStep c b).dp = { s.dp with s := b } := rfl

@[simp] theorem State.roundStep_rk (c : BitVec 4) (b : Block) (s : State) :
    (s.roundStep c b).rk = s.rk := rfl

@[simp] theorem State.roundStep_seq (c : BitVec 4) (b : Block) (s : State) :
    (s.roundStep c b).seq = s.seq.walkNext c := rfl

@[simp] theorem State.roundStep_trace (c : BitVec 4) (b : Block) (s : State) :
    (s.roundStep c b).trace = s.trace ++ [recRound s.seq.unit s.seq.round c b] := rfl

@[simp] theorem State.roundStep_trcSel (c : BitVec 4) (b : Block) (s : State) :
    (s.roundStep c b).trcSel = s.trcSel := rfl

@[simp] theorem State.roundStep_ibuf (c : BitVec 4) (b : Block) (s : State) :
    (s.roundStep c b).ibuf = s.ibuf := rfl

@[simp] theorem State.roundStep_obuf (c : BitVec 4) (b : Block) (s : State) :
    (s.roundStep c b).obuf = s.obuf := rfl

@[simp] theorem State.roundStep_cmd (c : BitVec 4) (b : Block) (s : State) :
    (s.roundStep c b).cmd = s.cmd := rfl

@[simp] theorem State.roundStep_bufcap (c : BitVec 4) (b : Block) (s : State) :
    (s.roundStep c b).bufcap = s.bufcap := rfl

@[simp] theorem State.roundStep_inputs (c : BitVec 4) (b : Block) (s : State) :
    (s.roundStep c b).inputs = s.inputs := rfl

@[simp] theorem State.roundStep_rdata (c : BitVec 4) (b : Block) (s : State) :
    (s.roundStep c b).rdata = s.rdata := rfl

@[simp] theorem State.roundStep_rst (c : BitVec 4) (b : Block) (s : State) :
    (s.roundStep c b).rst = s.rst := rfl

@[simp] theorem State.roundStep_rnd (c : BitVec 4) (b : Block) (s : State) :
    (s.roundStep c b).rnd = s.rnd := rfl

@[simp] theorem State.roundStep_free (c : BitVec 4) (b : Block) (s : State) :
    (s.roundStep c b).free = s.free := rfl

/-! ### `State.completeInit` -/

@[simp] theorem State.completeInit_cfg (s : State) :
    (s.completeInit).cfg = { s.cfg with valid := true } := rfl

@[simp] theorem State.completeInit_stage (s : State) : (s.completeInit).stage = s.stage := rfl

@[simp] theorem State.completeInit_lenOut (s : State) : (s.completeInit).lenOut = s.lenOut := rfl

@[simp] theorem State.completeInit_run (s : State) : (s.completeInit).run = .done := rfl

@[simp] theorem State.completeInit_hzd (s : State) : (s.completeInit).hzd = s.hzd := rfl

@[simp] theorem State.completeInit_err (s : State) : (s.completeInit).err = s.err := rfl

@[simp] theorem State.completeInit_dp (s : State) : (s.completeInit).dp = s.dp := rfl

@[simp] theorem State.completeInit_rk (s : State) : (s.completeInit).rk = s.rk := rfl

@[simp] theorem State.completeInit_seq (s : State) :
    (s.completeInit).seq = { s.seq with phase := .idle, uop := 0 } := rfl

@[simp] theorem State.completeInit_trace (s : State) : (s.completeInit).trace = s.trace := rfl

@[simp] theorem State.completeInit_trcSel (s : State) : (s.completeInit).trcSel = s.trcSel := rfl

@[simp] theorem State.completeInit_ibuf (s : State) : (s.completeInit).ibuf = s.ibuf := rfl

@[simp] theorem State.completeInit_obuf (s : State) : (s.completeInit).obuf = s.obuf := rfl

@[simp] theorem State.completeInit_cmd (s : State) : (s.completeInit).cmd = s.cmd := rfl

@[simp] theorem State.completeInit_bufcap (s : State) : (s.completeInit).bufcap = s.bufcap := rfl

@[simp] theorem State.completeInit_inputs (s : State) : (s.completeInit).inputs = s.inputs := rfl

@[simp] theorem State.completeInit_rdata (s : State) : (s.completeInit).rdata = s.rdata := rfl

@[simp] theorem State.completeInit_rst (s : State) : (s.completeInit).rst = s.rst := rfl

@[simp] theorem State.completeInit_rnd (s : State) : (s.completeInit).rnd = s.rnd := rfl

@[simp] theorem State.completeInit_free (s : State) : (s.completeInit).free = s.free := rfl

/-! ### `State.initOpen` -/

@[simp] theorem State.initOpen_cfg (s : State) :
    (s.initOpen).cfg = { s.cfg with valid := false } := rfl

@[simp] theorem State.initOpen_stage (s : State) : (s.initOpen).stage = s.stage := rfl

@[simp] theorem State.initOpen_lenOut (s : State) : (s.initOpen).lenOut = 0 := rfl

@[simp] theorem State.initOpen_run (s : State) : (s.initOpen).run = .busy := rfl

@[simp] theorem State.initOpen_hzd (s : State) : (s.initOpen).hzd = s.hzd := rfl

@[simp] theorem State.initOpen_err (s : State) : (s.initOpen).err = .none := rfl

@[simp] theorem State.initOpen_dp (s : State) : (s.initOpen).dp = s.dp := rfl

@[simp] theorem State.initOpen_rk (s : State) : (s.initOpen).rk = s.rk := rfl

@[simp] theorem State.initOpen_seq (s : State) :
    (s.initOpen).seq = { s.seq with phase := .check } := rfl

@[simp] theorem State.initOpen_trace (s : State) : (s.initOpen).trace = [] := rfl

@[simp] theorem State.initOpen_trcSel (s : State) : (s.initOpen).trcSel = s.trcSel := rfl

@[simp] theorem State.initOpen_ibuf (s : State) : (s.initOpen).ibuf = s.ibuf := rfl

@[simp] theorem State.initOpen_obuf (s : State) : (s.initOpen).obuf = s.obuf := rfl

@[simp] theorem State.initOpen_cmd (s : State) : (s.initOpen).cmd = 1 := rfl

@[simp] theorem State.initOpen_bufcap (s : State) : (s.initOpen).bufcap = s.bufcap := rfl

@[simp] theorem State.initOpen_inputs (s : State) : (s.initOpen).inputs = s.inputs := rfl

@[simp] theorem State.initOpen_rdata (s : State) : (s.initOpen).rdata = s.rdata := rfl

@[simp] theorem State.initOpen_rst (s : State) : (s.initOpen).rst = s.rst := rfl

@[simp] theorem State.initOpen_rnd (s : State) : (s.initOpen).rnd = s.rnd := rfl

@[simp] theorem State.initOpen_free (s : State) : (s.initOpen).free = s.free := rfl

/-! ### `State.refusedWith` -/

@[simp] theorem State.refusedWith_cfg (e : ErrorCode) (d : BusWord) (s : State) :
    (s.refusedWith e d).cfg = s.cfg := rfl

@[simp] theorem State.refusedWith_stage (e : ErrorCode) (d : BusWord) (s : State) :
    (s.refusedWith e d).stage = s.stage := rfl

@[simp] theorem State.refusedWith_lenOut (e : ErrorCode) (d : BusWord) (s : State) :
    (s.refusedWith e d).lenOut = 0 := rfl

@[simp] theorem State.refusedWith_run (e : ErrorCode) (d : BusWord) (s : State) :
    (s.refusedWith e d).run = .error := rfl

@[simp] theorem State.refusedWith_hzd (e : ErrorCode) (d : BusWord) (s : State) :
    (s.refusedWith e d).hzd = s.hzd := rfl

@[simp] theorem State.refusedWith_err (e : ErrorCode) (d : BusWord) (s : State) :
    (s.refusedWith e d).err = e.reg := rfl

@[simp] theorem State.refusedWith_dp (e : ErrorCode) (d : BusWord) (s : State) :
    (s.refusedWith e d).dp = s.dp := rfl

@[simp] theorem State.refusedWith_rk (e : ErrorCode) (d : BusWord) (s : State) :
    (s.refusedWith e d).rk = s.rk := rfl

@[simp] theorem State.refusedWith_seq (e : ErrorCode) (d : BusWord) (s : State) :
    (s.refusedWith e d).seq = { s.seq with phase := .idle } := rfl

@[simp] theorem State.refusedWith_trace (e : ErrorCode) (d : BusWord) (s : State) :
    (s.refusedWith e d).trace = [] := rfl

@[simp] theorem State.refusedWith_trcSel (e : ErrorCode) (d : BusWord) (s : State) :
    (s.refusedWith e d).trcSel = s.trcSel := rfl

@[simp] theorem State.refusedWith_ibuf (e : ErrorCode) (d : BusWord) (s : State) :
    (s.refusedWith e d).ibuf = s.ibuf := rfl

@[simp] theorem State.refusedWith_obuf (e : ErrorCode) (d : BusWord) (s : State) :
    (s.refusedWith e d).obuf = s.obuf := rfl

@[simp] theorem State.refusedWith_cmd (e : ErrorCode) (d : BusWord) (s : State) :
    (s.refusedWith e d).cmd = d := rfl

@[simp] theorem State.refusedWith_bufcap (e : ErrorCode) (d : BusWord) (s : State) :
    (s.refusedWith e d).bufcap = s.bufcap := rfl

@[simp] theorem State.refusedWith_inputs (e : ErrorCode) (d : BusWord) (s : State) :
    (s.refusedWith e d).inputs = s.inputs := rfl

@[simp] theorem State.refusedWith_rdata (e : ErrorCode) (d : BusWord) (s : State) :
    (s.refusedWith e d).rdata = s.rdata := rfl

@[simp] theorem State.refusedWith_rst (e : ErrorCode) (d : BusWord) (s : State) :
    (s.refusedWith e d).rst = s.rst := rfl

@[simp] theorem State.refusedWith_rnd (e : ErrorCode) (d : BusWord) (s : State) :
    (s.refusedWith e d).rnd = s.rnd := rfl

@[simp] theorem State.refusedWith_free (e : ErrorCode) (d : BusWord) (s : State) :
    (s.refusedWith e d).free = s.free := rfl

/-! ### `Op.headPhase` -/

@[simp] theorem Op.headPhase_cfg (o : Op) (s : State) : (o.headPhase s).cfg = s.cfg := rfl

@[simp] theorem Op.headPhase_stage (o : Op) (s : State) : (o.headPhase s).stage = s.stage := rfl

@[simp] theorem Op.headPhase_lenOut (o : Op) (s : State) :
    (o.headPhase s).lenOut = s.lenOut := rfl

@[simp] theorem Op.headPhase_run (o : Op) (s : State) : (o.headPhase s).run = s.run := rfl

@[simp] theorem Op.headPhase_hzd (o : Op) (s : State) : (o.headPhase s).hzd = s.hzd := rfl

@[simp] theorem Op.headPhase_err (o : Op) (s : State) : (o.headPhase s).err = s.err := rfl

@[simp] theorem Op.headPhase_dp (o : Op) (s : State) :
    (o.headPhase s).dp = { s.dp with fb := if o.mode = .ecb then s.dp.fb else o.iv s } := rfl

@[simp] theorem Op.headPhase_rk (o : Op) (s : State) : (o.headPhase s).rk = s.rk := rfl

@[simp] theorem Op.headPhase_seq (o : Op) (s : State) :
    (o.headPhase s).seq = { s.seq with unit := 0, phase := .load } := rfl

@[simp] theorem Op.headPhase_trace (o : Op) (s : State) :
    (o.headPhase s).trace = s.trace ++ o.headRecords s := rfl

@[simp] theorem Op.headPhase_trcSel (o : Op) (s : State) :
    (o.headPhase s).trcSel = s.trcSel := rfl

@[simp] theorem Op.headPhase_ibuf (o : Op) (s : State) : (o.headPhase s).ibuf = s.ibuf := rfl

@[simp] theorem Op.headPhase_obuf (o : Op) (s : State) :
    (o.headPhase s).obuf = if o.enc ∧ o.mode ≠ .ecb then Memory.writeBytes 0 s.cfg.iv.toList s.obuf else s.obuf := rfl

@[simp] theorem Op.headPhase_cmd (o : Op) (s : State) : (o.headPhase s).cmd = s.cmd := rfl

@[simp] theorem Op.headPhase_bufcap (o : Op) (s : State) :
    (o.headPhase s).bufcap = s.bufcap := rfl

@[simp] theorem Op.headPhase_inputs (o : Op) (s : State) :
    (o.headPhase s).inputs = s.inputs := rfl

@[simp] theorem Op.headPhase_rdata (o : Op) (s : State) : (o.headPhase s).rdata = s.rdata := rfl

@[simp] theorem Op.headPhase_rst (o : Op) (s : State) : (o.headPhase s).rst = s.rst := rfl

@[simp] theorem Op.headPhase_rnd (o : Op) (s : State) : (o.headPhase s).rnd = s.rnd := rfl

@[simp] theorem Op.headPhase_free (o : Op) (s : State) : (o.headPhase s).free = s.free := rfl

/-! ### `Op.loadPhase` -/

@[simp] theorem Op.loadPhase_cfg (o : Op) (s : State) : (o.loadPhase s).cfg = s.cfg := rfl

@[simp] theorem Op.loadPhase_stage (o : Op) (s : State) : (o.loadPhase s).stage = s.stage := rfl

@[simp] theorem Op.loadPhase_lenOut (o : Op) (s : State) :
    (o.loadPhase s).lenOut = s.lenOut := rfl

@[simp] theorem Op.loadPhase_run (o : Op) (s : State) : (o.loadPhase s).run = s.run := rfl

@[simp] theorem Op.loadPhase_hzd (o : Op) (s : State) : (o.loadPhase s).hzd = s.hzd := rfl

@[simp] theorem Op.loadPhase_err (o : Op) (s : State) : (o.loadPhase s).err = s.err := rfl

@[simp] theorem Op.loadPhase_rk (o : Op) (s : State) : (o.loadPhase s).rk = s.rk := rfl

@[simp] theorem Op.loadPhase_trcSel (o : Op) (s : State) :
    (o.loadPhase s).trcSel = s.trcSel := rfl

@[simp] theorem Op.loadPhase_ibuf (o : Op) (s : State) : (o.loadPhase s).ibuf = s.ibuf := rfl

@[simp] theorem Op.loadPhase_obuf (o : Op) (s : State) : (o.loadPhase s).obuf = s.obuf := rfl

@[simp] theorem Op.loadPhase_cmd (o : Op) (s : State) : (o.loadPhase s).cmd = s.cmd := rfl

@[simp] theorem Op.loadPhase_bufcap (o : Op) (s : State) :
    (o.loadPhase s).bufcap = s.bufcap := rfl

@[simp] theorem Op.loadPhase_inputs (o : Op) (s : State) :
    (o.loadPhase s).inputs = s.inputs := rfl

@[simp] theorem Op.loadPhase_rdata (o : Op) (s : State) : (o.loadPhase s).rdata = s.rdata := rfl

@[simp] theorem Op.loadPhase_rst (o : Op) (s : State) : (o.loadPhase s).rst = s.rst := rfl

@[simp] theorem Op.loadPhase_rnd (o : Op) (s : State) : (o.loadPhase s).rnd = s.rnd := rfl

@[simp] theorem Op.loadPhase_free (o : Op) (s : State) : (o.loadPhase s).free = s.free := rfl

/-! ### `Op.storePhase` -/

@[simp] theorem Op.storePhase_cfg (o : Op) (s : State) : (o.storePhase s).cfg = s.cfg := rfl

@[simp] theorem Op.storePhase_stage (o : Op) (s : State) :
    (o.storePhase s).stage = s.stage := rfl

@[simp] theorem Op.storePhase_lenOut (o : Op) (s : State) :
    (o.storePhase s).lenOut = s.lenOut := rfl

@[simp] theorem Op.storePhase_run (o : Op) (s : State) : (o.storePhase s).run = s.run := rfl

@[simp] theorem Op.storePhase_hzd (o : Op) (s : State) : (o.storePhase s).hzd = s.hzd := rfl

@[simp] theorem Op.storePhase_err (o : Op) (s : State) : (o.storePhase s).err = s.err := rfl

@[simp] theorem Op.storePhase_rk (o : Op) (s : State) : (o.storePhase s).rk = s.rk := rfl

@[simp] theorem Op.storePhase_trcSel (o : Op) (s : State) :
    (o.storePhase s).trcSel = s.trcSel := rfl

@[simp] theorem Op.storePhase_ibuf (o : Op) (s : State) : (o.storePhase s).ibuf = s.ibuf := rfl

@[simp] theorem Op.storePhase_cmd (o : Op) (s : State) : (o.storePhase s).cmd = s.cmd := rfl

@[simp] theorem Op.storePhase_bufcap (o : Op) (s : State) :
    (o.storePhase s).bufcap = s.bufcap := rfl

@[simp] theorem Op.storePhase_inputs (o : Op) (s : State) :
    (o.storePhase s).inputs = s.inputs := rfl

@[simp] theorem Op.storePhase_rdata (o : Op) (s : State) :
    (o.storePhase s).rdata = s.rdata := rfl

@[simp] theorem Op.storePhase_rst (o : Op) (s : State) : (o.storePhase s).rst = s.rst := rfl

@[simp] theorem Op.storePhase_rnd (o : Op) (s : State) : (o.storePhase s).rnd = s.rnd := rfl

@[simp] theorem Op.storePhase_free (o : Op) (s : State) : (o.storePhase s).free = s.free := rfl

/-! ### `Op.tailPhase` -/

@[simp] theorem Op.tailPhase_cfg (o : Op) (s : State) : (o.tailPhase s).cfg = s.cfg := rfl

@[simp] theorem Op.tailPhase_stage (o : Op) (s : State) : (o.tailPhase s).stage = s.stage := rfl

@[simp] theorem Op.tailPhase_lenOut (o : Op) (s : State) :
    (o.tailPhase s).lenOut = o.lenOut s := rfl

@[simp] theorem Op.tailPhase_run (o : Op) (s : State) : (o.tailPhase s).run = .done := rfl

@[simp] theorem Op.tailPhase_hzd (o : Op) (s : State) : (o.tailPhase s).hzd = s.hzd := rfl

@[simp] theorem Op.tailPhase_err (o : Op) (s : State) : (o.tailPhase s).err = s.err := rfl

@[simp] theorem Op.tailPhase_dp (o : Op) (s : State) : (o.tailPhase s).dp = s.dp := rfl

@[simp] theorem Op.tailPhase_rk (o : Op) (s : State) : (o.tailPhase s).rk = s.rk := rfl

@[simp] theorem Op.tailPhase_seq (o : Op) (s : State) :
    (o.tailPhase s).seq = { s.seq with phase := .idle, uop := 0 } := rfl

@[simp] theorem Op.tailPhase_trace (o : Op) (s : State) :
    (o.tailPhase s).trace = s.trace ++ o.tailRecords s := rfl

@[simp] theorem Op.tailPhase_trcSel (o : Op) (s : State) :
    (o.tailPhase s).trcSel = s.trcSel := rfl

@[simp] theorem Op.tailPhase_ibuf (o : Op) (s : State) : (o.tailPhase s).ibuf = s.ibuf := rfl

@[simp] theorem Op.tailPhase_obuf (o : Op) (s : State) : (o.tailPhase s).obuf = s.obuf := rfl

@[simp] theorem Op.tailPhase_cmd (o : Op) (s : State) : (o.tailPhase s).cmd = s.cmd := rfl

@[simp] theorem Op.tailPhase_bufcap (o : Op) (s : State) :
    (o.tailPhase s).bufcap = s.bufcap := rfl

@[simp] theorem Op.tailPhase_inputs (o : Op) (s : State) :
    (o.tailPhase s).inputs = s.inputs := rfl

@[simp] theorem Op.tailPhase_rdata (o : Op) (s : State) : (o.tailPhase s).rdata = s.rdata := rfl

@[simp] theorem Op.tailPhase_rst (o : Op) (s : State) : (o.tailPhase s).rst = s.rst := rfl

@[simp] theorem Op.tailPhase_rnd (o : Op) (s : State) : (o.tailPhase s).rnd = s.rnd := rfl

@[simp] theorem Op.tailPhase_free (o : Op) (s : State) : (o.tailPhase s).free = s.free := rfl

/-! ### `State.drawn` -/

@[simp] theorem State.drawn_cfg (s : State) : s.drawn.cfg = s.cfg := by
  unfold State.drawn; split <;> rfl

@[simp] theorem State.drawn_stage (s : State) : s.drawn.stage = s.stage := by
  unfold State.drawn; split <;> rfl

@[simp] theorem State.drawn_lenOut (s : State) : s.drawn.lenOut = s.lenOut := by
  unfold State.drawn; split <;> rfl

@[simp] theorem State.drawn_run (s : State) : s.drawn.run = s.run := by
  unfold State.drawn; split <;> rfl

@[simp] theorem State.drawn_hzd (s : State) : s.drawn.hzd = s.hzd := by
  unfold State.drawn; split <;> rfl

@[simp] theorem State.drawn_err (s : State) : s.drawn.err = s.err := by
  unfold State.drawn; split <;> rfl

@[simp] theorem State.drawn_dp (s : State) : s.drawn.dp = s.dp := by
  unfold State.drawn; split <;> rfl

@[simp] theorem State.drawn_rk (s : State) : s.drawn.rk = s.rk := by
  unfold State.drawn; split <;> rfl

@[simp] theorem State.drawn_seq (s : State) : s.drawn.seq = s.seq := by
  unfold State.drawn; split <;> rfl

@[simp] theorem State.drawn_trace (s : State) : s.drawn.trace = s.trace := by
  unfold State.drawn; split <;> rfl

@[simp] theorem State.drawn_trcSel (s : State) : s.drawn.trcSel = s.trcSel := by
  unfold State.drawn; split <;> rfl

@[simp] theorem State.drawn_ibuf (s : State) : s.drawn.ibuf = s.ibuf := by
  unfold State.drawn; split <;> rfl

@[simp] theorem State.drawn_obuf (s : State) : s.drawn.obuf = s.obuf := by
  unfold State.drawn; split <;> rfl

@[simp] theorem State.drawn_cmd (s : State) : s.drawn.cmd = s.cmd := by
  unfold State.drawn; split <;> rfl

@[simp] theorem State.drawn_bufcap (s : State) : s.drawn.bufcap = s.bufcap := by
  unfold State.drawn; split <;> rfl

@[simp] theorem State.drawn_inputs (s : State) : s.drawn.inputs = s.inputs := by
  unfold State.drawn; split <;> rfl

@[simp] theorem State.drawn_rdata (s : State) : s.drawn.rdata = s.rdata := by
  unfold State.drawn; split <;> rfl

@[simp] theorem State.drawn_rst (s : State) : s.drawn.rst = s.rst := by
  unfold State.drawn; split <;> rfl

end Sys2Proof.Machine
end

