-- ==== Sys2Proof/Laws/Step.lean ====
section
/-! SUPPORT. What a step can do, said once: the command words that decode, what each instruction's next
state is, the sequencer's step by phase, and the cases of a step. -/

namespace Sys2Proof.Machine

theorem State.busy_iff {s : State} : s.busy = true ↔ s.run = .busy := by simp [State.busy]

theorem State.not_busy_iff {s : State} : s.busy = false ↔ s.run ≠ .busy := by simp [State.busy]

/-! ### Decoding and addresses -/

/-- The three command words that decode (R74). -/
theorem decodeCmd_ok_iff {m : Mode} {d : BusWord} {i : Instr} :
    decodeCmd m d = .ok i ↔
      (d = 1 ∧ i = .init) ∨ (d = 2 ∧ i = Instr.encryptOf m) ∨ (d = 3 ∧ i = Instr.decryptOf m) := by
  have key : ∀ k : Nat, k < 8 → d >>> 3 = 0 → (d.extractLsb' 0 3).toNat = k → d = BitVec.ofNat 32 k := by
    intro k hk h1 h2
    apply BitVec.eq_of_toNat_eq
    have h3 := congrArg BitVec.toNat h1
    simp only [BitVec.toNat_ushiftRight, Nat.shiftRight_eq_div_pow,
      BitVec.extractLsb'_toNat, BitVec.ofNat_eq_ofNat, BitVec.toNat_ofNat] at h2 h3 ⊢
    omega
  constructor
  · intro h
    unfold decodeCmd at h
    split at h
    · exact absurd h (by simp)
    · rename_i hz
      have hz : d >>> 3 = 0 := by simpa using hz
      split at h
      · rename_i hk
        exact .inl ⟨key 1 (by omega) hz hk, by simpa using h.symm⟩
      · rename_i hk
        exact .inr (.inl ⟨key 2 (by omega) hz hk, by simpa using h.symm⟩)
      · rename_i hk
        exact .inr (.inr ⟨key 3 (by omega) hz hk, by simpa using h.symm⟩)
      · exact absurd h (by simp)
  · rintro (⟨rfl, rfl⟩ | ⟨rfl, rfl⟩ | ⟨rfl, rfl⟩) <;> rfl

/-- The registers by word address (R72). -/
theorem locate_register {cap : BufCap} {a : WordAddr} (h : a.toNat < 16) :
    locate cap a = locateRegister a.toNat := by
  rw [locate, if_pos (by omega)]

/-- The small windows by word address (R72). -/
theorem locate_window {cap : BufCap} {a : WordAddr} (h : 16 ≤ a.toNat) (h' : a.toNat < 64) :
    locate cap a = locateWindow (4 * a.toNat) := by
  rw [locate, if_neg (by omega), if_pos (by omega)]

/-- The round-key window by word address (R72). -/
theorem locate_rk {cap : BufCap} {a : WordAddr} (h : 64 ≤ a.toNat) (h' : a.toNat < 16384) :
    locate cap a = locateRk (4 * a.toNat) := by
  rw [locate, if_neg (by omega), if_neg (by omega), if_pos (by omega)]

/-- The buffer windows by word address (R72). -/
theorem locate_buffer {cap : BufCap} {a : WordAddr} (h : 16384 ≤ a.toNat) :
    locate cap a = locateBuffer cap (4 * a.toNat) := by
  rw [locate, if_neg (by omega), if_neg (by omega), if_neg (by omega)]

/-- CMD is at the one word address 0 (R72). -/
theorem locate_eq_cmd {cap : BufCap} {a : WordAddr} : locate cap a = .cmd ↔ a = cmdAddr := by
  constructor
  · intro h
    have hz : a.toNat = 0 := by
      rcases Nat.lt_or_ge a.toNat 16 with h1 | h1
      · rw [locate_register h1] at h
        unfold locateRegister at h
        split at h <;> first | assumption | cases h
      · rcases Nat.lt_or_ge a.toNat 64 with h2 | h2
        · rw [locate_window h1 h2, locateWindow] at h
          split_ifs at h
        · rcases Nat.lt_or_ge a.toNat 16384 with h3 | h3
          · rw [locate_rk h2 h3, locateRk] at h
            split_ifs at h
          · rw [locate_buffer h3, locateBuffer] at h
            split_ifs at h
    exact BitVec.eq_of_toNat_eq (by simpa [cmdAddr] using hz)
  · rintro rfl
    rfl

/-- The word addresses of IBUF (R72). -/
theorem locate_ibuf {cap : BufCap} {a : WordAddr} {j : Nat} (h : locate cap a = .ibuf j) :
    4 * j + 4 ≤ cap.bytes ∧ 4 * a.toNat = 0x10000 + 4 * j := by
  rcases Nat.lt_or_ge a.toNat 16 with h1 | h1
  · rw [locate_register h1] at h
    unfold locateRegister at h
    split at h <;> cases h
  · rcases Nat.lt_or_ge a.toNat 64 with h2 | h2
    · rw [locate_window h1 h2, locateWindow] at h
      split_ifs at h
    · rcases Nat.lt_or_ge a.toNat 16384 with h3 | h3
      · rw [locate_rk h2 h3, locateRk] at h
        split_ifs at h
      · rw [locate_buffer h3, locateBuffer] at h
        split_ifs at h
        cases h
        simp only [BufCap.bytes] at *
        omega

/-! ### The next state of each instruction -/

/-- INIT as one function (R212). -/
def initRun (s : State) : State :=
  match s.initOpen.initCheck with
  | some e => s.initOpen.raise e
  | none => kexpStep^[52] s.initOpen.initLatch

theorem exec_init (s : State) : exec .init s = .next (initRun s) := by
  simp only [exec, execInit, initRun]
  split <;> simp_all

theorem exec_encryptOf (m : Mode) (s : State) : exec (Instr.encryptOf m) s = .next (encryptRun m s) := by
  cases m <;> rfl

theorem exec_decryptOf (m : Mode) (s : State) : exec (Instr.decryptOf m) s = .next (decryptRun m s) := by
  cases m <;> rfl

theorem exec_kexp {s : State} (h : 8 ≤ s.seq.unit.toNat ∧ s.seq.unit.toNat ≤ 59) :
    exec .kexp s = .next (kexpStep s) := by simp [exec, execKexp, h]

/-- The code and the new S of a round micro-operation (R120). -/
def roundOf (i : Instr) (s : State) : Option (BitVec 4 × Block) :=
  match i with
  | .ark => some (1, addRoundKey (roundKey s.rk s.seq.round.val) s.dp.s)
  | .sb => some (2, subBytes s.dp.s)
  | .sr => some (3, shiftRows s.dp.s)
  | .mc => some (4, mixColumns s.dp.s)
  | .isb => some (5, invSubBytes s.dp.s)
  | .isr => some (6, invShiftRows s.dp.s)
  | .imc => some (7, invMixColumns s.dp.s)
  | .init | .encryptEcb | .encryptCbc | .encryptCfb | .encryptOfb | .encryptCtr | .decryptEcb
  | .decryptCbc | .decryptCfb | .decryptOfb | .decryptCtr | .kexp => none

theorem exec_round {i : Instr} {s : State} {c : BitVec 4} {b : Block} (h : roundOf i s = some (c, b)) :
    exec i s = .next (s.roundStep c b) := by
  cases i <;> simp only [roundOf, Option.some.injEq, Prod.mk.injEq, reduceCtorEq] at h <;>
    (obtain ⟨rfl, rfl⟩ := h; rfl)

/-- What the micro-operation in SEQ.uop does (R78): a round step of that code, or KEXP. -/
theorem runUop_cases {s t : State} (h : s.runUop = .next t) :
    (∃ b, t = s.roundStep s.seq.uop b ∧ 1 ≤ s.seq.uop.toNat ∧ s.seq.uop.toNat ≤ 7)
    ∨ (s.seq.uop = 8 ∧ 8 ≤ s.seq.unit.toNat ∧ s.seq.unit.toNat ≤ 59 ∧ t = kexpStep s) := by
  have code : ∀ k : Nat, k < 16 → s.seq.uop.toNat = k → s.seq.uop = BitVec.ofNat 4 k := by
    intro k hk h
    apply BitVec.eq_of_toNat_eq
    simp [h, Nat.mod_eq_of_lt hk]
  unfold State.runUop decodeUop at h
  split at h
  · rename_i i hi
    split at hi
    all_goals first | (cases hi; done) | skip
    case h_8 hk =>
      cases hi
      right
      simp only [exec, execKexp] at h
      split at h
      · rename_i hu
        exact ⟨code 8 (by omega) hk, hu.1, hu.2, by simpa using h.symm⟩
      · cases h
    all_goals
      rename_i hk
      cases hi
      left
      rw [code _ (by omega) hk]
      exact ⟨_, (Host.Outcome.next.inj h).symm, by decide, by decide⟩
  · cases h

/-! ### The sequencer, by phase -/

theorem seqStep_idle {s : State} (h : s.seq.phase = .idle) : s.seqStep = .next s := by
  simp [State.seqStep, h]

theorem seqStep_check {s : State} (h : s.seq.phase = .check) : s.seqStep = .next s.checkPhase := by
  simp [State.seqStep, h]

theorem seqStep_kexp {s : State} (h : s.seq.phase = .kexp) : s.seqStep = s.runUop := by
  simp [State.seqStep, h]

theorem seqStep_head {s : State} (h : s.seq.phase = .head) :
    s.seqStep = .next (s.currentOp.headPhase s) := by simp [State.seqStep, h]

theorem seqStep_load {s : State} (h : s.seq.phase = .load) :
    s.seqStep = .next (s.currentOp.loadPhase s) := by simp [State.seqStep, h]

theorem seqStep_round {s : State} (h : s.seq.phase = .round) : s.seqStep = s.runUop := by
  simp [State.seqStep, h]

theorem seqStep_store {s : State} (h : s.seq.phase = .store) :
    s.seqStep = .next (s.currentOp.storePhase s) := by simp [State.seqStep, h]

theorem seqStep_tail {s : State} (h : s.seq.phase = .tail) :
    s.seqStep = .next (s.currentOp.tailPhase s) := by simp [State.seqStep, h]

/-- CHECK ends in an error, in HEAD of the operation in progress, or in KEXP (R29, R211, R212). -/
theorem checkPhase_cases (s : State) :
    (∃ e, e ≠ .base64 ∧ e ≠ .utf8 ∧ s.checkPhase = s.raise e)
    ∨ ((s.cmd = 2 ∨ s.cmd = 3) ∧ s.currentOp.check s = none
        ∧ s.checkPhase = { s with seq := { s.seq with phase := .head } })
    ∨ (s.cmd = 1 ∧ ∃ u : State, u = { s with cfg := { s.cfg with valid := false } }
        ∧ ((∃ e, e ≠ .base64 ∧ e ≠ .utf8 ∧ s.checkPhase = u.raise e)
          ∨ (u.initCheck = none ∧ s.checkPhase = u.initLatch))) := by
  unfold State.checkPhase
  split
  · exact .inl ⟨.badcmd, by decide, by decide, rfl⟩
  · rename_i i hi
    rcases decodeCmd_ok_iff.1 hi with ⟨hc, rfl⟩ | ⟨hc, rfl⟩ | ⟨hc, rfl⟩
    · right; right
      refine ⟨hc, _, rfl, ?_⟩
      simp only [commandOp, State.checkInit]
      split
      · rename_i e he
        left
        refine ⟨e, ?_, ?_, rfl⟩ <;> (simp only [State.initCheck] at he; rintro rfl; grind)
      · exact .inr ⟨by assumption, rfl⟩
    · have ho : commandOp (Instr.encryptOf s.cfg.mode) = some s.currentOp := by
        simp only [State.currentOp, hc]
        cases s.cfg.mode <;> rfl
      simp only [ho, State.checkCipher]
      split
      · rename_i e he
        left
        refine ⟨e, ?_, ?_, rfl⟩ <;>
          (simp only [Op.check, State.currentOp, hc, State.encryptCheck, State.decryptCheck] at he
           rintro rfl; grind)
      · exact .inr (.inl ⟨.inl hc, by assumption, rfl⟩)
    · have ho : commandOp (Instr.decryptOf s.cfg.mode) = some s.currentOp := by
        simp only [State.currentOp, hc]
        cases s.cfg.mode <;> rfl
      simp only [ho, State.checkCipher]
      split
      · rename_i e he
        left
        refine ⟨e, ?_, ?_, rfl⟩ <;>
          (simp only [Op.check, State.currentOp, hc, State.encryptCheck, State.decryptCheck] at he
           rintro rfl; grind)
      · exact .inr (.inl ⟨.inr hc, by assumption, rfl⟩)

/-! ### The cases of a step -/

/-- The state with other boundary fields: the inputs left, the read data, the count of free values. -/
def State.withBoundary (l : List Input) (v : BusWord) (n : Nat) (s : State) : State :=
  { s with inputs := l, rdata := v, free := n }

/-- A read changes boundary fields only (R60). -/
theorem busRead_boundary (a : WordAddr) (s : State) :
    ∃ v n, s.busRead a = s.withBoundary s.inputs v n := by
  have h1 : ∀ d : BusWord, ∃ v n, s.returns d = s.withBoundary s.inputs v n := fun d => ⟨d, s.free, rfl⟩
  have h2 : ∃ v n, s.returnsAny = s.withBoundary s.inputs v n := ⟨_, _, rfl⟩
  unfold State.busRead State.busReadIdle
  split
  · exact h2
  · split
    · split
      · exact h1 _
      · exact h2
    · split <;> first | exact h1 _ | (split <;> first | exact h1 _ | exact h2)

/-- Everything a step can be: nothing but boundary fields; a sequencer step of a busy core; a dropped
write; a store; an accepted command; a change of RST. -/
theorem step_cases {s t : State} (h : step s = .next t) :
    (∃ l v n, t = s.withBoundary l v n)
    ∨ (s.run = .busy ∧ ∃ l v n, (s.withBoundary l v n).seqStep = .next t)
    ∨ (∃ a d l, s.inputs = .write a d :: l ∧ s.rst = false ∧ s.run = .busy
        ∧ t = { s with inputs := l, hzd := true })
    ∨ (∃ a d l, s.inputs = .write a d :: l ∧ s.rst = false ∧ s.run ≠ .busy
        ∧ a ≠ cmdAddr ∧ t = State.busStore a d { s with inputs := l })
    ∨ (∃ d l, s.inputs = .write cmdAddr d :: l ∧ s.rst = false ∧ s.run ≠ .busy
        ∧ ((hostWaits l = true ∧ State.runCommand d { s with inputs := l } = .next t)
          ∨ (hostWaits l = false ∧ t = State.prologue d { s with inputs := l.tail })))
    ∨ (∃ b l, s.inputs = .rst b :: l ∧ t = State.driveRst b { s with inputs := l }) := by
  unfold step at h
  split at h
  · simp only [State.quietStep] at h
    split at h
    · exact .inr (.inl ⟨State.busy_iff.1 (by assumption), s.inputs, s.rdata, s.free, h⟩)
    · cases h
      exact .inl ⟨s.inputs, s.rdata, s.free, rfl⟩
  · rename_i i rest hin
    cases i with
    | write a d =>
      simp only [State.inputStep, State.busWrite] at h
      split at h
      · cases h
        exact .inl ⟨rest, s.rdata, s.free, rfl⟩
      · rename_i hr
        have hr : s.rst = false := by simpa using hr
        split at h
        · rename_i hb
          cases h
          exact .inr (.inr (.inl ⟨a, d, rest, hin, hr, State.busy_iff.1 hb, rfl⟩))
        · rename_i hb
          have hb : s.run ≠ .busy := by simpa [State.busy] using hb
          split at h
          · rename_i hl
            obtain rfl := locate_eq_cmd.1 hl
            simp only [State.acceptCommand] at h
            split at h
            · exact .inr (.inr (.inr (.inr (.inl
                ⟨d, rest, hin, hr, hb, .inl ⟨by assumption, h⟩⟩))))
            · rename_i hw
              cases h
              exact .inr (.inr (.inr (.inr (.inl
                ⟨d, rest, hin, hr, hb, .inr ⟨by simpa using hw, rfl⟩⟩))))
          · rename_i hl
            cases h
            exact .inr (.inr (.inr (.inl
              ⟨a, d, rest, hin, hr, hb, fun ha => hl (locate_eq_cmd.2 ha), rfl⟩)))
    | read a =>
      simp only [State.inputStep] at h
      cases h
      obtain ⟨v, n, hv⟩ := busRead_boundary a { s with inputs := rest }
      exact .inl ⟨rest, v, n, hv⟩
    | poll =>
      simp only [State.inputStep, State.pollStep] at h
      split at h
      · rename_i hb
        obtain ⟨v, n, hv⟩ := busRead_boundary statusAddr s
        exact .inr (.inl ⟨State.busy_iff.1 hb, s.inputs, v, n, by rw [← hv]; exact h⟩)
      · cases h
        obtain ⟨v, n, hv⟩ := busRead_boundary statusAddr { s with inputs := rest }
        exact .inl ⟨rest, v, n, hv⟩
    | seq =>
      simp only [State.inputStep] at h
      split at h
      · rename_i hb
        exact .inr (.inl ⟨State.busy_iff.1 hb, rest, s.rdata, s.free, h⟩)
      · cases h
        exact .inl ⟨rest, s.rdata, s.free, rfl⟩
    | rst b =>
      simp only [State.inputStep] at h
      cases h
      exact .inr (.inr (.inr (.inr (.inr ⟨b, rest, hin, rfl⟩))))

end Sys2Proof.Machine
end

