-- ==== Sys2Proof/Laws/Bus.lean ====
section
/-! SUPPORT. The byte lanes of the bus (20_memory.md R55) and the host accesses by case (R60, R341). -/

namespace Sys2Proof.Machine

/-- Byte `k` of a word is in lane `k` (R55). -/
theorem lanes (w : Word) (k : Nat) (hk : k < 4) : w.toBus.extractLsb' (8 * k) 8 = w.get k := by
  obtain ⟨a0, a1, a2, a3⟩ := w
  have : k = 0 ∨ k = 1 ∨ k = 2 ∨ k = 3 := by omega
  rcases this with rfl | rfl | rfl | rfl <;> simp only [Word.toBus, Word.get] <;>
    (apply BitVec.eq_of_getLsbD_eq; intro i hi; simp)
  all_goals grind

/-- Lane `k` of a bus word is byte `k` (R55). -/
theorem ofBus_get (d : BusWord) (k : Nat) (hk : k < 4) :
    (Word.ofBus d).get k = d.extractLsb' (8 * k) 8 := by
  have : k = 0 ∨ k = 1 ∨ k = 2 ∨ k = 3 := by omega
  rcases this with rfl | rfl | rfl | rfl <;> rfl

/-- Byte `4j + k` of a buffer is in lane `k` of word `j` of its window (R55). -/
theorem mem_lanes (m : Memory) (j k : Nat) (hk : k < 4) :
    (Memory.busWord m j).extractLsb' (8 * k) 8 = Memory.read (4 * j + k) m := by
  rw [Memory.busWord, lanes _ _ hk]
  have : k = 0 ∨ k = 1 ∨ k = 2 ∨ k = 3 := by omega
  rcases this with rfl | rfl | rfl | rfl <;> rfl

/-- Byte `4j + k` of a key is byte `k` of word `j` (R52). -/
theorem key_lane (key : Key) (j k : Nat) (hj : j < 8) (hk : k < 4) :
    (key.word j).get k = key.toList.getD (4 * j + k) 0 := by
  have : k = 0 ∨ k = 1 ∨ k = 2 ∨ k = 3 := by omega
  have h2 : j = 0 ∨ j = 1 ∨ j = 2 ∨ j = 3 ∨ j = 4 ∨ j = 5 ∨ j = 6 ∨ j = 7 := by omega
  rcases this with rfl | rfl | rfl | rfl <;>
    rcases h2 with rfl | rfl | rfl | rfl | rfl | rfl | rfl | rfl <;> rfl

/-- Byte `4j + k` of a block is byte `k` of word `j` (R51). -/
theorem block_lane (b : Block) (j k : Nat) (hj : j < 4) (hk : k < 4) :
    (b.word j).get k = b.get (4 * j + k) := by
  have : k = 0 ∨ k = 1 ∨ k = 2 ∨ k = 3 := by omega
  have h2 : j = 0 ∨ j = 1 ∨ j = 2 ∨ j = 3 := by omega
  rcases this with rfl | rfl | rfl | rfl <;> rcases h2 with rfl | rfl | rfl | rfl <;> rfl

/-- A key with one word set, byte by byte. -/
theorem setWord_key (key : Key) (j : Nat) (hj : j < 8) (w : Word) (n : Nat) (hn : n < 32) :
    (key.setWord j w).toList.getD n 0 = if n / 4 = j then w.get (n % 4) else key.toList.getD n 0 := by
  have h2 : j = 0 ∨ j = 1 ∨ j = 2 ∨ j = 3 ∨ j = 4 ∨ j = 5 ∨ j = 6 ∨ j = 7 := by omega
  rcases h2 with rfl | rfl | rfl | rfl | rfl | rfl | rfl | rfl <;> interval_cases n <;> rfl

/-- A block with one word set, byte by byte. -/
theorem setWord_block (b : Block) (j : Nat) (hj : j < 4) (w : Word) (n : Nat) (hn : n < 16) :
    (b.setWord j w).get n = if n / 4 = j then w.get (n % 4) else b.get n := by
  have h2 : j = 0 ∨ j = 1 ∨ j = 2 ∨ j = 3 := by omega
  rcases h2 with rfl | rfl | rfl | rfl <;> interval_cases n <;> rfl

/-- A read of a core at rest (R60). -/
theorem busRead_idle {u : State} (a) (hr : u.rst = false) (hb : u.busy = false) :
    u.busRead a = u.busReadIdle a := by
  simp [State.busRead, hr, hb]

/-- STATUS read while BUSY (R62). -/
theorem busRead_status {u : State} (hr : u.rst = false) (hb : u.busy = true) :
    u.busRead statusAddr = u.returns u.statusWord := by
  unfold State.busRead
  rw [hr, hb]
  rfl

/-- A write of a core at rest elsewhere than CMD (R60). -/
theorem busWrite_store {u : State} {a} (d) (hr : u.rst = false) (hb : u.busy = false) (ha : a ≠ cmdAddr) :
    u.busWrite a d = .next (u.busStore a d) := by
  unfold State.busWrite
  rw [hr, hb]
  simp only [Bool.false_eq_true, if_false]
  split
  · rename_i h; exact absurd (locate_eq_cmd.1 h) ha
  · rfl

/-- A write while BUSY (R341). -/
theorem busWrite_hzd {u : State} {a} (d) (hr : u.rst = false) (hb : u.busy = true) :
    u.busWrite a d = .next u.hazard := by
  unfold State.busWrite
  rw [hr, hb]
  simp

end Sys2Proof.Machine
end

