-- ==== Sys2Proof/Laws/KeySchedule.lean ====
section
/-! SUPPORT. The words of the round-key file: what a schedule step writes and keeps, and the words of
`keyExpansion` (40_key_schedule.md R104, R105). -/

namespace Sys2Proof.Machine

/-- One word set: the others stay (R27). -/
theorem rkWord_set (rk : Vector Word 60) (i j : Nat) (w : Word) (hi : i < 60) :
    rkWord (rk.setIfInBounds i w) j = if j = i then w else rkWord rk j := by
  unfold rkWord
  rw [Vector.getElem?_setIfInBounds]
  by_cases h : i = j
  · subst h; simp [hi]
  · simp [h, Ne.symm h]

/-- A schedule step leaves every other word (R105). -/
theorem scheduleWord_other (rk : Vector Word 60) (i j : Nat) (hi : i < 60) (h : j ≠ i) :
    rkWord (scheduleWord rk i) j = rkWord rk j := by
  rw [scheduleWord, rkWord_set _ _ _ _ hi, if_neg h]

/-- The word a schedule step writes (R105). -/
theorem scheduleWord_same (rk : Vector Word 60) (i : Nat) (hi : i < 60) :
    rkWord (scheduleWord rk i) i = (rkWord rk (i-8)).xor (scheduleCore i (rkWord rk (i-1))) := by
  rw [scheduleWord, rkWord_set _ _ _ _ hi, if_pos rfl]; rfl

/-- Schedule steps at other indices leave word `j`. -/
theorem fold_other (l : List Nat) (rk : Vector Word 60) (j : Nat) (hl : ∀ i ∈ l, i < 60 ∧ i ≠ j) :
    rkWord (l.foldl scheduleWord rk) j = rkWord rk j := by
  induction l generalizing rk with
  | nil => rfl
  | cons a l ih =>
    rw [List.foldl_cons, ih _ (fun i hi => hl i (List.mem_cons_of_mem _ hi)),
      scheduleWord_other _ _ _ (hl a List.mem_cons_self).1 (Ne.symm (hl a List.mem_cons_self).2)]

/-- The expansion cut at word `i`: a file whose words below `i` are final, and step `i` on it. -/
theorem keyExpansion_split (key : Key) (i : Nat) (h8 : 8 ≤ i) (hi : i < 60) :
    ∃ rk, (∀ j < i, rkWord rk j = rkWord (keyExpansion key) j) ∧
      (∀ j ≤ i, rkWord (scheduleWord rk i) j = rkWord (keyExpansion key) j) := by
  have hsplit : List.range' 8 52 = List.range' 8 (i - 8) ++ i :: List.range' (i + 1) (59 - i) := by
    have : 52 = (i - 8) + (60 - i) := by omega
    rw [this, ← List.range'_append_1]
    congr 1
    have h2 : 60 - i = (59 - i) + 1 := by omega
    rw [h2, List.range'_succ]
    congr 1
    · omega
    · congr 1; omega
  refine ⟨(List.range' 8 (i - 8)).foldl scheduleWord
    (loadKeyWords key (Vector.replicate 60 Word.zero)), ?_, ?_⟩
  · intro j hj
    unfold keyExpansion
    rw [hsplit, List.foldl_append, List.foldl_cons,
      fold_other (List.range' (i + 1) (59 - i)) _ j (by intro a ha; simp at ha; omega),
      scheduleWord_other _ _ _ hi (by omega)]
  · intro j hj
    unfold keyExpansion
    rw [hsplit, List.foldl_append, List.foldl_cons, fold_other _ _ j (by intro a ha; simp at ha; omega)]

/-- Step `i` on any file whose words below `i` are those of the expansion makes word `i` its word (R106). -/
theorem keyExpansion_step (key : Key) (i : Nat) (h8 : 8 ≤ i) (hi : i < 60) (rk : Vector Word 60)
    (h : ∀ j < i, rkWord rk j = rkWord (keyExpansion key) j) :
    ∀ j ≤ i, rkWord (scheduleWord rk i) j = rkWord (keyExpansion key) j := by
  obtain ⟨r, h1, h2⟩ := keyExpansion_split key i h8 hi
  intro j hj
  rw [← h2 j hj]
  by_cases e : j = i
  · subst e
    rw [scheduleWord_same _ _ hi, scheduleWord_same _ _ hi, h _ (by omega), h _ (by omega),
      h1 _ (by omega), h1 _ (by omega)]
  · rw [scheduleWord_other _ _ _ hi e, scheduleWord_other _ _ _ hi e, h _ (by omega), h1 _ (by omega)]

/-- The first eight words are the key (R106). -/
theorem loadKeyWords_word (key : Key) (rk : Vector Word 60) (j : Nat) (h : j < 8) :
    rkWord (loadKeyWords key rk) j = key.word j := by
  simp only [loadKeyWords, List.foldl_cons, List.foldl_nil]
  have : j = 0 ∨ j = 1 ∨ j = 2 ∨ j = 3 ∨ j = 4 ∨ j = 5 ∨ j = 6 ∨ j = 7 := by omega
  rcases this with rfl|rfl|rfl|rfl|rfl|rfl|rfl|rfl <;> simp [rkWord_set]

/-- The first eight words of the expansion are the key (R104). -/
theorem keyExpansion_head (key : Key) (j : Nat) (h : j < 8) :
    rkWord (keyExpansion key) j = key.word j := by
  unfold keyExpansion
  rw [fold_other _ _ j (by intro a ha; simp at ha; omega), loadKeyWords_word _ _ _ h]

/-- Two files with the same words are equal. -/
theorem rk_ext {a b : Vector Word 60} (h : ∀ j < 60, rkWord a j = rkWord b j) : a = b := by
  apply Vector.ext
  intro i hi
  have := h i hi
  simpa [rkWord, hi] using this

end Sys2Proof.Machine
end

