-- ==== Sys2Proof/Laws/Memory.lean ====
section
/-! SUPPORT. The laws of the byte buffers: a store keeps the canonical form, a load after a store, bytes
outside a store, and that canonical buffers with the same bytes are equal. -/

namespace Sys2Proof.Machine

theorem Memory.wfFrom_mono {lo lo' : Nat} {m : Memory} (h : Memory.wfFrom lo m = true) (hle : lo' ≤ lo) :
    Memory.wfFrom lo' m = true := by
  cases m with
  | nil => rfl
  | cons c t =>
    obtain ⟨b, x⟩ := c
    simp only [Memory.wfFrom, Bool.and_eq_true, decide_eq_true_eq] at h ⊢
    exact ⟨⟨by omega, h.1.2⟩, h.2⟩

/-- An offset below all listed ones reads 00. -/
theorem Memory.read_below {lo a : Nat} {m : Memory} (h : Memory.wfFrom lo m = true) (ha : a < lo) :
    Memory.read a m = 0 := by
  cases m with
  | nil => rfl
  | cons c t =>
    obtain ⟨b, x⟩ := c
    simp only [Memory.wfFrom, Bool.and_eq_true, decide_eq_true_eq] at h
    simp only [Memory.read]
    rw [if_pos (by omega)]

theorem Memory.wfFrom_write {lo a : Nat} (x : Byte) {m : Memory} (h : Memory.wfFrom lo m = true)
    (ha : lo ≤ a) : Memory.wfFrom lo (Memory.write a x m) = true := by
  induction m generalizing lo with
  | nil =>
    simp only [Memory.write]
    split
    · rfl
    · rename_i hx
      simpa [Memory.wfFrom, ha] using hx
  | cons c t ih =>
    obtain ⟨b, y⟩ := c
    simp only [Memory.wfFrom, Bool.and_eq_true, decide_eq_true_eq] at h
    obtain ⟨⟨hb, hy⟩, ht⟩ := h
    simp only [Memory.write]
    split
    · split
      · simp only [Memory.wfFrom, Bool.and_eq_true, decide_eq_true_eq]
        exact ⟨⟨hb, hy⟩, ht⟩
      · simp only [Memory.wfFrom, Bool.and_eq_true, decide_eq_true_eq]
        exact ⟨⟨ha, by assumption⟩, ⟨by omega, hy⟩, ht⟩
    · split
      · split
        · exact Memory.wfFrom_mono ht (by omega)
        · simp only [Memory.wfFrom, Bool.and_eq_true, decide_eq_true_eq]
          subst_vars
          exact ⟨⟨ha, by assumption⟩, ht⟩
      · simp only [Memory.wfFrom, Bool.and_eq_true, decide_eq_true_eq]
        exact ⟨⟨hb, hy⟩, ih ht (by omega)⟩

/-- Storing a byte keeps the canonical form. -/
theorem Memory.wf_write (a : Nat) (x : Byte) {m : Memory} (h : Memory.wf m = true) :
    Memory.wf (Memory.write a x m) = true := Memory.wfFrom_write x h (Nat.zero_le a)

/-- Storing a byte string keeps the canonical form. -/
theorem Memory.wf_writeBytes (off : Nat) (l : List Byte) {m : Memory} (h : Memory.wf m = true) :
    Memory.wf (Memory.writeBytes off l m) = true := by
  induction l generalizing off m with
  | nil => exact h
  | cons x t ih => exact ih (off + 1) (Memory.wf_write off x h)

theorem Memory.read_write_from {lo : Nat} (a b : Nat) (x : Byte) {m : Memory}
    (h : Memory.wfFrom lo m = true) :
    Memory.read b (Memory.write a x m) = if b = a then x else Memory.read b m := by
  induction m generalizing lo with
  | nil =>
    simp only [Memory.write]
    split <;> simp_all [Memory.read]
    grind
  | cons c t ih =>
    obtain ⟨e, y⟩ := c
    have ht : Memory.wfFrom (e + 1) t = true := by
      simp only [Memory.wfFrom, Bool.and_eq_true, decide_eq_true_eq] at h
      exact h.2
    have low := fun k (hk : k < e + 1) => Memory.read_below ht hk
    have := ih ht
    simp only [Memory.write]
    grind [Memory.read]

/-- A load after a store of one byte. -/
theorem Memory.read_write (a b : Nat) (x : Byte) {m : Memory} (h : Memory.wf m = true) :
    Memory.read b (Memory.write a x m) = if b = a then x else Memory.read b m :=
  Memory.read_write_from a b x h

/-- A load after a store of a byte string: the stored byte inside it, the old byte outside. -/
theorem Memory.read_writeBytes (off b : Nat) (l : List Byte) {m : Memory} (h : Memory.wf m = true) :
    Memory.read b (Memory.writeBytes off l m) =
      if off ≤ b ∧ b < off + l.length then l.getD (b - off) 0 else Memory.read b m := by
  induction l generalizing off m with
  | nil => rw [Memory.writeBytes, if_neg (by simp)]
  | cons x t ih =>
    rw [Memory.writeBytes, ih (off + 1) (Memory.wf_write off x h), Memory.read_write _ _ _ h]
    by_cases hb : b = off
    · subst hb
      simp
    · by_cases hi : off + 1 ≤ b ∧ b < off + 1 + t.length
      · rw [if_pos hi, if_pos (by simp only [List.length_cons]; omega)]
        obtain ⟨k, rfl⟩ : ∃ k, b = off + 1 + k := ⟨b - (off + 1), by omega⟩
        simp [show off + 1 + k - off = k + 1 by omega]
      · rw [if_neg hi, if_neg hb, if_neg (by simp only [List.length_cons]; omega)]

theorem Memory.read_mem {lo a : Nat} {x : Byte} {m : Memory} (h : Memory.wfFrom lo m = true)
    (ha : (a, x) ∈ m) : Memory.read a m = x ∧ x ≠ 0 ∧ lo ≤ a := by
  induction m generalizing lo with
  | nil => simp at ha
  | cons c t ih =>
    obtain ⟨b, y⟩ := c
    simp only [Memory.wfFrom, Bool.and_eq_true, decide_eq_true_eq] at h
    rcases List.mem_cons.1 ha with e | e
    · cases e
      exact ⟨by simp [Memory.read], h.1.2, h.1.1⟩
    · obtain ⟨h1, h2, h3⟩ := ih h.2 e
      refine ⟨?_, h2, by omega⟩
      simp only [Memory.read]
      rw [if_neg (by omega), if_neg (by omega), h1]

/-- Canonical buffers with the same bytes are the same data. -/
theorem Memory.ext_of_read {lo : Nat} {m n : Memory} (hm : Memory.wfFrom lo m = true)
    (hn : Memory.wfFrom lo n = true) (h : ∀ a, Memory.read a m = Memory.read a n) : m = n := by
  induction m generalizing lo n with
  | nil =>
    cases n with
    | nil => rfl
    | cons c t =>
      obtain ⟨h1, h2, -⟩ := Memory.read_mem (a := c.1) (x := c.2) hn (by simp)
      exact absurd (h1.symm.trans (h c.1).symm) h2
  | cons c t ih =>
    cases n with
    | nil =>
      obtain ⟨h1, h2, -⟩ := Memory.read_mem (a := c.1) (x := c.2) hm (by simp)
      exact absurd (h1.symm.trans (h c.1)) h2
    | cons d u =>
      obtain ⟨b, x⟩ := c
      obtain ⟨e, y⟩ := d
      have hm' := hm
      have hn' := hn
      simp only [Memory.wfFrom, Bool.and_eq_true, decide_eq_true_eq] at hm' hn'
      have hb := h b
      have he := h e
      simp only [Memory.read] at hb he
      have hbe : b = e := by
        rcases Nat.lt_trichotomy b e with hlt | heq | hgt
        · simp [hlt] at hb; exact absurd hb hm'.1.2
        · exact heq
        · simp [hgt] at he; exact absurd he.symm hn'.1.2
      subst hbe
      simp at hb
      subst hb
      have ht : t = u := ih hm'.2 hn'.2 (fun a => by
        by_cases ha : a < b + 1
        · rw [Memory.read_below hm'.2 ha, Memory.read_below hn'.2 ha]
        · have := h a
          simpa [Memory.read, show ¬ a < b by omega, show ¬ a = b by omega] using this)
      rw [ht]

theorem Memory.below_write {n a : Nat} (x : Byte) {m : Memory} (h : Memory.Below n m) (ha : a < n) :
    Memory.Below n (Memory.write a x m) := by
  intro c hc
  induction m with
  | nil => grind [Memory.write]
  | cons d t ih =>
    have ht : Memory.Below n t := fun c hc => h c (List.mem_cons_of_mem _ hc)
    have hd := h d List.mem_cons_self
    have := ih ht
    obtain ⟨b, y⟩ := d
    simp only [Memory.write] at hc
    grind [Memory.Below]

/-- A store inside the buffer lists no offset outside it. -/
theorem Memory.below_writeBytes {n off : Nat} {l : List Byte} {m : Memory} (h : Memory.Below n m)
    (ha : off + l.length ≤ n) : Memory.Below n (Memory.writeBytes off l m) := by
  induction l generalizing off m with
  | nil => exact h
  | cons x t ih =>
    simp only [List.length_cons] at ha
    exact ih (Memory.below_write x h (by omega)) (by omega)

@[simp] theorem Memory.length_readBytes (off n : Nat) (m : Memory) :
    (Memory.readBytes off n m).length = n := by simp [Memory.readBytes]

/-- Byte `k` of `MemRead`. -/
theorem Memory.getElem_readBytes {off n k : Nat} {m : Memory} (h : k < (Memory.readBytes off n m).length) :
    (Memory.readBytes off n m)[k] = Memory.read (off + k) m := by simp [Memory.readBytes]

/-- `MemRead` of what `MemWrite` stored. -/
theorem Memory.readBytes_writeBytes (off : Nat) (l : List Byte) {m : Memory} (h : Memory.wf m = true) :
    Memory.readBytes off l.length (Memory.writeBytes off l m) = l := by
  apply List.ext_getElem (by simp)
  intro k h1 h2
  rw [Memory.getElem_readBytes, Memory.read_writeBytes _ _ _ h, if_pos (by omega)]
  simp [h2]

/-- A bus store touches the four bytes of its word only (R55). -/
theorem Memory.read_writeBusWord (j b : Nat) (d : BusWord) {m : Memory} (h : Memory.wf m = true) :
    Memory.read b (Memory.writeBusWord m j d) =
      if 4 * j ≤ b ∧ b < 4 * j + 4 then (Word.ofBus d).get (b - 4 * j) else Memory.read b m := by
  rw [Memory.writeBusWord, Memory.read_writeBytes _ _ _ h]
  simp only [List.length_cons, List.length_nil]
  split
  · obtain ⟨k, hk⟩ : ∃ k, b - 4 * j = k := ⟨_, rfl⟩
    rw [hk]
    have : k = 0 ∨ k = 1 ∨ k = 2 ∨ k = 3 := by omega
    rcases this with rfl | rfl | rfl | rfl <;> simp [Word.get]
  · rfl

theorem Memory.wf_writeBusWord (j : Nat) (d : BusWord) {m : Memory} (h : Memory.wf m = true) :
    Memory.wf (Memory.writeBusWord m j d) = true := Memory.wf_writeBytes _ _ h

end Sys2Proof.Machine
end

