-- ==== Sys2Proof/Laws/PerInstr.lean ====
section
/-! SUPPORT. Statements made for every instruction as syntax, one lemma per constructor. -/

/-- The code of `i` decodes to `i` in every mode in which `i` can stand, and to no other row elsewhere. -/
def Sys2Proof.Laws.EncodingRoundTrip.Statement (i : Sys2Proof.Instr) : Prop :=
  ∀ m : Sys2Proof.Mode, (Sys2Proof.decode m (Sys2Proof.encode i)).toOption = some i ↔
    i.wellFormedIn m = true

namespace Sys2Proof.Laws.EncodingRoundTrip

open Sys2Proof

/-- Every mode, by cases: the five modes are all there are. -/
theorem of_modes {i : Instr}
    (h : [Mode.ecb, .cbc, .cfb, .ofb, .ctr].all
      (fun m => ((decode m (encode i)).toOption == some i) == i.wellFormedIn m) = true) :
    Statement i := by
  intro m
  simp only [List.all_cons, List.all_nil, Bool.and_true, Bool.and_eq_true, beq_iff_eq] at h
  obtain ⟨h1, h2, h3, h4, h5⟩ := h
  cases m
  · rw [← h1, beq_iff_eq]
  · rw [← h2, beq_iff_eq]
  · rw [← h3, beq_iff_eq]
  · rw [← h4, beq_iff_eq]
  · rw [← h5, beq_iff_eq]

theorem init : Statement .init := of_modes (by decide)

theorem encryptEcb : Statement .encryptEcb := of_modes (by decide)

theorem encryptCbc : Statement .encryptCbc := of_modes (by decide)

theorem encryptCfb : Statement .encryptCfb := of_modes (by decide)

theorem encryptOfb : Statement .encryptOfb := of_modes (by decide)

theorem encryptCtr : Statement .encryptCtr := of_modes (by decide)

theorem decryptEcb : Statement .decryptEcb := of_modes (by decide)

theorem decryptCbc : Statement .decryptCbc := of_modes (by decide)

theorem decryptCfb : Statement .decryptCfb := of_modes (by decide)

theorem decryptOfb : Statement .decryptOfb := of_modes (by decide)

theorem decryptCtr : Statement .decryptCtr := of_modes (by decide)

theorem ark : Statement .ark := of_modes (by decide)

theorem sb : Statement .sb := of_modes (by decide)

theorem sr : Statement .sr := of_modes (by decide)

theorem mc : Statement .mc := of_modes (by decide)

theorem isb : Statement .isb := of_modes (by decide)

theorem isr : Statement .isr := of_modes (by decide)

theorem imc : Statement .imc := of_modes (by decide)

theorem kexp : Statement .kexp := of_modes (by decide)

end Sys2Proof.Laws.EncodingRoundTrip
end

