-- ==== Sys2Proof/Laws/Sequencer.lean ====
section
/-! SUPPORT. Runs of the sequencer: the 56 micro-operations of a unit, a unit, the units of a command, the
52 KEXP steps (10_state.md R29, R30), and the bounds of a legal operation. -/

namespace Sys2Proof.Machine

/-! ### Runs -/

/-- A run of `a + b` steps is a run of `a`, then of `b`. -/
theorem seqSteps_add (a b : Nat) (s : State) : State.seqSteps (a + b) s =
    match State.seqSteps a s with
    | .next t => State.seqSteps b t
    | .fault f => .fault f
    | .refused r => .refused r := by
  induction a generalizing s with
  | zero => simp [State.seqSteps]
  | succ a ih =>
    rw [Nat.succ_add]
    simp only [State.seqSteps]
    cases s.seqStep with
    | next t => simp [ih]
    | fault f => simp
    | refused r => simp

/-- At rest the sequencer does nothing (R29). -/
theorem seqSteps_idle {s : State} (h : s.seq.phase = .idle) (k : Nat) : State.seqSteps k s = .next s := by
  induction k with
  | zero => rfl
  | succ k ih => simp [State.seqSteps, seqStep_idle h, ih]

/-- Two runs in a row. -/
theorem seqSteps_trans {a b : Nat} {s t : State} {o} (h : State.seqSteps a s = .next t)
    (h' : State.seqSteps b t = o) :
    State.seqSteps (a + b) s = o := by rw [seqSteps_add, h, ← h']

/-- One step as a run. -/
theorem seqSteps_one {s t : State} (h : s.seqStep = .next t) : State.seqSteps 1 s = .next t := by
  simp [State.seqSteps, h]

/-- A run that has come to rest may go on (R218). -/
theorem seqSteps_more {a k : Nat} {s t : State} (h : State.seqSteps a s = .next t)
    (ht : t.seq.phase = .idle)
    (hk : a ≤ k) : State.seqSteps k s = .next t := by
  obtain ⟨b, rfl⟩ := Nat.exists_eq_add_of_le hk
  exact seqSteps_trans h (seqSteps_idle ht b)

/-! ### The walk of a unit (R30) -/

/-- SEQ with the unit index put to 0: the walk does not look at it. -/
def Seq.zeroUnit (q : Seq) : Seq := { q with unit := 0 }

/-- The walk does not look at the unit index. -/
theorem walkNext_zeroUnit (c : BitVec 4) (q : Seq) : (q.walkNext c).zeroUnit = q.zeroUnit.walkNext c := by
  unfold Seq.walkNext
  split <;> (try split) <;> (try split) <;> (try split) <;> simp_all [Seq.zeroUnit]

/-- The walk keeps the unit index. -/
theorem walkNext_unit (c : BitVec 4) (q : Seq) : (q.walkNext c).unit = q.unit := by
  unfold Seq.walkNext
  split <;> (try split) <;> (try split) <;> (try split) <;> simp_all

/-- The walk keeps the direction. -/
theorem walkNext_dir (c : BitVec 4) (q : Seq) : (q.walkNext c).dir = q.dir := by
  unfold Seq.walkNext
  split <;> (try split) <;> (try split) <;> (try split) <;> simp_all

/-- SEQ after the micro-operation it names. -/
def Seq.advance (q : Seq) : Seq := q.walkNext q.uop

/-- The walk from any unit is the walk from unit 0. -/
theorem Seq.advance_iter_zeroUnit (j : Nat) (q : Seq) :
    (Seq.advance^[j] q).zeroUnit = Seq.advance^[j] q.zeroUnit := by
  induction j with
  | zero => rfl
  | succ j ih =>
    rw [Function.iterate_succ_apply', Function.iterate_succ_apply', ← ih]
    exact walkNext_zeroUnit _ _

/-- The whole walk keeps the unit index. -/
theorem Seq.advance_iter_unit (j : Nat) (q : Seq) : (Seq.advance^[j] q).unit = q.unit := by
  induction j generalizing q with
  | zero => rfl
  | succ j ih => rw [Function.iterate_succ_apply']; exact (walkNext_unit _ _).trans (ih q)

/-- Where the walk of a direction begins (R158). -/
def Seq.start (dir : Bool) : Seq := ⟨.round, 0, if dir then 14 else 0, 1, dir⟩

set_option maxRecDepth 10000 in
/-- Before its end the walk stands on the pairs R30 lists, one after another. -/
theorem walk_positions : ∀ dir : Bool, ∀ j < 56, (Seq.advance^[j] (Seq.start dir)).phase = .round ∧
    1 ≤ (Seq.advance^[j] (Seq.start dir)).uop.toNat ∧ (Seq.advance^[j] (Seq.start dir)).uop.toNat ≤ 7
    ∧ (walkOf dir)[j]? = some ((Seq.advance^[j] (Seq.start dir)).round.val,
      (Seq.advance^[j] (Seq.start dir)).uop) := by decide +kernel

/-- After 56 micro-operations the phase is STORE (R30). -/
theorem walk_end : ∀ dir : Bool, (Seq.advance^[56] (Seq.start dir)).phase = .store := by decide +kernel

/-- One micro-operation moves to the next pair of the walk, or from the last one to STORE (R30). -/
theorem walk_next : ∀ (dir : Bool) (r : Fin 15) (u : BitVec 4), (r.val, u) ∈ walkOf dir →
    (1 ≤ u.toNat ∧ u.toNat ≤ 7) ∧
    let q' := Seq.walkNext u ⟨.round, 0, r, u, dir⟩
    ((q'.phase = .round ∧ (q'.round.val, q'.uop) ∈ walkOf dir ∧ q'.uop ≠ 8
      ∧ (walkOf dir).idxOf (q'.round.val, q'.uop) = (walkOf dir).idxOf (r.val, u) + 1
      ∧ (walkOf dir).idxOf (r.val, u) + 1 < 56)
    ∨ (q'.phase = .store ∧ (walkOf dir).idxOf (r.val, u) = 55)) := by decide +kernel

/-- The codes 1 to 7. -/
theorem uop_cases {c : BitVec 4} (h : 1 ≤ c.toNat) (h' : c.toNat ≤ 7) :
    c = 1 ∨ c = 2 ∨ c = 3 ∨ c = 4 ∨ c = 5 ∨ c = 6 ∨ c = 7 := by
  have code : ∀ k : Nat, k < 16 → c.toNat = k → c = BitVec.ofNat 4 k := by
    intro k hk h
    apply BitVec.eq_of_toNat_eq
    simp [h, Nat.mod_eq_of_lt hk]
  have : c.toNat = 1 ∨ c.toNat = 2 ∨ c.toNat = 3 ∨ c.toNat = 4 ∨ c.toNat = 5
      ∨ c.toNat = 6 ∨ c.toNat = 7 := by omega
  rcases this with h | h | h | h | h | h | h <;> rw [code _ (by omega) h] <;> simp

/-- A micro-operation moves SEQ along the walk (R120). -/
theorem microStep_seq {s : State} (h : 1 ≤ s.seq.uop.toNat) (h' : s.seq.uop.toNat ≤ 7) :
    (microStep s).seq = Seq.advance s.seq := by
  unfold microStep Seq.advance
  rcases uop_cases h h' with e | e | e | e | e | e | e <;> rw [e] <;> rfl

/-- Codes 1 to 7 always have a next state (R120). -/
theorem runUop_micro {s : State} (h : 1 ≤ s.seq.uop.toNat) (h' : s.seq.uop.toNat ≤ 7) :
    s.runUop = .next (microStep s) := by
  unfold microStep State.runUop
  rcases uop_cases h h' with e | e | e | e | e | e | e <;> rw [e] <;> rfl

/-- The first `j` steps of a walk are `j` micro-operations. -/
theorem rounds {s : State} (dir : Bool) (h : s.seq.zeroUnit = Seq.start dir) (j : Nat) (hj : j ≤ 56) :
    State.seqSteps j s = .next (microStep^[j] s) ∧ (microStep^[j] s).seq = Seq.advance^[j] s.seq := by
  induction j with
  | zero => exact ⟨rfl, rfl⟩
  | succ j ih =>
    obtain ⟨h1, h2⟩ := ih (by omega)
    obtain ⟨p1, p2, p3, -⟩ := walk_positions dir j (by omega)
    have hz := Seq.advance_iter_zeroUnit j s.seq
    rw [h] at hz
    rw [← hz] at p1 p2 p3
    rw [← h2] at p1 p2 p3
    simp only [Seq.zeroUnit] at p1 p2 p3
    rw [Function.iterate_succ_apply', Function.iterate_succ_apply']
    constructor
    · refine seqSteps_trans h1 (seqSteps_one ?_)
      rw [seqStep_round p1, runUop_micro p2 p3]
    · rw [microStep_seq p2 p3, h2]

/-- The whole walk ends in STORE of the same unit. -/
theorem rounds_end {s : State} (dir : Bool) (h : s.seq.zeroUnit = Seq.start dir) :
    (microStep^[56] s).seq.phase = .store ∧ (microStep^[56] s).seq.unit = s.seq.unit := by
  obtain ⟨-, h2⟩ := rounds dir h 56 (le_refl _)
  have hz := Seq.advance_iter_zeroUnit 56 s.seq
  have hu := Seq.advance_iter_unit 56 s.seq
  have he := walk_end dir
  rw [h] at hz
  generalize microStep^[56] s = u at *
  generalize Seq.advance^[56] s.seq = q at *
  generalize Seq.advance^[56] (Seq.start dir) = q' at *
  subst h2 hz
  exact ⟨he, hu⟩

/-- LOAD puts SEQ at the start of the walk (R192). -/
theorem load_start (o : Op) (s : State) : (o.loadPhase s).seq.zeroUnit = Seq.start o.inverse := by
  simp [Op.loadPhase, Seq.zeroUnit, Seq.start]

/-! ### Units (R29) -/

/-- The command in progress and its operands are the same. -/
structure SameCmd (s t : State) : Prop where
  cfg : t.cfg = s.cfg
  stage : t.stage = s.stage
  cmd : t.cmd = s.cmd
  bufcap : t.bufcap = s.bufcap

/-- Reflexivity. -/
theorem SameCmd.refl (s : State) : SameCmd s s := ⟨rfl, rfl, rfl, rfl⟩

/-- Transitivity. -/
theorem SameCmd.trans {s t u : State} (h : SameCmd s t) (h' : SameCmd t u) : SameCmd s u :=
  ⟨h'.1.trans h.1, h'.2.trans h.2, h'.3.trans h.3, h'.4.trans h.4⟩

/-- The operation is the same. -/
theorem SameCmd.op {s t : State} (h : SameCmd s t) : t.currentOp = s.currentOp := by
  simp [State.currentOp, h.cfg, h.cmd]

/-- The checks look at nothing else (R213, R214, R216). -/
theorem check_congr {s t : State} (h : SameCmd s t) : t.currentOp.check t = s.currentOp.check s := by
  rw [h.op]
  simp [Op.check, State.encryptCheck, State.decryptCheck, h.cfg, h.stage, h.bufcap]

/-- A micro-operation keeps the command and its operands (R120). -/
theorem microStep_same (s : State) : SameCmd s (microStep s) := by
  unfold microStep
  split <;> exact ⟨rfl, rfl, rfl, rfl⟩

/-- So do many. -/
theorem microStep_iter_same (j : Nat) (s : State) : SameCmd s (microStep^[j] s) := by
  induction j with
  | zero => exact .refl s
  | succ j ih => rw [Function.iterate_succ_apply']; exact ih.trans (microStep_same _)

/-- STORE keeps them (R193). -/
theorem storePhase_same (o : Op) (s : State) : SameCmd s (o.storePhase s) := ⟨rfl, rfl, rfl, rfl⟩

/-- A unit keeps them. -/
theorem unitStep_same (o : Op) (s : State) : SameCmd s (o.unitStep s) := by
  have h1 : SameCmd s (o.loadPhase s) := ⟨rfl, rfl, rfl, rfl⟩
  have h2 := microStep_iter_same 56 (o.loadPhase s)
  unfold Op.unitStep
  generalize microStep^[56] (o.loadPhase s) = m at *
  exact (h1.trans h2).trans (storePhase_same _ _)

/-- A unit is 58 steps of the sequencer: LOAD, 56 ROUND, STORE. -/
theorem unit_small {s : State} {o : Op} (ho : s.currentOp = o) (hp : s.seq.phase = .load)
    (hb : s.seq.unit.toNat + 1 < 2 ^ 32) :
    State.seqSteps 58 s = .next (o.unitStep s) ∧ (o.unitStep s).seq.unit.toNat = s.seq.unit.toNat + 1
    ∧ (o.unitStep s).seq.phase
      = if s.seq.unit.toNat + 1 < o.units s.stage.lenIn.toNat then .load else .tail := by
  have h1 := load_start o s
  obtain ⟨h2, -⟩ := rounds _ h1 56 (le_refl _)
  obtain ⟨h3, h4⟩ := rounds_end _ h1
  have h5 := microStep_iter_same 56 (o.loadPhase s)
  have hu : o.unitStep s = o.storePhase (microStep^[56] (o.loadPhase s)) := rfl
  rw [hu]
  have hl : SameCmd s (o.loadPhase s) := ⟨rfl, rfl, rfl, rfl⟩
  have hl0 : s.seqStep = .next (o.loadPhase s) := by rw [seqStep_load hp, ho]
  have hld : (o.loadPhase s).seq.unit = s.seq.unit := rfl
  generalize o.loadPhase s = l at *
  generalize microStep^[56] l = m at *
  have hm := hl.trans h5
  refine ⟨?_, ?_, ?_⟩
  · refine seqSteps_trans (a := 1) (b := 57) (seqSteps_one (t := l) ?_) ?_
    · exact hl0
    · refine seqSteps_trans (a := 56) (b := 1) h2 (seqSteps_one ?_)
      rw [seqStep_store h3, hm.op, ho]
  · simp only [Op.storePhase, h4, hld]
    rw [BitVec.toNat_add]
    simp
    omega
  · simp only [Op.storePhase, h4, hld, hm.stage]

/-- The last `k` units are `58 * k` steps and end in TAIL. -/
theorem units_small {o : Op} (k : Nat) {s : State} (ho : s.currentOp = o) (hp : s.seq.phase = .load)
    (hk : s.seq.unit.toNat + k = o.units s.stage.lenIn.toNat) (hk0 : 0 < k)
    (hb : o.units s.stage.lenIn.toNat < 2 ^ 31) :
    State.seqSteps (58 * k) s = .next (o.unitStep^[k] s) ∧ (o.unitStep^[k] s).seq.phase = .tail
    ∧ SameCmd s (o.unitStep^[k] s) := by
  induction k generalizing s with
  | zero => omega
  | succ k ih =>
    obtain ⟨h1, h2, h3⟩ := unit_small ho hp (by omega)
    have hs := unitStep_same o s
    rw [Function.iterate_succ_apply]
    generalize o.unitStep s = u at *
    by_cases hk1 : k = 0
    · subst hk1
      rw [if_neg (by omega)] at h3
      exact ⟨h1, h3, hs⟩
    · rw [if_pos (by omega)] at h3
      obtain ⟨i1, i2, i3⟩ := ih (s := u) (hs.op.trans ho) h3 (by rw [hs.stage]; omega) (by omega)
        (by rw [hs.stage]; exact hb)
      refine ⟨?_, i2, hs.trans i3⟩
      rw [Nat.mul_succ, Nat.add_comm]
      exact seqSteps_trans h1 i1

/-- The last `k` words of the key schedule are `k` steps and end the command (R106). -/
theorem kexps (k : Nat) {s : State} (hp : s.seq.phase = .kexp) (hu : s.seq.uop = 8)
    (hk : s.seq.unit.toNat + k = 60) (h8 : 8 ≤ s.seq.unit.toNat) (hk0 : 0 < k) :
    State.seqSteps k s = .next (kexpStep^[k] s) ∧ (kexpStep^[k] s).seq.phase = .idle := by
  induction k generalizing s with
  | zero => omega
  | succ k ih =>
    have h1 : s.seqStep = .next (kexpStep s) := by
      rw [seqStep_kexp hp, State.runUop, hu]
      exact exec_kexp ⟨h8, by omega⟩
    rw [Function.iterate_succ_apply]
    have hadd : (s.seq.unit + 1).toNat = s.seq.unit.toNat + 1 := by
      rw [BitVec.toNat_add]; simp; omega
    by_cases hk1 : k = 0
    · subst hk1
      have : s.seq.unit = 59 := by
        apply BitVec.eq_of_toNat_eq; simp; omega
      refine ⟨seqSteps_one h1, ?_⟩
      simp [kexpStep, this]
    · have hne : s.seq.unit ≠ 59 := by
        rintro e
        rw [e] at hk
        simp at hk
        omega
      have hks : kexpStep s = { s with rk := scheduleWord s.rk s.seq.unit.toNat
                                       seq := { s.seq with unit := s.seq.unit + 1 } } := by
        rw [kexpStep]; exact if_neg hne
      have e1 : (kexpStep s).seq.phase = .kexp := by rw [hks]; exact hp
      have e2 : (kexpStep s).seq.uop = 8 := by rw [hks]; exact hu
      have e3 : (kexpStep s).seq.unit.toNat = s.seq.unit.toNat + 1 := by rw [hks]; exact hadd
      obtain ⟨i1, i2⟩ := ih (s := kexpStep s) e1 e2 (by omega) (by omega) (by omega)
      refine ⟨?_, i2⟩
      rw [Nat.add_comm]
      exact seqSteps_trans (seqSteps_one h1) i1

/-! ### Bounds (R31, R213) -/

/-- The number of units of at most `16 * c` bytes. -/
theorem ceil16_le {n c : Nat} (h : n ≤ 16 * c) : ceil16 n ≤ c := by unfold ceil16; omega

/-- BUFCAP is a multiple of 16 (R10). -/
theorem bufcap_mod (c : BufCap) : c.bytes = 16 * (4 + c.extra.val) := rfl

/-- A legal operation has at least one unit, and at most as many as fit. -/
theorem units_bounds {o : Op} {s : State} (h : o.check s = none) :
    1 ≤ o.units s.stage.lenIn.toNat ∧ o.units s.stage.lenIn.toNat ≤ s.bufcap.bytes / 16
    ∧ o.obase + o.total s.stage.lenIn.toNat ≤ s.bufcap.bytes + 16
    ∧ s.bufcap.bytes ≤ 65536 := by
  have hc := s.bufcap.extra.isLt
  have hb := bufcap_mod s.bufcap
  unfold Op.check at h
  obtain ⟨enc, m⟩ := o
  cases enc with
  | true =>
    simp only [if_true, State.encryptCheck] at h
    split at h
    · cases h
    · split at h
      · cases h
      · split at h
        · cases h
        · cases m <;> simp [Op.units, Op.total, Op.obase, Mode.padded, padCount, ceil16] <;> omega
  | false =>
    simp only [State.decryptCheck, Bool.false_eq_true, if_false] at h
    generalize s.stage.lenIn.toNat = n at *
    repeat' split at h
    all_goals first | (cases h; done) | skip
    cases m <;> simp [Op.units, Op.total, Op.obase, Op.ibase, Mode.padded, ceil16] at * <;> omega

/-- StripCount is at most 16 and at most the length (R176). -/
theorem stripCount_le (m : List Byte) : stripCount m ≤ m.length ∧ stripCount m ≤ 16 := by
  simp only [stripCount]
  split <;> omega

/-- A whole operation after its checks: HEAD, the units, TAIL. -/
theorem cipher_small {s : State} {o : Op} (ho : s.currentOp = o) (hp : s.seq.phase = .head)
    (hc : o.check s = none) :
    State.seqSteps (2 + 58 * o.units s.stage.lenIn.toNat) s = .next (o.run s)
    ∧ (o.run s).seq.phase = .idle := by
  obtain ⟨b1, b2, b3, b4⟩ := units_bounds hc
  have h0 : s.seqStep = .next (o.headPhase s) := by rw [seqStep_head hp, ho]
  have hs : SameCmd s (o.headPhase s) := ⟨rfl, rfl, rfl, rfl⟩
  have hu : (o.headPhase s).seq.unit.toNat = 0 := rfl
  obtain ⟨u1, u2, u3⟩ := units_small (o := o) (o.units s.stage.lenIn.toNat) (s := o.headPhase s)
    (hs.op.trans ho) rfl (by rw [hu, hs.stage]; omega) (by omega) (by rw [hs.stage]; omega)
  unfold Op.run
  generalize o.unitStep^[o.units s.stage.lenIn.toNat] (o.headPhase s) = w at *
  have : 2 + 58 * o.units s.stage.lenIn.toNat = 1 + (58 * o.units s.stage.lenIn.toNat + 1) := by omega
  rw [this]
  refine ⟨seqSteps_trans (seqSteps_one h0) (seqSteps_trans u1 (seqSteps_one ?_)), rfl⟩
  rw [seqStep_tail u2, u3.op, hs.op, ho]

end Sys2Proof.Machine
end

