-- ==== Sys2Proof/Tests/Slice0.lean ====
section
/-! SUPPORT. The model's own tests: well-formedness, decoding of written words, the spec's worked examples
(expected values from spec/, never from the model), and a witness for the hypotheses of each statement. -/

namespace Sys2Proof.Tests

open Sys2Proof Sys2Proof.Machine

set_option maxRecDepth 100000
set_option Elab.async false

/-! ### Helpers -/

/-- K1 of 43_modes.md: the ASCII bytes of `MySecretKey123456789012345678901`. -/
def k1 : Key :=
  ⟨Block.bytes128 0x4D795365637265744B65793132333435, Block.bytes128 0x36373839303132333435363738393031⟩

/-- IV1 of 43_modes.md. -/
def iv1 : Block := Block.bytes128 0x000102030405060708090A0B0C0D0E0F

/-- M1 of 43_modes.md: `Hello World!!!!!abcd`. -/
def m1 : List Byte :=
  (Block.bytes128 0x48656C6C6F20576F726C642121212121).toList ++ [0x61, 0x62, 0x63, 0x64]

/-- An instance (K1, mode, IV1) with `l` in IBUF and its length in LEN_IN. -/
def ready (m : Mode) (l : List Byte) : State :=
  { State.reset with
    cfg := ⟨k1, m, iv1, true, false⟩
    rk := keyExpansion k1
    stage := { Staging.reset with lenIn := BitVec.ofNat 32 l.length }
    ibuf := Memory.writeBytes 0 l [] }

/-- As `ready`, with the round-key file left at zero, where only lengths matter. -/
def lengths (m : Mode) (n : Nat) : State :=
  { State.reset with
    cfg := ⟨Key.zero, m, Block.zero, true, false⟩
    stage := { Staging.reset with lenIn := BitVec.ofNat 32 n } }

/-- Staging registers as INIT reads them. -/
def staged (keylen : BitVec 8) (mode : BitVec 3) (ivlen : BitVec 8) : State :=
  { State.reset with stage := ⟨k1, iv1, mode, keylen, ivlen, 0⟩ }

/-- A state in phase ROUND at a pair of the walk, with S and RK[0..3]. -/
def rounding (dir : Bool) (r : Fin 15) (u : BitVec 4) (s : Block) : State :=
  { State.reset with
    run := .busy
    seq := ⟨.round, 0, r, u, dir⟩
    rk := loadKeyWords k1 State.reset.rk
    dp := { Datapath.reset with s := s } }

/-- A state in phase KEXP at word `i` of a key whose words 0 to 7 are loaded. -/
def expanding (i : BitVec 32) : State :=
  { State.reset with
    run := .busy
    cfg := { Cfg.reset with key := k1 }
    seq := ⟨.kexp, i, 0, 8, false⟩
    rk := loadKeyWords k1 State.reset.rk }

/-- What a step leaves, where it leaves a next state. -/
def after (o : Host.Outcome State Fault Refusal) : Option State :=
  match o with
  | .next t => some t
  | .fault _ => none
  | .refused _ => none

/-- S after a micro-operation on S. -/
def sAfter (i : Instr) (s : Block) : Option Block :=
  (after (exec i (rounding false 0 1 s))).map fun t => t.dp.s

/-- STATE, ERR, and the result bytes after a command. -/
def outcome (i : Instr) (s : State) : Option (RunState × BusWord × List Byte × Nat) :=
  (after (exec i s)).map fun t => (t.run, t.err.word, t.result, t.trace.length)

/-! ### Well-formedness refuses -/

/-- R82: a mode-qualified command does not stand in another mode. -/
theorem test_wf_command_in_other_mode : Instr.encryptCbc.wellFormedIn .ecb = false := by decide

/-- R82: it stands in its own. -/
theorem test_wf_command_in_its_mode : Instr.encryptCbc.wellFormedIn .cbc = true := by decide

/-- R70: an offset that is no multiple of 4 is refused. -/
theorem test_wf_misaligned_line : BusLine.wellFormed ⟨true, 0x00002, 1⟩ = false := by decide

/-- R85: a read carries no data. -/
theorem test_wf_read_with_data : BusLine.wellFormed ⟨false, 0x00004, 1⟩ = false := by decide

/-! ### Decoding of words written out from R74 and R78 -/

/-- R74: OP 001 INIT. -/
theorem test_decode_init :
    decodeCmd .ctr 0b00000000000000000000000000000001#32 = .ok .init := by decide

/-- R74, R82: OP 010 ENCRYPT, selected by CFG.mode. -/
theorem test_decode_encrypt :
    [Mode.ecb, .cbc, .cfb, .ofb, .ctr].map
      (fun m => (decodeCmd m 0b00000000000000000000000000000010#32).toOption)
      = [some .encryptEcb, some .encryptCbc, some .encryptCfb, some .encryptOfb, some .encryptCtr] := by
  decide

/-- R74, R82: OP 011 DECRYPT, selected by CFG.mode. -/
theorem test_decode_decrypt :
    [Mode.ecb, .cbc, .cfb, .ofb, .ctr].map
      (fun m => (decodeCmd m 0b00000000000000000000000000000011#32).toOption)
      = [some .decryptEcb, some .decryptCbc, some .decryptCfb, some .decryptOfb, some .decryptCtr] := by
  decide

/-- R78: the eight micro-operation codes. -/
theorem test_decode_uops :
    [0b0001#4, 0b0010#4, 0b0011#4, 0b0100#4, 0b0101#4, 0b0110#4, 0b0111#4, 0b1000#4].map
      (fun c => (decodeUop c).toOption)
      = [some .ark, some .sb, some .sr, some .mc, some .isb, some .isr, some .imc, some .kexp] := by
  decide

/-- R74, R83: reserved OP values, and high bits with a good OP. -/
theorem test_decode_reserved :
    [0x0#32, 0x4#32, 0x5#32, 0x6#32, 0x7#32, 0x9#32, 0x80000002#32].all
      (fun d => (decodeCmd .ecb d).toOption == none) = true := by decide

/-- R78: codes never produced. -/
theorem test_decode_reserved_uops :
    [0#4, 9#4, 15#4].all (fun c => (decodeUop c).toOption == none) = true := by decide

/-- The host's numbering: a 32-bit row and a row of one byte. -/
theorem test_decode_table_words :
    decodeTableWord 32 1 = some .init ∧ decodeTableWord 8 8 = some .kexp
      ∧ decodeTableWord 8 0x18 = none ∧ decodeTableWord 32 0x100000001 = none := by decide

/-- A micro-operation placed by `withFetchWord` is what the next step runs (R78). -/
theorem test_fetch_uops :
    ([(1, .ark), (2, .sb), (3, .sr), (4, .mc), (5, .isb), (6, .isr), (7, .imc), (8, .kexp)]
      : List (Nat × Instr)).all (fun p =>
        let s := State.reset.withFetchWord 8 p.1
        (after (step s)).isSome && after (step s) == after (exec p.2 s)) = true := by decide +kernel

/-- A command word placed by `withFetchWord` is what the next step runs (R74). -/
theorem test_fetch_commands :
    ([(1, .init), (2, .encryptEcb), (3, .decryptEcb)] : List (Nat × Instr)).all (fun p =>
        let o := after (step (State.reset.withFetchWord 32 p.1))
        o.isSome && o == after (exec p.2 State.reset)) = true := by decide +kernel

/-! ### Micro-operations: the worked examples of R105 and R124 to R130 -/

/-- R124's example. -/
theorem test_ark : sAfter .ark (Block.bytes128 0x48656C6C6F20576F726C642121212121)
    = some (Block.bytes128 0x051C3F090C52321B39091D1013121514) := by decide +kernel

/-- R125's example. -/
theorem test_sb : sAfter .sb (Block.bytes128 0x051C3F090C52321B39091D1013121514)
    = some (Block.bytes128 0x6B9C7501FE0023AF1201A4CA7DC959FA) := by decide +kernel

/-- R126's first example. -/
theorem test_sr : sAfter .sr (Block.bytes128 0x000102030405060708090A0B0C0D0E0F)
    = some (Block.bytes128 0x00050A0F04090E03080D02070C01060B) := by decide +kernel

/-- R127's example. -/
theorem test_mc : sAfter .mc (Block.bytes128 0x6B00A4FAFE01590112C975AF7D9C23CA)
    = some (Block.bytes128 0x88662DF6BC164E43BEABDBCFACF1E2B7) := by decide +kernel

/-- R128's example. -/
theorem test_isb : sAfter .isb (Block.bytes128 0x6B9C7501FE0023AF1201A4CA7DC959FA)
    = some (Block.bytes128 0x051C3F090C52321B39091D1013121514) := by decide +kernel

/-- R129's first example. -/
theorem test_isr : sAfter .isr (Block.bytes128 0x000102030405060708090A0B0C0D0E0F)
    = some (Block.bytes128 0x000D0A0704010E0B0805020F0C090603) := by decide +kernel

/-- R130's example. -/
theorem test_imc : sAfter .imc (Block.bytes128 0x88662DF6BC164E43BEABDBCFACF1E2B7)
    = some (Block.bytes128 0x6B00A4FAFE01590112C975AF7D9C23CA) := by decide +kernel

/-- R105's example for i = 8: RotWord, SubWord and Rcon. -/
theorem test_kexp_8 : (after (exec .kexp (expanding 8))).map (fun t => rkWord t.rk 8)
    = some ⟨0x5E, 0x7D, 0x94, 0x62⟩ := by decide +kernel

/-- R105's example for i = 12: SubWord only. RK[4] and RK[11] are the example's. -/
theorem test_kexp_12 :
    (after (exec .kexp { expanding 12 with
      rk := (State.reset.rk.set 4 ⟨0x36, 0x37, 0x38, 0x39⟩).set 11 ⟨0x44, 0x59, 0xBC, 0x12⟩ })).map
        (fun t => rkWord t.rk 12)
    = some ⟨0x2D, 0xFC, 0x5D, 0xF0⟩ := by decide +kernel

/-! ### Commands: the worked examples of 43_modes.md and 44_commands.md -/

/-- R212's example: STATUS 0x06, RK[8], IV_CFG. -/
theorem test_init : (after (exec .init (staged 32 1 16))).map
      (fun t => (t.statusWord, t.err.word, rkWord t.rk 8, t.cfg.iv))
    = some (0x06, 0, ⟨0x5E, 0x7D, 0x94, 0x62⟩, iv1) := by decide +kernel

/-- R212's example with KEYLEN = 31: ERR 0x11, STATUS 0x03. -/
theorem test_init_keylen : (after (exec .init (staged 31 1 16))).map
      (fun t => (t.statusWord, t.err.word)) = some (0x03, 0x11) := by decide +kernel

/-- R214's example: 16 bytes in ECB, 79 records. -/
theorem test_encrypt_ecb :
    outcome .encryptEcb (ready .ecb (Block.bytes128 0x48656C6C6F20576F726C642121212121).toList)
      = some (.done, 0, (Block.bytes128 0x6BFF353D16C2A6DABDE0D1ADE205AFF5).toList, 79) := by
  decide +kernel

/-- R264's example: word 0 of the records 18, 20 and 76 of that command. -/
theorem test_trace_words :
    (after (exec .encryptEcb (ready .ecb (Block.bytes128 0x48656C6C6F20576F726C642121212121).toList))).map
      (fun t => [18, 20, 76].map fun i => (t.trace[i]?.map fun r => r.word 0))
      = some [some 0x00100005, some 0x00001007, some 0x10100008] := by decide +kernel

/-- R182's example. -/
theorem test_encrypt_cbc : outcome .encryptCbc (ready .cbc m1)
    = some (.done, 0, iv1.toList ++ (Block.bytes128 0x08676C781AEE849276557807593857B8).toList
        ++ (Block.bytes128 0xB9A4F19D9092E0E8D578DE122B7E06EC).toList, 138) := by decide +kernel

/-- R184's example. -/
theorem test_encrypt_cfb : outcome .encryptCfb (ready .cfb m1)
    = some (.done, 0, iv1.toList ++ (Block.bytes128 0x2BFA0089DDC7C51D1D48394B5B8F6E4B).toList
        ++ [0x62, 0xFA, 0x97, 0x8E], 138) := by decide +kernel

/-- R186's example. -/
theorem test_encrypt_ofb : outcome .encryptOfb (ready .ofb m1)
    = some (.done, 0, iv1.toList ++ (Block.bytes128 0x2BFA0089DDC7C51D1D48394B5B8F6E4B).toList
        ++ [0x78, 0xAE, 0x91, 0x60], 138) := by decide +kernel

/-- R188's example. -/
theorem test_encrypt_ctr : outcome .encryptCtr (ready .ctr m1)
    = some (.done, 0, iv1.toList ++ (Block.bytes128 0x2BFA0089DDC7C51D1D48394B5B8F6E4B).toList
        ++ [0xC0, 0xE6, 0x9F, 0xB1], 138) := by decide +kernel

/-- R181's example: padding of twelve 0C bytes is stripped. -/
theorem test_decrypt_ecb : outcome .decryptEcb (ready .ecb
      ((Block.bytes128 0x6BFF353D16C2A6DABDE0D1ADE205AFF5).toList
        ++ (Block.bytes128 0x9830C23FF167F2B3F94136F466A237EE).toList))
    = some (.done, 0, m1, 139) := by decide +kernel

/-- R183's example, with another CFG.iv: the frame's prefix is used (R179). -/
theorem test_decrypt_cbc :
    (let s := ready .cbc (iv1.toList ++ (Block.bytes128 0x08676C781AEE849276557807593857B8).toList
     ++ (Block.bytes128 0xB9A4F19D9092E0E8D578DE122B7E06EC).toList)
     outcome .decryptCbc { s with cfg := { s.cfg with iv := Block.zero } })
    = some (.done, 0, m1, 139) := by decide +kernel

/-- R185's example. -/
theorem test_decrypt_cfb : outcome .decryptCfb (ready .cfb
      (iv1.toList ++ (Block.bytes128 0x2BFA0089DDC7C51D1D48394B5B8F6E4B).toList
        ++ [0x62, 0xFA, 0x97, 0x8E]))
    = some (.done, 0, m1, 138) := by decide +kernel

/-- R187's example. -/
theorem test_decrypt_ofb : outcome .decryptOfb (ready .ofb
      (iv1.toList ++ (Block.bytes128 0x2BFA0089DDC7C51D1D48394B5B8F6E4B).toList
        ++ [0x78, 0xAE, 0x91, 0x60]))
    = some (.done, 0, m1, 138) := by decide +kernel

/-- R189's example. -/
theorem test_decrypt_ctr : outcome .decryptCtr (ready .ctr
      (iv1.toList ++ (Block.bytes128 0x2BFA0089DDC7C51D1D48394B5B8F6E4B).toList
        ++ [0xC0, 0xE6, 0x9F, 0xB1]))
    = some (.done, 0, m1, 138) := by decide +kernel

/-- R303's examples: CBC with LEN_IN 0, 16, 17; R216's with 40; R214's with 10. -/
theorem test_cipher_errors :
    [0, 16, 17, 40].map (fun n => (outcome .decryptCbc (lengths .cbc n)).map (fun x => x.2.1))
        = [some 0x22, some 0x32, some 0x42, some 0x42]
      ∧ (outcome .encryptEcb (lengths .ecb 10)).map (fun x => x.2.1) = some 0x12
      ∧ (outcome .encryptEcb State.reset).map (fun x => x.2.1) = some 0x24 := by decide +kernel

/-! ### The text layer: R271, R273, R272, R281 -/

/-- R281: the Base64 text of the 16-byte ECB frame. -/
theorem test_base64 :
    b64Encode (Block.bytes128 0x6BFF353D16C2A6DABDE0D1ADE205AFF5).toList
      = "a/81PRbCptq94NGt4gWv9Q==".toList ∧ b64Decode "not-base64!!".toList = none := by
  decide +kernel

/-- R271's example: é is C3 A9; R273: an overlong form and a stray continuation byte fail. -/
theorem test_utf8 : utf8Encode ['h', 'é'] = [0x68, 0xC3, 0xA9]
    ∧ utf8Decode [0xC0, 0x80] = none ∧ utf8Decode [0x80] = none := by decide +kernel

/-- R276 and R281: K_FINAL quotes the Base64 text after encryption. -/
theorem test_final_quote_encrypt :
    (after (exec .encryptEcb (ready .ecb (Block.bytes128 0x48656C6C6F20576F726C642121212121).toList))).bind
      finalQuote = some "a/81PRbCptq94NGt4gWv9Q==".toList := by decide +kernel

/-- R276 and R189: K_FINAL quotes the recovered text after decryption. -/
theorem test_final_quote_decrypt :
    (after (exec .decryptCtr (ready .ctr
      (iv1.toList ++ (Block.bytes128 0x2BFA0089DDC7C51D1D48394B5B8F6E4B).toList
        ++ [0xC0, 0xE6, 0x9F, 0xB1])))).bind finalQuote = some "Hello World!!!!!abcd".toList := by
  decide +kernel

/-! ### Witnesses for the hypotheses of the statements -/

/-- DecodeExactlyEncoded: both sides of a pair that decodes, and a pair whose mode differs. -/
theorem witness_DecodeExactlyEncoded :
    decode .cbc (.cmd 2) = .ok .encryptCbc ∧ encode .encryptCbc = .cmd 2
      ∧ decode .ctr (encode .encryptCbc) ≠ .ok .encryptCbc := by decide

/-- FieldOfBytes: a byte that is not 0. -/
theorem witness_FieldOfBytes : (0x53 : Byte) ≠ 0 ∧ gmul 0x53 0xCA = 1 := by decide +kernel

/-- MixColumnsResults: pairs of the walks with MC and with IMC. -/
theorem witness_MixColumnsResults :
    ((13, 4) : Nat × BitVec 4) ∈ walkOf false ++ walkOf true
      ∧ ((13, 7) : Nat × BitVec 4) ∈ walkOf false ++ walkOf true := by decide +kernel

/-- KeyExpansionRecurrence: the words of a key's expansion, at the last index. -/
theorem witness_KeyExpansionRecurrence :
    ∃ w : Nat → Word, (∀ i, w i = rkWord (keyExpansion k1) i) ∧ 8 ≤ 59 ∧ 59 < 60 :=
  ⟨_, fun _ => rfl, by decide, by decide⟩

/-- Base64RoundTrip and Utf8RoundTrip: texts and bytes that decode. -/
theorem witness_TextRoundTrips :
    b64Decode "AA==".toList = some [0] ∧ utf8Decode [0xC3, 0xA9] = some ['é'] := by decide +kernel

/-- BusLineRoundTrip: an access with a line, and a well-formed line, at the ends of the space. -/
theorem witness_BusLineRoundTrip :
    Input.encode (.write 0x3FFFF 7) = some ⟨true, 0xFFFFC, 7⟩
      ∧ BusLine.wellFormed ⟨false, 0x00000, 0⟩ = true := by decide

/-- A state whose next input is the write of `d` to CMD, then `rest`. -/
def commanding (d : BusWord) (rest : List Input) : State :=
  { State.reset with inputs := .write cmdAddr d :: rest }

/-- StepRunsDecodedCommand: both clauses. -/
theorem witness_StepRunsDecodedCommand :
    (commanding 2 []).rst = false ∧ (commanding 2 []).run ≠ .busy ∧ hostWaits [] = true
      ∧ decodeCmd (commanding 2 []).cfg.mode 2 = .ok .encryptEcb
      ∧ hostWaits [.seq] = false := by decide

/-- R341, R350: after the CMD write of a host that does not wait, its next access comes before CHECK. -/
theorem test_access_before_check :
    (after (step (commanding 0 [.seq, .write 3 1]))).map (fun t => (t.run, t.seq.phase, t.inputs))
      = some (.busy, .check, [.write 3 1]) := by decide

/-- StepRunsDecodedMicroOp: phase ROUND, and phase KEXP. -/
theorem witness_StepRunsDecodedMicroOp :
    ((rounding false 1 2 Block.zero).run = .busy ∧ (rounding false 1 2 Block.zero).seq.phase = .round
      ∧ decodeUop (rounding false 1 2 Block.zero).seq.uop = .ok .sb
      ∧ (rounding false 1 2 Block.zero).inputs = [])
    ∧ (expanding 8).run = .busy ∧ (expanding 8).seq.phase = .kexp
      ∧ decodeUop (expanding 8).seq.uop = .ok .kexp := by decide +kernel

/-- BadCommandWordRaises: a reserved OP, and a high bit with a good OP. -/
theorem witness_BadCommandWordRaises :
    (BitVec.extractLsb' 0 3 (4 : BusWord)).toNat ∈ [0, 4, 5, 6, 7]
      ∧ BitVec.extractLsb' 3 29 (0x9 : BusWord) ≠ 0 ∧ (commanding 4 []).run ≠ .busy
      ∧ (commanding 4 []).rst = false ∧ hostWaits [] = true := by decide

/-- RestingCoreWaits. -/
theorem witness_RestingCoreWaits : State.reset.inputs = [] ∧ State.reset.run ≠ .busy := by decide

/-- ResetInputEntersReset: a busy state where RST rises, and each access while it is asserted. -/
theorem witness_ResetInputEntersReset :
    { expanding 8 with inputs := [.rst true] }.inputs = .rst true :: []
      ∧ { State.reset with rst := true, inputs := [.write 0 1] }.rst = true
      ∧ { State.reset with rst := true, inputs := [.read 0] }.inputs = .read 0 :: []
      ∧ { State.reset with rst := true, inputs := [.rst false] }.inputs = .rst false :: [] := by
  decide

/-- A state whose next input reads the word at `a`. -/
def reading (a : WordAddr) : State := { State.reset with inputs := [.read a] }

/-- ReadValues: the first and last word of every window and of every reserved range with BUFCAP = 256,
each in one clause only. -/
theorem witness_ReadValues :
    ([0x00, 0x01, 0x09, 0x0A, 0x0F, 0x10, 0x17, 0x18, 0x1B, 0x1C, 0x1F, 0x20, 0x27, 0x28, 0x3F, 0x40,
        0x7B, 0x7C, 0x3FFF, 0x4000, 0x403F, 0x4040, 0x7FFF, 0x8000, 0x8047, 0x8048, 0x3FFFF]
      : List WordAddr).map (locate BufCap.vectors)
      = [.cmd, .status, .trcSel, .reserved, .reserved, .keyIn 0, .keyIn 7, .ivIn 0, .ivIn 3, .ivCfg 0,
         .ivCfg 3, .trcRec 0, .trcRec 7, .reserved, .reserved, .rk 0, .rk 59, .reserved, .reserved,
         .ibuf 0, .ibuf 63, .reserved, .reserved, .obuf 0, .obuf 71, .reserved, .reserved]
      ∧ (reading 0x3FFFF).inputs = [.read 0x3FFFF] ∧ (reading 0).rst = false
      ∧ (reading 0).run ≠ .busy := by decide +kernel

/-- ReadValues: a record selected, and none; the windows with an instance. -/
theorem witness_ReadValues_clauses :
    ({ ready .ecb [] with trace := [recKey State.reset.rk 0] }.trace[State.reset.trcSel.toNat]?
        = some (recKey State.reset.rk 0))
      ∧ State.reset.trace.length ≤ State.reset.trcSel.toNat ∧ (ready .ecb []).cfg.valid = true := by
  decide +kernel

/-- ReadsHaveNoEffect: two reads of a word of RK with an instance, both with a next state. -/
theorem witness_ReadsHaveNoEffect :
    ∃ t u, (let s := { lengths .ecb 0 with inputs := [.read 0x7B, .read 0x7B] }
            s.rst = false ∧ s.run ≠ .busy ∧ s.cfg.valid = true ∧ step s = .next t ∧ step t = .next u) :=
  ⟨_, _, rfl, by decide, rfl, rfl, rfl⟩

/-- ReadsHaveNoEffect: two reads of STATUS while BUSY, outside both windows and without an instance. -/
theorem witness_ReadsHaveNoEffect_busy :
    ∃ t u, (let s := { expanding 8 with inputs := [.read statusAddr, .read statusAddr] }
            s.rst = false ∧ s.run = .busy ∧ s.cfg.valid = false ∧ step s = .next t
              ∧ step t = .next u) :=
  ⟨_, _, rfl, rfl, rfl, rfl, rfl⟩

/-- WritesStore: canonical IBUF; the ends of each range are those of witness_ReadValues. -/
theorem witness_WritesStore :
    (let s := { State.reset with inputs := [.write 0x4000 7] }
     s.rst = false ∧ s.run ≠ .busy ∧ Memory.wf s.ibuf = true
       ∧ (0x4000 : WordAddr).toNat = 0x10000 / 4 + 0 ∧ 0 < s.bufcap.bytes / 4
       ∧ (0x403F : WordAddr).toNat = 0x10000 / 4 + 63 ∧ 63 < s.bufcap.bytes / 4) := by
  decide +kernel

/-- BusyAccesses: a busy state, an access of each kind, and a step that keeps HZD. -/
theorem witness_BusyAccesses :
    (expanding 8).run = .busy ∧ (expanding 8).rst = false
      ∧ { expanding 8 with inputs := [.write 0 1] }.inputs = .write 0 1 :: []
      ∧ { expanding 8 with inputs := [.read 2] }.inputs = .read 2 :: []
      ∧ { expanding 8 with inputs := [.read statusAddr] }.inputs = .read statusAddr :: [] := by
  decide

/-- BusyAccesses, second part: HZD set before, and HZD set by the step. -/
theorem witness_BusyAccesses_hzd :
    (∃ t, step { State.reset with hzd := true } = .next t)
      ∧ ∃ t, step { expanding 8 with inputs := [.write 0 1] } = .next t ∧ t.hzd = true :=
  ⟨⟨_, rfl⟩, _, rfl, rfl⟩

/-- KexpResult: the first and the last word index, and one with each branch. -/
theorem witness_KexpResult :
    [8, 11, 12, 56, 59].map (fun n : Nat => (expanding (BitVec.ofNat 32 n)).seq.unit.toNat)
      = [8, 11, 12, 56, 59] := by decide +kernel

/-- KexpOutsideStops: either side of the range. -/
theorem witness_KexpOutsideStops :
    (expanding 7).seq.unit.toNat < 8 ∧ 59 < (expanding 60).seq.unit.toNat := by decide +kernel

/-- WalkOrder: the first, a middle and the last position in both directions. -/
theorem witness_WalkOrder :
    (walkOf false)[0]? = some (0, 1) ∧ (walkOf false)[3]? = some (1, 4)
      ∧ (walkOf false)[55]? = some (14, 1) ∧ (walkOf true)[0]? = some (14, 1)
      ∧ (walkOf true)[55]? = some (0, 1)
      ∧ (rounding false 0 1 Block.zero).seq.phase = .round := by decide +kernel

/-- WalkComputesCipher: both directions. -/
theorem witness_WalkComputesCipher :
    (let s := rounding false 0 1 Block.zero
     s.seq.phase = .round ∧ s.seq.uop = 1 ∧ s.seq.round = (if s.seq.dir then 14 else 0))
    ∧ (let s := rounding true 14 1 Block.zero
       s.seq.phase = .round ∧ s.seq.uop = 1 ∧ s.seq.round = (if s.seq.dir then 14 else 0)) := by
  decide

/-- A state at LOAD (or another phase) of unit `i` of a command. -/
def atUnit (ph : Phase) (m : Mode) (cmd : BusWord) (n : Nat) (i : BitVec 32) : State :=
  { lengths m n with run := .busy, cmd := cmd, seq := ⟨ph, i, 0, 0, false⟩ }

/-- LoadResult: the last unit of a short message, in a padded and a stream mode, both directions. -/
theorem witness_LoadResult :
    (let s := atUnit .load .ctr 2 17 1
     s.seq.phase = .load ∧ 16 * s.seq.unit.toNat < s.currentOp.total s.stage.lenIn.toNat)
    ∧ (let s := atUnit .load .cbc 3 32 0
       s.seq.phase = .load ∧ 16 * s.seq.unit.toNat < s.currentOp.total s.stage.lenIn.toNat) := by
  decide +kernel

/-- HeadResult and TailResult: ECB, and another mode, in both directions. -/
theorem witness_HeadResult_TailResult :
    ([(.ecb, 2), (.cbc, 2), (.cbc, 3), (.ctr, 3)] : List (Mode × BusWord)).all (fun p =>
      (atUnit .head p.1 p.2 48 0).seq.phase == .head && Memory.wf (atUnit .head p.1 p.2 48 0).obuf
        && (atUnit .tail p.1 p.2 48 0).seq.phase == .tail) = true := by decide +kernel

/-- StoreResult: each clause's mode and direction. -/
theorem witness_StoreResult :
    ([(.ecb, 2), (.cbc, 2), (.cbc, 3), (.cfb, 2), (.cfb, 3), (.ofb, 3), (.ctr, 2)]
      : List (Mode × BusWord)).all (fun p =>
        let s := atUnit .store p.1 p.2 33 1
        s.seq.phase == .store && decide (s.dp.ulen.toNat ≤ 16)
          && decide (s.seq.unit.toNat + 1 < 2 ^ 32) && Memory.wf s.obuf) = true := by decide +kernel

/-- InitResult: ECB; a supplied IV; a generated IV with a value at the port. -/
theorem witness_InitResult :
    (staged 32 0 7).InitLegal ∧ (staged 32 4 16).InitLegal
      ∧ { staged 32 1 0 with rnd := [iv1] }.InitLegal :=
  ⟨⟨rfl, by decide, .inl rfl⟩, ⟨rfl, by decide, .inr (.inr rfl)⟩, ⟨rfl, by decide, .inr (.inl rfl)⟩⟩

/-- InitErrors: each clause. -/
theorem witness_InitErrors :
    (staged 31 7 3).stage.keylen ≠ 32
      ∧ ((staged 32 5 3).stage.keylen = 32 ∧ 4 < (staged 32 5 3).stage.mode.toNat)
      ∧ ((staged 32 4 15).stage.mode.toNat ≤ 4 ∧ (staged 32 4 15).stage.mode ≠ 0
        ∧ (staged 32 4 15).stage.ivlen ≠ 0 ∧ (staged 32 4 15).stage.ivlen ≠ 16) := by decide +kernel

/-- EncryptErrors and DecryptErrors: each clause at a boundary; the last two at 17. -/
theorem witness_CipherErrors :
    State.reset.cfg.valid = false
      ∧ (lengths .ecb 257).bufcap.bytes < (lengths .ecb 257).stage.lenIn.toNat
      ∧ (lengths .ecb 15).stage.lenIn.toNat < 16
      ∧ (lengths .ecb 0).stage.lenIn.toNat = 0
      ∧ (0 < (lengths .ctr 16).stage.lenIn.toNat ∧ (lengths .ctr 16).stage.lenIn.toNat < 17)
      ∧ (lengths .ecb 255).stage.lenIn.toNat % 16 ≠ 0
      ∧ (17 ≤ (lengths .cbc 17).stage.lenIn.toNat ∧ (lengths .cbc 17).stage.lenIn.toNat % 16 ≠ 0)
      ∧ (lengths .cbc 17).stage.lenIn.toNat ≤ (lengths .cbc 17).bufcap.bytes := by decide +kernel

/-- ErrorsArePrecise, TraceOrder and TraceLengths: a command and a reserved word that end in ERROR. -/
theorem witness_ErrorsArePrecise :
    State.reset.seq.phase = .idle
      ∧ (∃ t, State.runCommand 2 State.reset = .next t ∧ t.run = .error)
      ∧ (∃ t, State.runCommand 1 State.reset = .next t ∧ t.run = .error)
      ∧ ∃ t, State.runCommand 9 State.reset = .next t ∧ t.run = .error :=
  ⟨rfl, ⟨_, rfl, rfl⟩, ⟨_, rfl, rfl⟩, _, rfl, rfl⟩

/-- TraceOrder and TraceLengths, the clause about INIT: an INIT with a next state. -/
theorem witness_TraceOrder_init : ∃ t, exec .init State.reset = .next t := ⟨_, rfl⟩

/-- SmallStepsRefineCommands: enough steps for INIT, and for any other word. -/
theorem witness_SmallSteps :
    (if (1 : BusWord) = 1 then 53 else 3 + 58 * (State.reset.bufcap.bytes / 16)) ≤ 53
      ∧ (if (2 : BusWord) = 1 then 53 else 3 + 58 * (State.reset.bufcap.bytes / 16)) ≤ 931 := by
  decide

/-- LengthLaws and the results of ENCRYPT: the shortest and the longest message. -/
theorem witness_EncryptLegal :
    (lengths .ecb 16).EncryptLegal ∧ (lengths .ctr 256).EncryptLegal :=
  ⟨⟨rfl, by decide, by decide⟩, ⟨rfl, by decide, by decide⟩⟩

/-- LengthLaws and the results of DECRYPT: the shortest frame of each kind of mode. -/
theorem witness_DecryptLegal :
    (lengths .ecb 16).DecryptLegal .ecb ∧ (lengths .cbc 32).DecryptLegal .cbc
      ∧ (lengths .cfb 17).DecryptLegal .cfb ∧ (lengths .ofb 256).DecryptLegal .ofb
      ∧ (lengths .ctr 17).DecryptLegal .ctr :=
  ⟨⟨rfl, by decide, by decide⟩, ⟨rfl, by decide, by decide⟩, ⟨rfl, by decide, by decide⟩,
    ⟨rfl, by decide, by decide⟩, ⟨rfl, by decide, by decide⟩⟩

/-- EncryptResult and DecryptResult: an instance whose RK is the expansion of its key. -/
theorem witness_Results :
    (ready .cbc m1).rk = keyExpansion (ready .cbc m1).cfg.key ∧ (ready .cbc m1).cfg.mode = .cbc
      ∧ Memory.wf (ready .cbc m1).obuf = true := ⟨rfl, rfl, rfl⟩

/-- EncryptResult's and DecryptResult's other hypotheses at the same states. -/
theorem witness_Results_legal :
    (ready .cbc m1).EncryptLegal ∧ (ready .cbc (iv1.toList ++ iv1.toList)).DecryptLegal .cbc :=
  ⟨⟨rfl, by decide, by decide⟩, ⟨rfl, by decide, by decide⟩⟩

/-- CipherFrame, CommandsKeepHostRegisters, TraceQuotesWhatHappened: a canonical OBUF, an operation that
is legal, an instruction with a next state. -/
theorem witness_Frames :
    Memory.wf (lengths .cbc 32).obuf = true ∧ (Op.mk false .cbc).Legal (lengths .cbc 32)
      ∧ (Op.mk true .cbc).Legal (lengths .cbc 32) ∧ ∃ t, exec .sb State.reset = .next t :=
  ⟨rfl, ⟨rfl, by decide, by decide⟩, ⟨rfl, by decide, by decide⟩, _, rfl⟩

/-- NothingCarriesOver: two states that differ in S, OBUF, LEN_OUT and IBUF past LEN_IN. -/
theorem witness_NothingCarriesOver :
    (let s := lengths .ctr 16
     let u := { s with
       dp := { s.dp with s := iv1 }, obuf := [(3, 7)], lenOut := 5, ibuf := [(16, 9)] }
     s.cfg = u.cfg ∧ s.rk = u.rk ∧ s.stage.lenIn = u.stage.lenIn ∧ s.bufcap = u.bufcap
       ∧ Memory.readBytes 0 s.stage.lenIn.toNat s.ibuf = Memory.readBytes 0 s.stage.lenIn.toNat u.ibuf
       ∧ Memory.wf s.obuf = true ∧ Memory.wf u.obuf = true) := by decide +kernel

/-- PaddingLaws and RoundTripLaw: an aligned and an unaligned message; a valid pattern, and none. -/
theorem witness_PaddingLaws :
    16 ≤ (List.replicate 16 (0x02 : Byte)).length ∧ (List.replicate 16 (0x02 : Byte)).length % 16 = 0
      ∧ 16 ≤ m1.length ∧ m1.length % 16 ≠ 0
      ∧ List.replicate 16 (0x02 : Byte)
          = List.replicate 14 0x02 ++ List.replicate (BitVec.toNat (0x02 : Byte)) 0x02
      ∧ ¬ (1 ≤ BitVec.toNat (0x64 : Byte) ∧ BitVec.toNat (0x64 : Byte) ≤ 16) := by decide +kernel

/-- OnlyInitWritesCfg: a step that changes CFG. -/
theorem witness_OnlyInitWritesCfg :
    ∃ t, step { lengths .ecb 16 with inputs := [.rst true] } = .next t
      ∧ t.cfg ≠ (lengths .ecb 16).cfg := ⟨_, rfl, by decide⟩

/-- TraceOnlyGrows: an accepted CMD write whose step is the prologue alone, with a trace before it. -/
theorem witness_TraceOnlyGrows_prologue :
    ∃ t, (let s := { commanding 2 [.seq] with trace := [recKey State.reset.rk 0] }
          s.run ≠ .busy ∧ s.rst = false ∧ hostWaits [.seq] = false ∧ step s = .next t) :=
  ⟨_, by decide, rfl, rfl, rfl⟩

/-- TraceOnlyGrows: steps of all three kinds. -/
theorem witness_TraceOnlyGrows :
    (∃ t, step State.reset = .next t) ∧ (∃ t, step (commanding 0 []) = .next t)
      ∧ ∃ t, step { State.reset with inputs := [.rst true] } = .next t :=
  ⟨⟨_, rfl⟩, ⟨_, rfl⟩, _, rfl⟩

/-- The words of `expanding 8` are those of the expansion, as far as they are there. -/
theorem expanding_words : ∀ j < 8, rkWord (expanding 8).rk j = rkWord (keyExpansion k1) j := by
  decide +kernel

/-- StepKeepsKeySchedule: an instance at rest, and a key being expanded at its first word. -/
theorem witness_KeyScheduleOk : (ready .cbc m1).KeyScheduleOk ∧ (expanding 8).KeyScheduleOk :=
  ⟨⟨fun _ => rfl, nofun, nofun, nofun, nofun, nofun⟩,
    ⟨nofun, fun _ => rfl, fun _ => rfl, fun _ => by decide, fun _ => expanding_words, nofun⟩⟩

/-- StepKeepsInvariant and CoreNeverStops: a state in the middle of INIT, with a next state. -/
theorem witness_Inv : (expanding 8).Inv ∧ ∃ t, step (expanding 8) = .next t :=
  ⟨{ buffers := ⟨rfl, rfl⟩
     status := ⟨by decide, by decide, nofun⟩
     keySchedule := witness_KeyScheduleOk.2
     onWalk := nofun
     command := ⟨fun _ => rfl, fun _ => rfl, nofun, nofun, nofun, nofun, nofun⟩
     fits := ⟨nofun, nofun, by decide, by decide, fun _ => rfl, .inl rfl⟩ }, _, rfl⟩

/-- StepKeepsBuffersCanonical: both buffers with bytes. -/
theorem witness_BuffersCanonical :
    { State.reset with ibuf := [(0, 1), (5, 2)], obuf := [(287, 3)] }.BuffersCanonical :=
  ⟨by decide, by decide⟩

end Sys2Proof.Tests
end

section
/-! SUPPORT. A whole command is the run of the sequencer from its prologue (R62, R220), and what every step
keeps follows from what each of its cases keeps. -/

namespace Sys2Proof.Machine

/-! ### A command as small steps -/

/-- A whole cipher command by its operation (R214, R216): prologue, checks, then HEAD, the units, TAIL. -/
def Op.command (o : Op) (s : State) : State :=
  match o.check (s.prologue (if o.enc then 2 else 3)) with
  | some e => (s.prologue (if o.enc then 2 else 3)).raise e
  | none => o.run (s.prologue (if o.enc then 2 else 3))

/-- The row of an operation runs its whole command. -/
theorem exec_instr (o : Op) (s : State) : exec o.instr s = .next (o.command s) := by
  obtain ⟨enc, m⟩ := o
  cases enc with
  | true => exact exec_encryptOf m s
  | false => exact exec_decryptOf m s

/-- CHECK of an accepted ENCRYPT or DECRYPT is the operation's own check (R29). -/
theorem checkPhase_cipher {s : State} (hc : s.cmd = 2 ∨ s.cmd = 3) :
    s.checkPhase = s.checkCipher s.currentOp := by
  unfold State.checkPhase State.currentOp
  rcases hc with hc | hc
  · rw [hc, decodeCmd_ok_iff.2 (.inr (.inl ⟨rfl, rfl⟩))]
    cases s.cfg.mode <;> rfl
  · rw [hc, decodeCmd_ok_iff.2 (.inr (.inr ⟨rfl, rfl⟩))]
    cases s.cfg.mode <;> rfl

/-- CHECK of an accepted INIT is INIT's own (R212). -/
theorem checkPhase_init {s : State} (hc : s.cmd = 1) : s.checkPhase = s.checkInit := by
  rw [State.checkPhase, hc, decodeCmd_ok_iff.2 (.inl ⟨rfl, rfl⟩)]
  rfl

/-- HEAD writes SEQ.phase, so the operation does not look at it (R194). -/
theorem Op.run_setPhase (o : Op) (s : State) (p : Phase) :
    o.run { s with seq := { s.seq with phase := p } } = o.run s := by
  have h : o.headPhase { s with seq := { s.seq with phase := p } } = o.headPhase s := rfl
  rw [Op.run, h, Op.run]

/-- A cipher command in the mode of CFG is its small steps. -/
theorem Op.command_small {o : Op} {s : State} (hm : o.mode = s.cfg.mode) :
    ∃ k ≤ 3 + 58 * (s.bufcap.bytes / 16),
      State.seqSteps k (s.prologue (if o.enc then 2 else 3)) = .next (o.command s)
      ∧ (o.command s).seq.phase = .idle := by
  unfold Op.command
  generalize hp : s.prologue (if o.enc then 2 else 3) = p
  have hcmd : p.cmd = if o.enc then 2 else 3 := by rw [← hp]; rfl
  have hcap : p.bufcap = s.bufcap := by rw [← hp]; rfl
  have hop : p.currentOp = o := by
    have hmode : p.cfg.mode = o.mode := by rw [← hp]; exact hm.symm
    obtain ⟨enc, m⟩ := o
    cases enc <;> simp_all [State.currentOp]
  have hcheck : p.seqStep = .next (p.checkCipher o) := by
    rw [seqStep_check (by rw [← hp]; rfl), checkPhase_cipher (by rw [hcmd]; split <;> simp), hop]
  cases hc : o.check p with
  | some e =>
    refine ⟨1, by omega, seqSteps_one ?_, rfl⟩
    rw [hcheck, State.checkCipher, hc]
  | none =>
    simp only [State.checkCipher, hc] at hcheck
    have hsame : SameCmd p { p with seq := { p.seq with phase := .head } } := ⟨rfl, rfl, rfl, rfl⟩
    have hlegal := check_congr hsame
    rw [hsame.op, hop] at hlegal
    obtain ⟨hrun, hidle⟩ := cipher_small (hsame.op.trans hop) rfl (hlegal.trans hc)
    rw [Op.run_setPhase] at hrun hidle
    obtain ⟨-, hunits, -⟩ := units_bounds hc
    refine ⟨_, ?_, seqSteps_trans (seqSteps_one hcheck) hrun, hidle⟩
    rw [hcap] at hunits
    show 1 + (2 + 58 * o.units p.stage.lenIn.toNat) ≤ _
    omega

/-- INIT is its small steps (R212, R106). -/
theorem initRun_small (s : State) :
    ∃ k ≤ 53, State.seqSteps k (s.prologue 1) = .next (initRun s)
      ∧ (initRun s).seq.phase = .idle := by
  have hcheck : (s.prologue 1).seqStep = .next (s.prologue 1).checkInit := by
    rw [seqStep_check rfl, checkPhase_init rfl]
  have hopen : { s.prologue 1 with cfg := { s.cfg with valid := false } } = s.initOpen := rfl
  simp only [State.checkInit, State.prologue_cfg, hopen] at hcheck
  unfold initRun
  cases hc : s.initOpen.initCheck with
  | some e =>
    rw [hc] at hcheck
    exact ⟨1, by omega, seqSteps_one hcheck, rfl⟩
  | none =>
    rw [hc] at hcheck
    have hunit : s.initOpen.initLatch.seq.unit.toNat = 8 := rfl
    obtain ⟨hrun, hidle⟩ := kexps 52 (s := s.initOpen.initLatch) rfl rfl (by omega) (by omega)
      (by omega)
    dsimp only
    exact ⟨1 + 52, by omega, seqSteps_trans (seqSteps_one hcheck) hrun, hidle⟩

/-- Every command word ends within its bound, in the state the whole command leaves (R62, R220, R350). -/
theorem runCommand_small (d : BusWord) (s : State) :
    ∃ k ≤ if d = 1 then 53 else 3 + 58 * (s.bufcap.bytes / 16),
      ∃ t, State.seqSteps k (s.prologue d) = .next t ∧ t.seq.phase = .idle
        ∧ s.runCommand d = .next t := by
  unfold State.runCommand
  cases hd : decodeCmd s.cfg.mode d with
  | error r =>
    have hcheck : (s.prologue d).checkPhase = (s.prologue d).raise .badcmd := by
      rw [State.checkPhase, State.prologue_cfg, State.prologue_cmd, hd]
    have hstep : (s.prologue d).seqStep = .next ((s.prologue d).raise .badcmd) := by
      rw [seqStep_check rfl, hcheck]
    exact ⟨1, by split <;> omega, _, seqSteps_one hstep, rfl, rfl⟩
  | ok i =>
    rcases decodeCmd_ok_iff.1 hd with ⟨rfl, rfl⟩ | ⟨rfl, rfl⟩ | ⟨rfl, rfl⟩
    · obtain ⟨k, hk, hrun, hidle⟩ := initRun_small s
      exact ⟨k, by simpa using hk, _, hrun, hidle, exec_init s⟩
    · obtain ⟨k, hk, hrun, hidle⟩ := Op.command_small (o := ⟨true, s.cfg.mode⟩) rfl
      exact ⟨k, by simpa using hk, _, hrun, hidle, exec_encryptOf _ s⟩
    · obtain ⟨k, hk, hrun, hidle⟩ := Op.command_small (o := ⟨false, s.cfg.mode⟩) rfl
      exact ⟨k, by simpa using hk, _, hrun, hidle, exec_decryptOf _ s⟩

/-! ### What every step keeps -/

/-- What a sequencer step keeps, a run of it keeps. -/
theorem seqSteps_keeps {P : State → Prop} (h : ∀ u v : State, P u → u.seqStep = .next v → P v)
    (k : Nat) {s t : State} (hs : P s) (hk : State.seqSteps k s = .next t) : P t := by
  induction k generalizing s with
  | zero =>
    cases hk
    exact hs
  | succ k ih =>
    cases hu : s.seqStep with
    | next u =>
      simp only [State.seqSteps, hu] at hk
      exact ih (h s u hs hu) hk
    | fault f => simp [State.seqSteps, hu] at hk
    | refused r => simp [State.seqSteps, hu] at hk

/-- A predicate of the core, kept by each thing a step can be: a change of boundary fields, a sequencer
step, a dropped write, a store, the prologue of an accepted command, a change of RST. -/
structure KeptByCases (P : State → Prop) : Prop where
  boundary : ∀ s l v n, P s → P (s.withBoundary l v n)
  sequencer : ∀ s t : State, P s → s.seqStep = .next t → P t
  hazard : ∀ s, P s → P s.hazard
  store : ∀ s a d, P s → s.run ≠ .busy → P (s.busStore a d)
  prologue : ∀ s d, P s → s.rst = false → P (s.prologue d)
  driveRst : ∀ s b, P s → P (s.driveRst b)

/-- What each case keeps, every step keeps: a whole command is a run of the sequencer. -/
theorem KeptByCases.step {P : State → Prop} (h : KeptByCases P) {s t : State} (hs : P s)
    (hst : step s = .next t) : P t := by
  have hin : ∀ l, P { s with inputs := l } := fun l => h.boundary s l s.rdata s.free hs
  rcases step_cases hst with ⟨l, v, n, rfl⟩ | ⟨-, l, v, n, hq⟩ | ⟨-, -, l, -, -, -, rfl⟩
    | ⟨a, d, l, -, -, hb, -, rfl⟩ | ⟨d, l, -, hr, -, hc⟩ | ⟨b, l, -, rfl⟩
  · exact h.boundary s l v n hs
  · exact h.sequencer _ t (h.boundary s l v n hs) hq
  · exact h.hazard _ (hin l)
  · exact h.store _ a d (hin l) hb
  · rcases hc with ⟨-, hc⟩ | ⟨-, rfl⟩
    · obtain ⟨k, -, u, hrun, -, hu⟩ := runCommand_small d { s with inputs := l }
      obtain rfl : u = t := Host.Outcome.next.inj (hu.symm.trans hc)
      exact seqSteps_keeps h.sequencer k (h.prologue _ d (hin l) hr) hrun
    · exact h.prologue _ d (hin l.tail) hr
  · exact h.driveRst _ b (hin l)

end Sys2Proof.Machine
end

section
/-! SUPPORT. The key schedule over all steps (10_state.md R27; 40_key_schedule.md R105, R106). -/

namespace Sys2Proof.Machine

/-! ### The updates of INIT, field by field -/

@[simp] theorem State.initLatch_run (s : State) : s.initLatch.run = s.run := by
  unfold State.initLatch; cases s.drawsIv <;> simp

@[simp] theorem State.initLatch_stage (s : State) : s.initLatch.stage = s.stage := by
  unfold State.initLatch; cases s.drawsIv <;> simp

@[simp] theorem State.initLatch_lenOut (s : State) : s.initLatch.lenOut = s.lenOut := by
  unfold State.initLatch; cases s.drawsIv <;> simp

@[simp] theorem State.initLatch_hzd (s : State) : s.initLatch.hzd = s.hzd := by
  unfold State.initLatch; cases s.drawsIv <;> simp

@[simp] theorem State.initLatch_err (s : State) : s.initLatch.err = s.err := by
  unfold State.initLatch; cases s.drawsIv <;> simp

@[simp] theorem State.initLatch_trace (s : State) : s.initLatch.trace = s.trace := by
  unfold State.initLatch; cases s.drawsIv <;> simp

@[simp] theorem State.initLatch_trcSel (s : State) : s.initLatch.trcSel = s.trcSel := by
  unfold State.initLatch; cases s.drawsIv <;> simp

@[simp] theorem State.initLatch_ibuf (s : State) : s.initLatch.ibuf = s.ibuf := by
  unfold State.initLatch; cases s.drawsIv <;> simp

@[simp] theorem State.initLatch_obuf (s : State) : s.initLatch.obuf = s.obuf := by
  unfold State.initLatch; cases s.drawsIv <;> simp

@[simp] theorem State.initLatch_bufcap (s : State) : s.initLatch.bufcap = s.bufcap := by
  unfold State.initLatch; cases s.drawsIv <;> simp

@[simp] theorem State.initLatch_inputs (s : State) : s.initLatch.inputs = s.inputs := by
  unfold State.initLatch; cases s.drawsIv <;> simp

@[simp] theorem State.initLatch_rdata (s : State) : s.initLatch.rdata = s.rdata := by
  unfold State.initLatch; cases s.drawsIv <;> simp

@[simp] theorem State.initLatch_rst (s : State) : s.initLatch.rst = s.rst := by
  unfold State.initLatch; cases s.drawsIv <;> simp

@[simp] theorem State.initLatch_seq (s : State) :
    s.initLatch.seq = { s.seq with phase := .kexp, unit := 8, uop := 8 } := rfl

@[simp] theorem State.initLatch_rk (s : State) :
    s.initLatch.rk = loadKeyWords s.stage.keyIn s.rk := rfl

@[simp] theorem State.initLatch_key (s : State) : s.initLatch.cfg.key = s.stage.keyIn := rfl

@[simp] theorem State.initLatch_valid (s : State) : s.initLatch.cfg.valid = false := rfl

/-- A KEXP step before the last (R105). -/
theorem kexpStep_of_ne {s : State} (h : s.seq.unit ≠ 59) : kexpStep s =
    { s with rk := scheduleWord s.rk s.seq.unit.toNat
             seq := { s.seq with unit := s.seq.unit + 1 } } := if_neg h

/-- The last KEXP step completes INIT (R105, R106). -/
theorem kexpStep_last {s : State} (h : s.seq.unit = 59) : kexpStep s =
    State.completeInit { s with rk := scheduleWord s.rk 59
                                seq := { s.seq with unit := 60 } } := by
  simp [kexpStep, h]

/-- The walk never names KEXP after one of its own codes (R30). -/
theorem walkNext_uop_ne_kexp (q : Seq) {c : BitVec 4} (h : 1 ≤ c.toNat) (h' : c.toNat ≤ 7) :
    (q.walkNext c).uop ≠ 8 := by
  unfold Seq.walkNext
  split
  case h_8 => grind
  all_goals (try split_ifs) <;> simp

/-- The walk stays in its phase or goes to STORE (R30). -/
theorem walkNext_phase (q : Seq) (c : BitVec 4) :
    (q.walkNext c).phase = q.phase ∨ (q.walkNext c).phase = .store := by
  unfold Seq.walkNext
  split <;> (try split_ifs) <;> simp

/-! ### The invariant of the key schedule -/

/-- Where CFG and RK stay and KEXP does not begin, the key schedule stays as it is. -/
theorem State.KeyScheduleOk.of_kept {s t : State} (h : s.KeyScheduleOk) (hcfg : t.cfg = s.cfg)
    (hrk : t.rk = s.rk) (hp : t.seq.phase ≠ .kexp) (hu : t.seq.phase = .round → t.seq.uop ≠ 8) :
    t.KeyScheduleOk where
  expanded hv := by
    rw [hcfg] at hv ⊢
    exact hrk.trans (h.expanded hv)
  kexpNoInstance e := absurd e hp
  kexpUop e := absurd e hp
  kexpUnit e := absurd e hp
  kexpWords e := absurd e hp
  roundUop := hu

/-- Where CFG, RK and SEQ stay, so does the invariant. -/
theorem State.KeyScheduleOk.congr {s t : State} (h : s.KeyScheduleOk) (hcfg : t.cfg = s.cfg)
    (hrk : t.rk = s.rk) (hseq : t.seq = s.seq) : t.KeyScheduleOk := by
  obtain ⟨h1, h2, h3, h4, h5, h6⟩ := h
  rw [← hseq] at h2 h3 h4 h5 h6
  rw [← hrk] at h1 h5
  rw [← hcfg] at h1 h2 h5
  exact ⟨h1, h2, h3, h4, h5, h6⟩

/-- Where CFG.valid is 0, outside KEXP and ROUND, there is nothing to show (R27). -/
theorem State.KeyScheduleOk.of_noInstance {s : State} (hv : s.cfg.valid = false)
    (hk : s.seq.phase ≠ .kexp) (hr : s.seq.phase ≠ .round) : s.KeyScheduleOk where
  expanded e := absurd e (by simp [hv])
  kexpNoInstance e := absurd e hk
  kexpUop e := absurd e hk
  kexpUnit e := absurd e hk
  kexpWords e := absurd e hk
  roundUop e := absurd e hr

/-- INIT starts the expansion: words 0 to 7 are the key (R106). -/
theorem keyScheduleOk_initLatch (s : State) : s.initLatch.KeyScheduleOk where
  expanded e := by simp at e
  kexpNoInstance _ := rfl
  kexpUop _ := rfl
  kexpUnit _ := by simp
  kexpWords _ j hj := by
    have hj : j < 8 := by simpa using hj
    rw [State.initLatch_rk, State.initLatch_key, loadKeyWords_word _ _ _ hj, keyExpansion_head _ _ hj]
  roundUop e := by simp at e

/-- CHECK keeps the invariant (R211, R212, R213). -/
theorem State.KeyScheduleOk.checkPhase {s : State} (h : s.KeyScheduleOk) :
    s.checkPhase.KeyScheduleOk := by
  rcases checkPhase_cases s with ⟨e, -, -, ht⟩ | ⟨-, -, ht⟩ | ⟨-, u, hu, ⟨e, -, -, ht⟩ | ⟨-, ht⟩⟩
  · rw [ht]
    exact h.of_kept rfl rfl (by simp) (by simp)
  · rw [ht]
    exact h.of_kept rfl rfl (by simp) (by simp)
  · rw [ht]
    exact .of_noInstance (by simp [hu]) (by simp) (by simp)
  · rw [ht]
    exact keyScheduleOk_initLatch u

/-- KEXP fills the next word; the last one completes the expansion (R105, R106). -/
theorem State.KeyScheduleOk.kexpStep {s : State} (h : s.KeyScheduleOk) (hp : s.seq.phase = .kexp) :
    (kexpStep s).KeyScheduleOk := by
  obtain ⟨h8, h59⟩ := h.kexpUnit hp
  have hwords := keyExpansion_step s.cfg.key _ h8 (by omega) s.rk (h.kexpWords hp)
  by_cases hlast : s.seq.unit = 59
  · have hfile : scheduleWord s.rk 59 = keyExpansion s.cfg.key := by
      rw [hlast] at hwords
      exact rk_ext fun j hj => hwords j (Nat.le_of_lt_succ hj)
    rw [kexpStep_last hlast]
    exact ⟨fun _ => hfile, nofun, nofun, nofun, nofun, nofun⟩
  · have hnext : (s.seq.unit + 1).toNat = s.seq.unit.toNat + 1 := by bv_omega
    have hlt : s.seq.unit.toNat ≠ 59 := fun e => hlast (BitVec.eq_of_toNat_eq e)
    rw [kexpStep_of_ne hlast]
    refine ⟨fun hv => ?_, h.kexpNoInstance, h.kexpUop, fun _ => ?_, fun _ j hj => ?_, h.roundUop⟩
    · exact absurd (h.kexpNoInstance hp) (by simpa using hv)
    · simp only [hnext]
      omega
    · simp only [hnext] at hj
      exact hwords j (Nat.le_of_lt_succ hj)

/-- Phase ROUND runs a micro-operation of the walk (R30, R78). -/
theorem State.KeyScheduleOk.round_cases {s t : State} (h : s.KeyScheduleOk)
    (hp : s.seq.phase = .round) (ht : s.runUop = .next t) :
    ∃ b, t = s.roundStep s.seq.uop b ∧ 1 ≤ s.seq.uop.toNat ∧ s.seq.uop.toNat ≤ 7 := by
  rcases runUop_cases ht with hround | ⟨hu, -⟩
  · exact hround
  · exact absurd hu (h.roundUop hp)

/-- Phase KEXP runs KEXP (R28, R78). -/
theorem State.KeyScheduleOk.kexp_cases {s t : State} (h : s.KeyScheduleOk)
    (hp : s.seq.phase = .kexp) (ht : s.runUop = .next t) : t = Machine.kexpStep s := by
  rcases runUop_cases ht with ⟨b, -, -, hu⟩ | ⟨-, -, -, ht⟩
  · exact absurd hu (by rw [h.kexpUop hp]; decide)
  · exact ht

/-- A micro-operation of phase ROUND keeps the key schedule (R30, R120). -/
theorem State.KeyScheduleOk.roundStep {s : State} (h : s.KeyScheduleOk) (hp : s.seq.phase = .round)
    (hlo : 1 ≤ s.seq.uop.toNat) (hhi : s.seq.uop.toNat ≤ 7) (b : Block) :
    (s.roundStep s.seq.uop b).KeyScheduleOk := by
  refine h.of_kept rfl rfl ?_ fun _ => walkNext_uop_ne_kexp _ hlo hhi
  rcases walkNext_phase s.seq s.seq.uop with e | e <;> simp [e, hp]

/-- The sequencer keeps the invariant, phase by phase (R29). -/
theorem State.KeyScheduleOk.seqStep {s t : State} (h : s.KeyScheduleOk) (ht : s.seqStep = .next t) :
    t.KeyScheduleOk := by
  cases hp : s.seq.phase with
  | idle =>
    cases (seqStep_idle hp).symm.trans ht
    exact h
  | check =>
    cases (seqStep_check hp).symm.trans ht
    exact h.checkPhase
  | kexp =>
    rw [seqStep_kexp hp] at ht
    rw [h.kexp_cases hp ht]
    exact h.kexpStep hp
  | head =>
    cases (seqStep_head hp).symm.trans ht
    exact h.of_kept rfl rfl (by simp) (by simp)
  | load =>
    cases (seqStep_load hp).symm.trans ht
    exact h.of_kept rfl rfl nofun fun _ => (by decide : (1 : BitVec 4) ≠ 8)
  | round =>
    rw [seqStep_round hp] at ht
    obtain ⟨b, rfl, hlo, hhi⟩ := h.round_cases hp ht
    exact h.roundStep hp hlo hhi b
  | store =>
    cases (seqStep_store hp).symm.trans ht
    refine h.of_kept rfl rfl ?_ ?_ <;> simp only [Op.storePhase] <;> split_ifs <;> simp
  | tail =>
    cases (seqStep_tail hp).symm.trans ht
    exact h.of_kept rfl rfl (by simp) (by simp)

/-- A store at rest writes the staging registers, TRC_SEL or IBUF alone (R60, R73). -/
theorem busStore_cases (a : WordAddr) (d : BusWord) (s : State) :
    (∃ g, s.busStore a d = { s with stage := g }) ∨ (∃ n, s.busStore a d = { s with trcSel := n })
    ∨ ∃ j, locate s.bufcap a = .ibuf j
        ∧ s.busStore a d = { s with ibuf := Memory.writeBusWord s.ibuf j d } := by
  unfold State.busStore
  split
  case h_5 => exact .inr (.inl ⟨_, rfl⟩)
  case h_8 j hl => exact .inr (.inr ⟨j, hl, rfl⟩)
  all_goals exact .inl ⟨_, rfl⟩

/-- Every case of a step keeps the key schedule. -/
theorem keyScheduleOk_keptByCases : KeptByCases State.KeyScheduleOk where
  boundary s l v n h := h.congr rfl rfl rfl
  sequencer s t h ht := h.seqStep ht
  hazard s h := h.congr rfl rfl rfl
  store s a d h _ := by
    rcases busStore_cases a d s with ⟨g, e⟩ | ⟨n, e⟩ | ⟨j, -, e⟩ <;> rw [e] <;>
      exact h.congr rfl rfl rfl
  prologue s d h _ := h.of_kept rfl rfl nofun nofun
  driveRst s b h := by
    cases b with
    | true => exact .of_noInstance rfl nofun nofun
    | false => exact h.congr rfl rfl rfl

/-- Settles O56: each case of a step keeps the key schedule, a whole command being a run of the
sequencer. -/
theorem stepKeepsKeySchedule : Obligations.StepKeepsKeySchedule := fun _ _ hs ht =>
  keyScheduleOk_keptByCases.step hs ht

end Sys2Proof.Machine
end

section
/-! SUPPORT. The whole invariant over all steps (10_state.md R28, R30, R31, R34; 45_trace.md R259;
60_exceptions.md R304). -/

namespace Sys2Proof.Machine

/-! ### The parts of the invariant -/

/-- Outside the phases of a command nothing is asked of one. -/
theorem State.CommandOk.of_idle {s : State} (hp : s.seq.phase = .idle) : s.CommandOk := by
  refine ⟨?_, fun h => absurd hp h, ?_, ?_, ?_, ?_, ?_⟩ <;> rw [hp] <;> simp [Phase.ofCipher]

/-- Before HEAD, nothing is asked of a command but that nothing has been emitted (R304, R256). -/
theorem State.CommandOk.of_start {s : State} (hp : s.seq.phase = .check ∨ s.seq.phase = .kexp)
    (htrace : s.trace = []) (hlen : s.lenOut = 0) : s.CommandOk := by
  refine ⟨fun _ => htrace, fun _ => hlen, ?_, ?_, ?_, ?_, ?_⟩ <;>
    rcases hp with hp | hp <;> rw [hp] <;> simp [Phase.ofCipher]

/-- A command about to run HEAD (R304). -/
theorem State.CommandOk.of_head {s : State} (hp : s.seq.phase = .head) (htrace : s.trace = [])
    (hlen : s.lenOut = 0) (hlegal : (s.cmd = 2 ∨ s.cmd = 3) ∧ s.currentOp.check s = none) :
    s.CommandOk :=
  ⟨fun _ => htrace, fun _ => hlen, fun _ => hlegal, by simp [hp], by simp [hp], by simp [hp],
    by simp [hp]⟩

/-- A command about to load a unit (R31, R260). -/
theorem State.CommandOk.of_load {s : State} (hp : s.seq.phase = .load) (hlen : s.lenOut = 0)
    (hlegal : (s.cmd = 2 ∨ s.cmd = 3) ∧ s.currentOp.check s = none)
    (hunit : s.seq.unit.toNat < s.currentOp.units s.stage.lenIn.toNat)
    (htrace : s.trace.length = 18 + 59 * s.seq.unit.toNat) : s.CommandOk :=
  ⟨by simp [hp], fun _ => hlen, fun _ => hlegal, fun _ => ⟨hunit, htrace⟩, by simp [hp],
    by simp [hp], by simp [hp]⟩

/-- A command on the walk of a unit (R30, R31, R260). -/
theorem State.CommandOk.of_round {s : State} (hp : s.seq.phase = .round) (hlen : s.lenOut = 0)
    (hlegal : (s.cmd = 2 ∨ s.cmd = 3) ∧ s.currentOp.check s = none)
    (hunit : s.seq.unit.toNat < s.currentOp.units s.stage.lenIn.toNat)
    (hdir : s.seq.dir = s.currentOp.inverse)
    (hulen : s.dp.ulen.toNat = s.currentOp.ulen s.stage.lenIn.toNat s.seq.unit.toNat)
    (htrace : s.trace.length = 20 + 59 * s.seq.unit.toNat + s.seq.walkIndex) : s.CommandOk :=
  ⟨by simp [hp], fun _ => hlen, fun _ => hlegal, by simp [hp],
    fun _ => ⟨hunit, hdir, hulen, htrace⟩, by simp [hp], by simp [hp]⟩

/-- A command about to store a unit (R31, R260). -/
theorem State.CommandOk.of_store {s : State} (hp : s.seq.phase = .store) (hlen : s.lenOut = 0)
    (hlegal : (s.cmd = 2 ∨ s.cmd = 3) ∧ s.currentOp.check s = none)
    (hunit : s.seq.unit.toNat < s.currentOp.units s.stage.lenIn.toNat)
    (hulen : s.dp.ulen.toNat = s.currentOp.ulen s.stage.lenIn.toNat s.seq.unit.toNat)
    (htrace : s.trace.length = 76 + 59 * s.seq.unit.toNat) : s.CommandOk :=
  ⟨by simp [hp], fun _ => hlen, fun _ => hlegal, by simp [hp], by simp [hp],
    fun _ => ⟨hunit, hulen, htrace⟩, by simp [hp]⟩

/-- A command about to run TAIL (R260). -/
theorem State.CommandOk.of_tail {s : State} (hp : s.seq.phase = .tail) (hlen : s.lenOut = 0)
    (hlegal : (s.cmd = 2 ∨ s.cmd = 3) ∧ s.currentOp.check s = none)
    (htrace : s.trace.length = 18 + 59 * s.currentOp.units s.stage.lenIn.toNat) : s.CommandOk :=
  ⟨by simp [hp], fun _ => hlen, fun _ => hlegal, by simp [hp], by simp [hp], by simp [hp],
    fun _ => htrace⟩

/-- What a cipher command was checked for stays while it runs (R29). -/
theorem State.CommandOk.legal_of_same {s t : State} (h : s.CommandOk)
    (hp : s.seq.phase.ofCipher = true) (hs : SameCmd s t) :
    (t.cmd = 2 ∨ t.cmd = 3) ∧ t.currentOp.check t = none := by
  rw [hs.cmd, check_congr hs]
  exact h.legal hp

/-- STATUS stays BUSY along the phases of a command (R28). -/
theorem State.StatusAgrees.of_busy {s t : State} (h : s.StatusAgrees) (hp : s.seq.phase ≠ .idle)
    (hp' : t.seq.phase ≠ .idle) (hrun : t.run = s.run) (herr : t.err = s.err) (hrst : t.rst = s.rst) :
    t.StatusAgrees where
  busyIffPhase := by
    rw [hrun]
    exact iff_of_true (h.busyIffPhase.2 hp) hp'
  errorIffErr := by rw [hrun, herr]; exact h.errorIffErr
  resetIsIdle := by rw [hrun, hrst]; exact h.resetIsIdle

/-- A busy core is not in reset and shows no error (R24, R330). -/
theorem State.StatusAgrees.busy {s : State} (h : s.StatusAgrees) (hp : s.seq.phase ≠ .idle) :
    s.rst = false ∧ s.err = .none := by
  have hrun := h.busyIffPhase.2 hp
  constructor
  · cases hr : s.rst with
    | false => rfl
    | true => exact absurd (hrun.symm.trans (h.resetIsIdle hr)) (by decide)
  · by_contra he
    exact absurd (hrun.symm.trans (h.errorIffErr.2 he)) (by decide)

/-- STATUS after error entry (R306). -/
theorem statusAgrees_raise {s : State} (e : ErrorCode) (hr : s.rst = false) :
    (s.raise e).StatusAgrees where
  busyIffPhase := by simp
  errorIffErr := by cases e <;> simp <;> decide
  resetIsIdle h := by simp [hr] at h

/-- STATUS after completion (R218). -/
theorem statusAgrees_complete {s : State} (hr : s.rst = false) (he : s.err = .none) :
    s.complete.StatusAgrees where
  busyIffPhase := by simp
  errorIffErr := by simp [he]
  resetIsIdle h := by simp [hr] at h

/-- What fits stays so where CFG, ERR, IBUF and BUFCAP stay and the rest is bounded again. -/
theorem State.Fits.of_kept {s t : State} (h : s.Fits) (hcfg : t.cfg.mode = s.cfg.mode ∧ t.cfg.iv = s.cfg.iv)
    (hibuf : t.ibuf = s.ibuf) (hcap : t.bufcap = s.bufcap)
    (hobuf : Memory.Below (s.bufcap.bytes + 32) t.obuf)
    (hlen : t.lenOut.toNat ≤ s.bufcap.bytes + 16)
    (htrace : t.trace.length ≤ 21 + 59 * (s.bufcap.bytes / 16))
    (herr : t.err = s.err ∨ ∃ e : ErrorCode, e ≠ .base64 ∧ e ≠ .utf8 ∧ t.err = e.reg) : t.Fits where
  ibuf := by rw [hibuf, hcap]; exact h.ibuf
  obuf := by rw [hcap]; exact hobuf
  lenOut := by rw [hcap]; exact hlen
  trace := by rw [hcap]; exact htrace
  ecbIv hm := by
    rw [hcfg.1] at hm
    exact hcfg.2.trans (h.ecbIv hm)
  err := by
    rcases herr with he | he
    · rw [he]; exact h.err
    · exact .inr he

/-! ### CHECK and KEXP -/

/-- Error entry from a busy core before HEAD (R306). -/
theorem State.Inv.raise {s : State} (h : s.Inv) (hp : s.seq.phase ≠ .idle) {e : ErrorCode}
    (hb : e ≠ .base64) (hu : e ≠ .utf8) : (s.raise e).Inv where
  buffers := ⟨h.buffers.ibuf, h.buffers.obuf⟩
  status := statusAgrees_raise e (h.status.busy hp).1
  keySchedule := h.keySchedule.of_kept rfl rfl (by simp) (by simp)
  onWalk := nofun
  command := .of_idle rfl
  fits := h.fits.of_kept ⟨rfl, rfl⟩ rfl rfl h.fits.obuf h.fits.lenOut h.fits.trace
    (.inr ⟨e, hb, hu, rfl⟩)

/-- INIT clears CFG.valid before its checks (R212). -/
theorem State.Inv.endInstance {s : State} (h : s.Inv) (hp : s.seq.phase = .check) :
    State.Inv { s with cfg := { s.cfg with valid := false } } where
  buffers := ⟨h.buffers.ibuf, h.buffers.obuf⟩
  status := ⟨h.status.busyIffPhase, h.status.errorIffErr, h.status.resetIsIdle⟩
  keySchedule := .of_noInstance rfl (by simp [hp]) (by simp [hp])
  onWalk := h.onWalk
  command := .of_start (.inl hp) (h.command.beforeHead (.inl hp)) (h.command.lenOutZero (by simp [hp]))
  fits := h.fits.of_kept ⟨rfl, rfl⟩ rfl rfl h.fits.obuf h.fits.lenOut h.fits.trace (.inl rfl)

/-- The mode code 0 is ECB's alone among those INIT accepts (R76, R212). -/
theorem ofCode_ecb : ∀ c : BitVec 3, c.toNat ≤ 4 → (Mode.ofCode c).getD .ecb = .ecb → c = 0 := by
  decide

/-- The checks of INIT let only the five mode codes pass (R212). -/
theorem initCheck_mode {s : State} (h : s.initCheck = none) : s.stage.mode.toNat ≤ 4 := by
  unfold State.initCheck at h
  by_contra hm
  rw [if_pos (Nat.lt_of_not_le hm)] at h
  split at h <;> cases h

/-- INIT latches the IV `00^16` in ECB (R21, R212). -/
theorem initLatch_ecbIv {s : State} (h : s.initCheck = none) (hm : s.initLatch.cfg.mode = .ecb) :
    s.initLatch.cfg.iv = Block.zero :=
  if_pos (ofCode_ecb _ (initCheck_mode h) hm)

/-- INIT goes from CHECK to KEXP (R212). -/
theorem State.Inv.initLatch {s : State} (h : s.Inv) (hp : s.seq.phase = .check)
    (hc : s.initCheck = none) : s.initLatch.Inv where
  buffers := ⟨by simpa using h.buffers.ibuf, by simpa using h.buffers.obuf⟩
  status := h.status.of_busy (by simp [hp]) (by simp) (by simp) (by simp) (by simp)
  keySchedule := keyScheduleOk_initLatch s
  onWalk := nofun
  command := .of_start (.inr rfl) (by simpa using h.command.beforeHead (.inl hp))
    (by simpa using h.command.lenOutZero (by simp [hp]))
  fits :=
    { ibuf := by simpa using h.fits.ibuf
      obuf := by simpa using h.fits.obuf
      lenOut := by simpa using h.fits.lenOut
      trace := by simpa using h.fits.trace
      ecbIv := initLatch_ecbIv hc
      err := by simpa using h.fits.err }

/-- CHECK keeps the invariant (R29, R211, R213). -/
theorem State.Inv.checkPhase {s : State} (h : s.Inv) (hp : s.seq.phase = .check) :
    s.checkPhase.Inv := by
  have hbusy : s.seq.phase ≠ .idle := by simp [hp]
  rcases checkPhase_cases s with
    ⟨e, hb, hu, ht⟩ | ⟨hcmd, hlegal, ht⟩ | ⟨-, u, rfl, ⟨e, hb, hu, ht⟩ | ⟨hc, ht⟩⟩
  · rw [ht]
    exact h.raise hbusy hb hu
  · rw [ht]
    exact
      { buffers := ⟨h.buffers.ibuf, h.buffers.obuf⟩
        status := h.status.of_busy hbusy nofun rfl rfl rfl
        keySchedule := h.keySchedule.of_kept rfl rfl nofun nofun
        onWalk := nofun
        command := .of_head rfl (h.command.beforeHead (.inl hp)) (h.command.lenOutZero hbusy)
          ⟨hcmd, (check_congr ⟨rfl, rfl, rfl, rfl⟩).trans hlegal⟩
        fits := h.fits.of_kept ⟨rfl, rfl⟩ rfl rfl h.fits.obuf h.fits.lenOut h.fits.trace (.inl rfl) }
  · rw [ht]
    exact (h.endInstance hp).raise hbusy hb hu
  · rw [ht]
    exact (h.endInstance hp).initLatch hp hc

/-- KEXP keeps the invariant (R105, R106). -/
theorem State.Inv.kexpStep {s : State} (h : s.Inv) (hp : s.seq.phase = .kexp) :
    (kexpStep s).Inv := by
  have hbusy : s.seq.phase ≠ .idle := by simp [hp]
  have hkeys := h.keySchedule.kexpStep hp
  obtain ⟨hrst, herr⟩ := h.status.busy hbusy
  by_cases hlast : s.seq.unit = 59
  · rw [kexpStep_last hlast] at hkeys ⊢
    exact
      { buffers := ⟨h.buffers.ibuf, h.buffers.obuf⟩
        status := statusAgrees_complete hrst herr
        keySchedule := hkeys
        onWalk := nofun
        command := .of_idle rfl
        fits := h.fits.of_kept ⟨rfl, rfl⟩ rfl rfl h.fits.obuf h.fits.lenOut h.fits.trace (.inl rfl) }
  · rw [kexpStep_of_ne hlast] at hkeys ⊢
    exact
      { buffers := ⟨h.buffers.ibuf, h.buffers.obuf⟩
        status := h.status.of_busy hbusy hbusy rfl rfl rfl
        keySchedule := hkeys
        onWalk := fun e => absurd (hp.symm.trans e) (by decide)
        command := .of_start (.inr hp) (h.command.beforeHead (.inr (.inl hp)))
          (h.command.lenOutZero hbusy)
        fits := h.fits.of_kept ⟨rfl, rfl⟩ rfl rfl h.fits.obuf h.fits.lenOut h.fits.trace (.inl rfl) }

/-! ### HEAD, LOAD, ROUND, STORE, TAIL -/

@[simp] theorem Block.length_toList (b : Block) : b.toList.length = 16 := rfl

/-- HEAD emits eighteen records (R194, R246). -/
theorem Op.length_headRecords (o : Op) (s : State) : (o.headRecords s).length = 18 := rfl

/-- HEAD keeps the invariant (R194). -/
theorem State.Inv.headPhase {s : State} (h : s.Inv) (hp : s.seq.phase = .head) :
    (s.currentOp.headPhase s).Inv := by
  have hbusy : s.seq.phase ≠ .idle := by simp [hp]
  have hcipher : s.seq.phase.ofCipher = true := by rw [hp]; rfl
  obtain ⟨-, hlegal⟩ := h.command.legal hcipher
  obtain ⟨hunits, -⟩ := units_bounds hlegal
  have htrace : s.trace = [] := h.command.beforeHead (.inr (.inr hp))
  have hlen : (s.currentOp.headPhase s).trace.length = 18 := by
    simp [htrace, Op.length_headRecords]
  exact
    { buffers := ⟨h.buffers.ibuf, by
        rw [Op.headPhase_obuf]
        split
        · exact Memory.wf_writeBytes _ _ h.buffers.obuf
        · exact h.buffers.obuf⟩
      status := h.status.of_busy hbusy nofun rfl rfl rfl
      keySchedule := h.keySchedule.of_kept rfl rfl nofun nofun
      onWalk := nofun
      command := .of_load rfl (h.command.lenOutZero hbusy)
        (h.command.legal_of_same hcipher ⟨rfl, rfl, rfl, rfl⟩) hunits hlen
      fits := h.fits.of_kept ⟨rfl, rfl⟩ rfl rfl (by
        rw [Op.headPhase_obuf]
        split
        · exact Memory.below_writeBytes h.fits.obuf (by rw [Block.length_toList]; omega)
        · exact h.fits.obuf) h.fits.lenOut (by omega) (.inl rfl) }

/-- ULEN is at most 16, so it fits its register (R26, R192). -/
theorem Op.toNat_ulen (o : Op) (n i : Nat) : (BitVec.ofNat 5 (o.ulen n i)).toNat = o.ulen n i := by
  rw [BitVec.toNat_ofNat, Nat.mod_eq_of_lt]
  unfold Op.ulen
  omega

/-- The walk of a direction begins with its ARK (R30). -/
theorem walk_head : ∀ dir : Bool,
    (((if dir then 14 else 0 : Fin 15).val, 1) : Nat × BitVec 4) ∈ walkOf dir
    ∧ (walkOf dir).idxOf (((if dir then 14 else 0 : Fin 15).val, 1) : Nat × BitVec 4) = 0 := by
  decide

/-- LOAD keeps the invariant (R192). -/
theorem State.Inv.loadPhase {s : State} (h : s.Inv) (hp : s.seq.phase = .load) :
    (s.currentOp.loadPhase s).Inv := by
  have hbusy : s.seq.phase ≠ .idle := by simp [hp]
  have hcipher : s.seq.phase.ofCipher = true := by rw [hp]; rfl
  obtain ⟨-, hlegal⟩ := h.command.legal hcipher
  obtain ⟨-, hcap, -⟩ := units_bounds hlegal
  obtain ⟨hunit, htrace⟩ := h.command.load hp
  obtain ⟨hmem, hidx⟩ := walk_head s.currentOp.inverse
  have hlen : (s.currentOp.loadPhase s).trace.length = 20 + 59 * s.seq.unit.toNat := by
    simp [Op.loadPhase, htrace]
    omega
  have hwalk : (s.currentOp.loadPhase s).seq.walkIndex = 0 := hidx
  exact
    { buffers := ⟨h.buffers.ibuf, h.buffers.obuf⟩
      status := h.status.of_busy hbusy nofun rfl rfl rfl
      keySchedule := h.keySchedule.of_kept rfl rfl nofun fun _ => (by decide : (1 : BitVec 4) ≠ 8)
      onWalk := fun _ => hmem
      command := .of_round rfl (h.command.lenOutZero hbusy)
        (h.command.legal_of_same hcipher ⟨rfl, rfl, rfl, rfl⟩) hunit rfl (Op.toNat_ulen _ _ _)
        (by rw [hlen, hwalk]; rfl)
      fits := h.fits.of_kept ⟨rfl, rfl⟩ rfl rfl h.fits.obuf h.fits.lenOut (by omega) (.inl rfl) }

/-- One micro-operation moves SEQ one place along the walk, or from its end to STORE (R30). -/
theorem walkIndex_advance {q : Seq} (hp : q.phase = .round) (hw : (q.round.val, q.uop) ∈ walkOf q.dir) :
    (q.advance.phase = .round ∧ (q.advance.round.val, q.advance.uop) ∈ walkOf q.dir
      ∧ q.advance.walkIndex = q.walkIndex + 1 ∧ q.walkIndex < 55)
    ∨ (q.advance.phase = .store ∧ q.walkIndex = 55) := by
  obtain ⟨p, unit, r, u, dir⟩ := q
  obtain rfl : p = .round := hp
  have hz := walkNext_zeroUnit u ⟨.round, unit, r, u, dir⟩
  have hdir := walkNext_dir u ⟨.round, unit, r, u, dir⟩
  have hnext := (walk_next dir r u hw).2
  simp only [Seq.walkIndex, Seq.advance, hdir]
  generalize Seq.walkNext u ⟨.round, unit, r, u, dir⟩ = q' at hz
  simp only [Seq.zeroUnit] at hz
  rw [← hz] at hnext
  rcases hnext with ⟨hr, hmem, -, hidx, hlt⟩ | ⟨hs, hidx⟩
  · exact .inl ⟨hr, hmem, hidx, by omega⟩
  · exact .inr ⟨hs, hidx⟩

/-- A command goes on from ROUND to ROUND, one record further, or from the end of the walk to STORE
(R30, R260). -/
theorem State.CommandOk.roundStep {s : State} (h : s.CommandOk) (hp : s.seq.phase = .round)
    (hw : s.OnWalk) (b : Block) : (s.roundStep s.seq.uop b).CommandOk := by
  have hlegal : ((s.roundStep s.seq.uop b).cmd = 2 ∨ (s.roundStep s.seq.uop b).cmd = 3)
      ∧ (s.roundStep s.seq.uop b).currentOp.check (s.roundStep s.seq.uop b) = none :=
    h.legal_of_same (by rw [hp]; rfl) ⟨rfl, rfl, rfl, rfl⟩
  have hzero : (s.roundStep s.seq.uop b).lenOut = 0 := h.lenOutZero (by simp [hp])
  obtain ⟨hunit, hdir, hulen, htrace⟩ := h.round hp
  have hlen : (s.roundStep s.seq.uop b).trace.length = s.trace.length + 1 := by simp
  have hu : (s.roundStep s.seq.uop b).seq.unit = s.seq.unit := walkNext_unit _ _
  have hd : (s.roundStep s.seq.uop b).seq.dir = s.seq.dir := walkNext_dir _ _
  rcases walkIndex_advance hp (hw hp) with ⟨hp', -, hidx, -⟩ | ⟨hp', hidx⟩
  · change (s.roundStep s.seq.uop b).seq.walkIndex = _ at hidx
    exact .of_round hp' hzero hlegal (by rw [hu]; exact hunit) (hd.trans hdir)
      (by rw [hu]; exact hulen) (by rw [hlen, hu, hidx]; omega)
  · exact .of_store hp' hzero hlegal (by rw [hu]; exact hunit) (by rw [hu]; exact hulen)
      (by rw [hlen, hu]; omega)

/-- ROUND keeps the invariant (R120, R30). -/
theorem State.Inv.roundStep {s : State} (h : s.Inv) (hp : s.seq.phase = .round) (b : Block) :
    (s.roundStep s.seq.uop b).Inv := by
  have hbusy : s.seq.phase ≠ .idle := by simp [hp]
  have hcipher : s.seq.phase.ofCipher = true := by rw [hp]; rfl
  obtain ⟨-, hlegal⟩ := h.command.legal hcipher
  obtain ⟨-, hcap, -⟩ := units_bounds hlegal
  obtain ⟨hunit, -, -, htrace⟩ := h.command.round hp
  obtain ⟨⟨hlo, hhi⟩, -⟩ := walk_next _ _ _ (h.onWalk hp)
  have hnext := walkIndex_advance hp (h.onWalk hp)
  have hidx : s.seq.walkIndex ≤ 55 := by omega
  have hlen : (s.roundStep s.seq.uop b).trace.length = s.trace.length + 1 := by simp
  have hphase : s.seq.advance.phase ≠ .idle := by
    rcases hnext with ⟨hp', -⟩ | ⟨hp', -⟩ <;> simp [hp']
  exact
    { buffers := ⟨h.buffers.ibuf, h.buffers.obuf⟩
      status := h.status.of_busy hbusy hphase rfl rfl rfl
      keySchedule := h.keySchedule.roundStep hp hlo hhi b
      onWalk := fun hp' => by
        rcases hnext with ⟨-, hmem, -⟩ | ⟨hs, -⟩
        · exact (walkNext_dir s.seq.uop s.seq).symm ▸ hmem
        · exact absurd (hs.symm.trans hp') (by decide)
      command := h.command.roundStep hp h.onWalk b
      fits := h.fits.of_kept ⟨rfl, rfl⟩ rfl rfl h.fits.obuf h.fits.lenOut (by omega) (.inl rfl) }

/-- The bytes STORE writes lie below `obase + L` (R178, R193). -/
theorem Op.store_end_le {o : Op} {n i ulen : Nat} (h : ulen = o.ulen n i) (b : Block)
    (hi : i < o.units n) :
    o.obase + 16 * i + (b.toList.take ulen).length ≤ o.obase + o.total n := by
  rw [List.length_take, Block.length_toList, h]
  simp only [Op.ulen, Op.units, ceil16] at *
  omega

/-- After STORE comes the next unit or TAIL (R193). -/
theorem Op.storePhase_phase (o : Op) (s : State) : (o.storePhase s).seq.phase
    = if s.seq.unit.toNat + 1 < o.units s.stage.lenIn.toNat then .load else .tail := rfl

/-- A command goes on from STORE to the next unit or to TAIL (R193, R260). -/
theorem State.CommandOk.storePhase {s : State} (h : s.CommandOk) (hp : s.seq.phase = .store)
    (hmax : s.seq.unit.toNat + 1 < 2 ^ 32) : (s.currentOp.storePhase s).CommandOk := by
  have hlegal : ((s.currentOp.storePhase s).cmd = 2 ∨ (s.currentOp.storePhase s).cmd = 3)
      ∧ (s.currentOp.storePhase s).currentOp.check (s.currentOp.storePhase s) = none :=
    h.legal_of_same (by rw [hp]; rfl) ⟨rfl, rfl, rfl, rfl⟩
  have hzero : (s.currentOp.storePhase s).lenOut = 0 := h.lenOutZero (by simp [hp])
  obtain ⟨hunit, -, htrace⟩ := h.store hp
  have hnext : (s.currentOp.storePhase s).seq.unit.toNat = s.seq.unit.toNat + 1 := by
    show (s.seq.unit + 1).toNat = _
    bv_omega
  have hlen : (s.currentOp.storePhase s).trace.length = s.trace.length + 1 := by
    simp [Op.storePhase]
  have hphase := s.currentOp.storePhase_phase s
  by_cases hmore : s.seq.unit.toNat + 1 < s.currentOp.units s.stage.lenIn.toNat
  · rw [if_pos hmore] at hphase
    exact .of_load hphase hzero hlegal (hnext.trans_lt hmore) (by rw [hlen, hnext]; omega)
  · rw [if_neg hmore] at hphase
    have hlast : s.currentOp.units s.stage.lenIn.toNat = s.seq.unit.toNat + 1 := by omega
    refine .of_tail hphase hzero hlegal ?_
    show _ = 18 + 59 * s.currentOp.units s.stage.lenIn.toNat
    rw [hlen, hlast]
    omega

/-- STORE keeps the invariant (R193). -/
theorem State.Inv.storePhase {s : State} (h : s.Inv) (hp : s.seq.phase = .store) :
    (s.currentOp.storePhase s).Inv := by
  have hbusy : s.seq.phase ≠ .idle := by simp [hp]
  obtain ⟨-, hlegal⟩ := h.command.legal (by rw [hp]; rfl)
  obtain ⟨-, hcap, hfits, hmax⟩ := units_bounds hlegal
  obtain ⟨hunit, hulen, htrace⟩ := h.command.store hp
  have hlen : (s.currentOp.storePhase s).trace.length = s.trace.length + 1 := by
    simp [Op.storePhase]
  have hphase : (s.currentOp.storePhase s).seq.phase = .load
      ∨ (s.currentOp.storePhase s).seq.phase = .tail := by
    rw [Op.storePhase_phase]
    split <;> simp
  have hround : (s.currentOp.storePhase s).seq.phase ≠ .round := by
    rcases hphase with e | e <;> simp [e]
  exact
    { buffers := ⟨h.buffers.ibuf, Memory.wf_writeBytes _ _ h.buffers.obuf⟩
      status := h.status.of_busy hbusy (by rcases hphase with e | e <;> simp [e]) rfl rfl rfl
      keySchedule := h.keySchedule.of_kept rfl rfl (by rcases hphase with e | e <;> simp [e])
        fun e => absurd e hround
      onWalk := fun e => absurd e hround
      command := h.command.storePhase hp (by omega)
      fits := h.fits.of_kept ⟨rfl, rfl⟩ rfl rfl
        (Memory.below_writeBytes h.fits.obuf ((Op.store_end_le hulen _ hunit).trans (by omega)))
        h.fits.lenOut (by omega) (.inl rfl) }

/-- LEN_OUT is at most BUFCAP + 16 (R195, R34). -/
theorem Op.lenOut_le {o : Op} {s : State} (h : o.check s = none) :
    (o.lenOut s).toNat ≤ s.bufcap.bytes + 16 := by
  obtain ⟨-, -, hfits, -⟩ := units_bounds h
  simp only [Op.lenOut]
  split
  · rw [BitVec.toNat_ofNat]
    exact (Nat.mod_le _ _).trans hfits
  · split <;> rw [BitVec.toNat_ofNat] <;> exact (Nat.mod_le _ _).trans (by omega)

/-- TAIL emits two records, or three where it looks for padding (R195). -/
theorem Op.length_tailRecords_le (o : Op) (s : State) : (o.tailRecords s).length ≤ 3 := by
  unfold Op.tailRecords
  split <;> simp

/-- TAIL keeps the invariant (R195, R218). -/
theorem State.Inv.tailPhase {s : State} (h : s.Inv) (hp : s.seq.phase = .tail) :
    (s.currentOp.tailPhase s).Inv := by
  have hbusy : s.seq.phase ≠ .idle := by simp [hp]
  have hcipher : s.seq.phase.ofCipher = true := by rw [hp]; rfl
  obtain ⟨-, hlegal⟩ := h.command.legal hcipher
  obtain ⟨-, hcap, -⟩ := units_bounds hlegal
  obtain ⟨hrst, herr⟩ := h.status.busy hbusy
  have htrace := h.command.tail hp
  have htail := s.currentOp.length_tailRecords_le s
  have hlen : (s.currentOp.tailPhase s).trace.length
      = s.trace.length + (s.currentOp.tailRecords s).length := by simp
  exact
    { buffers := ⟨h.buffers.ibuf, h.buffers.obuf⟩
      status := statusAgrees_complete hrst herr
      keySchedule := h.keySchedule.of_kept rfl rfl nofun nofun
      onWalk := nofun
      command := .of_idle rfl
      fits := h.fits.of_kept ⟨rfl, rfl⟩ rfl rfl h.fits.obuf (Op.lenOut_le hlegal) (by omega)
        (.inl rfl) }

/-! ### Every step -/

/-- The sequencer keeps the invariant, phase by phase (R29). -/
theorem State.Inv.seqStep {s t : State} (h : s.Inv) (ht : s.seqStep = .next t) : t.Inv := by
  cases hp : s.seq.phase with
  | idle =>
    cases (seqStep_idle hp).symm.trans ht
    exact h
  | check =>
    cases (seqStep_check hp).symm.trans ht
    exact h.checkPhase hp
  | kexp =>
    rw [seqStep_kexp hp] at ht
    rw [h.keySchedule.kexp_cases hp ht]
    exact h.kexpStep hp
  | head =>
    cases (seqStep_head hp).symm.trans ht
    exact h.headPhase hp
  | load =>
    cases (seqStep_load hp).symm.trans ht
    exact h.loadPhase hp
  | round =>
    rw [seqStep_round hp] at ht
    obtain ⟨b, rfl, -⟩ := h.keySchedule.round_cases hp ht
    exact h.roundStep hp b
  | store =>
    cases (seqStep_store hp).symm.trans ht
    exact h.storePhase hp
  | tail =>
    cases (seqStep_tail hp).symm.trans ht
    exact h.tailPhase hp

/-- The invariant does not look at the inputs, the read data, the count of free values or HZD, and RST may
be released. -/
theorem State.Inv.withHost {s : State} (h : s.Inv) (l : List Input) (v : BusWord) (n : Nat) (z : Bool)
    {r : Bool} (hr : r = true → s.rst = true) :
    State.Inv { s with inputs := l, rdata := v, free := n, hzd := z, rst := r } := by
  obtain ⟨⟨hibuf, hobuf⟩, ⟨hrun, herr, hrst⟩, hkeys, hwalk, hcommand, hfits⟩ := h
  obtain ⟨h1, h2, h3, h4, h5, h6, h7⟩ := hcommand
  exact ⟨⟨hibuf, hobuf⟩, ⟨hrun, herr, fun e => hrst (hr e)⟩, hkeys.congr rfl rfl rfl, hwalk,
    ⟨h1, h2, h3, h4, h5, h6, h7⟩,
    hfits.of_kept ⟨rfl, rfl⟩ rfl rfl hfits.obuf hfits.lenOut hfits.trace (.inl rfl)⟩

/-- At rest the invariant does not look at the staging registers or TRC_SEL, and IBUF may hold any bytes
that fit. -/
theorem State.Inv.withStores {s : State} (h : s.Inv) (hrest : s.run ≠ .busy) (g : Staging)
    (n : BitVec 32) {m : Memory} (hm : Memory.wf m = true) (hb : Memory.Below s.bufcap.bytes m) :
    State.Inv { s with stage := g, trcSel := n, ibuf := m } where
  buffers := ⟨hm, h.buffers.obuf⟩
  status := ⟨h.status.busyIffPhase, h.status.errorIffErr, h.status.resetIsIdle⟩
  keySchedule := h.keySchedule.congr rfl rfl rfl
  onWalk := h.onWalk
  command := .of_idle (by_contra fun hp => hrest (h.status.busyIffPhase.2 hp))
  fits := ⟨hb, h.fits.obuf, h.fits.lenOut, h.fits.trace, h.fits.ecbIv, h.fits.err⟩

/-- A store at rest keeps the invariant (R34, R60, R73). -/
theorem State.Inv.busStore {s : State} (h : s.Inv) (hrest : s.run ≠ .busy) (a : WordAddr)
    (d : BusWord) : (s.busStore a d).Inv := by
  have hm := h.buffers.ibuf
  have hb := h.fits.ibuf
  rcases busStore_cases a d s with ⟨g, e⟩ | ⟨n, e⟩ | ⟨j, hj, e⟩ <;> rw [e]
  · exact h.withStores hrest g s.trcSel hm hb
  · exact h.withStores hrest s.stage n hm hb
  · exact h.withStores hrest s.stage s.trcSel (Memory.wf_writeBusWord j d hm)
      (Memory.below_writeBytes hb (locate_ibuf hj).1)

/-- The prologue of an accepted command keeps the invariant (R210). -/
theorem State.Inv.prologue {s : State} (h : s.Inv) (d : BusWord) (hr : s.rst = false) :
    (s.prologue d).Inv where
  buffers := ⟨h.buffers.ibuf, h.buffers.obuf⟩
  status := ⟨by simp, by simp, by simp [hr]⟩
  keySchedule := h.keySchedule.of_kept rfl rfl nofun nofun
  onWalk := nofun
  command := .of_start (.inl rfl) rfl rfl
  fits := ⟨h.fits.ibuf, h.fits.obuf, Nat.zero_le _, Nat.zero_le _, h.fits.ecbIv, .inl rfl⟩

/-- The reset state meets the invariant, whatever BUFCAP and the boundary are (R40, R330). -/
theorem inv_reset (cap : BufCap) (l : List Input) (v : BusWord) (r : Bool) (e : List Block) (n : Nat) :
    State.Inv { State.reset with
      bufcap := cap, inputs := l, rdata := v, rst := r, rnd := e, free := n } where
  buffers := ⟨rfl, rfl⟩
  status := ⟨⟨nofun, fun e => absurd rfl e⟩, ⟨nofun, fun e => absurd rfl e⟩, fun _ => rfl⟩
  keySchedule := .of_noInstance rfl nofun nofun
  onWalk := nofun
  command := .of_idle rfl
  fits := ⟨nofun, nofun, Nat.zero_le _, Nat.zero_le _, fun _ => rfl, .inl rfl⟩

/-- Every case of a step keeps the invariant. -/
theorem inv_keptByCases : KeptByCases State.Inv where
  boundary s l v n h := h.withHost l v n s.hzd id
  sequencer s t h ht := h.seqStep ht
  hazard s h := h.withHost s.inputs s.rdata s.free true id
  store s a d h hrest := h.busStore hrest a d
  prologue s d h hr := h.prologue d hr
  driveRst s b h := by
    cases b with
    | true => exact inv_reset s.bufcap s.inputs s.rdata true s.rnd s.free
    | false => exact h.withHost s.inputs s.rdata s.free s.hzd nofun

/-- Settles O57: each case of a step keeps the invariant, a whole command being a run of the sequencer. -/
theorem stepKeepsInvariant : Obligations.StepKeepsInvariant := fun _ _ hs ht =>
  inv_keptByCases.step hs ht

/-- Settles O10: the reset state with its own BUFCAP and an empty boundary. -/
theorem resetMeetsInvariant : Obligations.ResetMeetsInvariant :=
  inv_reset .vectors [] 0 false [] 0

end Sys2Proof.Machine
end

section
/-! SUPPORT. Single steps at rest and in phases KEXP and ROUND (10_state.md R28, R31, R40), and the order of
the walk (R30, R153, R157). -/

namespace Sys2Proof.Machine

/-! ### Single steps -/

/-- Settles O9: each row of the table of R40 is a field of `State.reset`. -/
theorem resetValues : Obligations.ResetValues where
  run := rfl
  valid := rfl
  ivgen := rfl
  hzd := rfl
  err := rfl
  mode := rfl
  keylen := rfl
  ivlen := rfl
  lenIn := rfl
  lenOut := rfl
  trace := rfl
  trcSel := rfl
  seq := rfl

/-- Settles O25: KEXP looks at the index before anything else. -/
theorem kexpOutsideStops : Obligations.KexpOutsideStops := by
  intro s hout
  have hin : ¬ (8 ≤ s.seq.unit.toNat ∧ s.seq.unit.toNat ≤ 59) := by omega
  exact if_neg hin

/-- The sequencer runs the decoded micro-operation in phases KEXP and ROUND (R28, R78). -/
theorem seqStep_uop {s : State} {i : Instr} (hp : s.seq.phase = .kexp ∨ s.seq.phase = .round)
    (hi : decodeUop s.seq.uop = .ok i) : s.seqStep = exec i s := by
  have hrun : s.runUop = exec i s := by rw [State.runUop, hi]
  rcases hp with hp | hp
  · rw [seqStep_kexp hp, hrun]
  · rw [seqStep_round hp, hrun]

/-- With no input waiting a busy core takes one step of its sequencer (R218). -/
theorem step_quiet {s : State} (hin : s.inputs = []) (hb : s.run = .busy) : step s = s.seqStep := by
  simp only [step, hin, State.quietStep, if_pos (State.busy_iff.2 hb)]

/-- `seq` is taken off and a busy core takes one step of its sequencer (R62). -/
theorem step_seq {s : State} {l : List Input} (hin : s.inputs = .seq :: l) (hb : s.run = .busy) :
    step s = State.seqStep { s with inputs := l } := by
  simp only [step, hin, State.inputStep, if_pos (State.busy_iff.2 hb)]

/-- Settles O5: both kinds of step are a sequencer step, which runs the decoded micro-operation. -/
theorem stepRunsDecodedMicroOp : Obligations.StepRunsDecodedMicroOp := by
  intro s i hb hp hi
  refine ⟨fun hin => ?_, fun rest hin => ?_⟩
  · rw [step_quiet hin hb, seqStep_uop hp hi]
  · rw [step_seq hin hb]
    exact seqStep_uop (s := { s with inputs := rest }) hp hi

/-! ### The order of the walk -/

/-- The walk keeps the direction all along. -/
theorem Seq.advance_iter_dir (j : Nat) (q : Seq) : (Seq.advance^[j] q).dir = q.dir := by
  induction j with
  | zero => rfl
  | succ j ih => rw [Function.iterate_succ_apply']; exact (walkNext_dir _ _).trans ih

/-- A position of the walk is `j` micro-operations after its start: the pairs of R30 are distinct states
of SEQ but for the unit. -/
theorem Seq.zeroUnit_of_walk {q : Seq} {j : Nat} (hj : j < 56) (hp : q.phase = .round)
    (hw : (walkOf q.dir)[j]? = some (q.round.val, q.uop)) :
    q.zeroUnit = Seq.advance^[j] (Seq.start q.dir) := by
  obtain ⟨hphase, -, -, hpos⟩ := walk_positions q.dir j hj
  have hunit : (Seq.advance^[j] (Seq.start q.dir)).unit = 0 := Seq.advance_iter_unit j _
  have hdir : (Seq.advance^[j] (Seq.start q.dir)).dir = q.dir := Seq.advance_iter_dir j _
  rw [hw] at hpos
  obtain ⟨phase, unit, round, uop, dir⟩ := q
  generalize Seq.advance^[j] (Seq.start _) = p at *
  obtain ⟨phase', unit', round', uop', dir'⟩ := p
  simp only [Option.some.injEq, Prod.mk.injEq] at hpos
  obtain ⟨hround, huop⟩ := hpos
  simp_all [Seq.zeroUnit, Fin.ext_iff]

/-- A next state of the sequencer's micro-operation is one of `exec` on the decoded code (R78). -/
theorem exec_of_runUop {s t : State} (h : s.runUop = .next t) :
    ∃ i, decodeUop s.seq.uop = .ok i ∧ exec i s = .next t := by
  unfold State.runUop at h
  cases hi : decodeUop s.seq.uop with
  | ok i =>
    rw [hi] at h
    exact ⟨i, rfl, h⟩
  | error r =>
    rw [hi] at h
    cases h

/-- Settles O27: the counts by computation; a pair of the walk is so many micro-operations after its start,
and the next one is one more. -/
theorem walkOrder : Obligations.WalkOrder := by
  refine ⟨by decide, by decide, by decide, by decide, fun s j hj hp hw => ?_⟩
  have hz := Seq.zeroUnit_of_walk hj hp hw
  obtain ⟨-, hlo, hhi, -⟩ := walk_positions s.seq.dir j hj
  rw [← hz] at hlo hhi
  obtain ⟨i, hi, hexec⟩ := exec_of_runUop (runUop_micro (s := s) hlo hhi)
  have hseq : (microStep s).seq = s.seq.advance := microStep_seq hlo hhi
  have hnext : s.seq.advance.zeroUnit = Seq.advance^[j + 1] (Seq.start s.seq.dir) := by
    rw [Function.iterate_succ_apply', ← hz]
    exact walkNext_zeroUnit _ _
  refine ⟨i, microStep s, hi, hexec, ?_, ?_, fun hlt => ?_, fun hlast => ?_⟩
  · rw [hseq]
    exact walkNext_dir _ _
  · rw [hseq]
    exact walkNext_unit _ _
  · obtain ⟨hphase, -, -, hpos⟩ := walk_positions s.seq.dir (j + 1) (by omega)
    rw [← hnext] at hphase hpos
    rw [hseq]
    exact ⟨hphase, hpos⟩
  · have hend := walk_end s.seq.dir
    rw [hlast] at hnext
    rw [← hnext] at hend
    rw [hseq]
    exact hend

end Sys2Proof.Machine
end

section
/-! SUPPORT. What the micro-operations, a unit and a whole command leave alone (10_state.md R36;
41_round_ops.md R120; 43_modes.md R178, R179), and what alone reaches CFG (R21, R212). -/

namespace Sys2Proof.Machine

/-! ### Micro-operations -/

theorem KeptByRoundOp.refl (s : State) : KeptByRoundOp s s := ⟨rfl, rfl, rfl⟩

theorem KeptByRoundOp.trans {s t u : State} (h : KeptByRoundOp s t) (h' : KeptByRoundOp t u) :
    KeptByRoundOp s u where
  rest := h'.rest.trans (congrArg (fun v : State =>
    { v with dp := { v.dp with s := u.dp.s }, trace := u.trace, seq := u.seq }) h.rest)
  unit := h'.unit.trans h.unit
  dir := h'.dir.trans h.dir

theorem keptByRoundOp_roundStep (c : BitVec 4) (b : Block) (s : State) :
    KeptByRoundOp s (s.roundStep c b) := ⟨rfl, walkNext_unit _ _, walkNext_dir _ _⟩

theorem keptByRoundOp_microStep (s : State) : KeptByRoundOp s (microStep s) := by
  unfold microStep
  split
  case h_8 => exact .refl s
  all_goals exact keptByRoundOp_roundStep _ _ s

theorem keptByRoundOp_microStep_iter (j : Nat) (s : State) : KeptByRoundOp s (microStep^[j] s) := by
  induction j with
  | zero => exact .refl s
  | succ j ih =>
    rw [Function.iterate_succ_apply']
    exact ih.trans (keptByRoundOp_microStep _)

/-- A micro-operation changes nothing a cipher command may not change, and neither OBUF nor ULEN. -/
theorem KeptByRoundOp.frame {s t : State} (h : KeptByRoundOp s t) :
    KeptByCipher s t ∧ t.obuf = s.obuf ∧ t.dp.ulen = s.dp.ulen := by
  rw [h.rest]
  exact ⟨⟨rfl, rfl, rfl, rfl, rfl, rfl, rfl, rfl, rfl, rfl, rfl, rfl⟩, rfl, rfl⟩

/-! ### A cipher command -/

theorem KeptByCipher.refl (s : State) : KeptByCipher s s :=
  ⟨rfl, rfl, rfl, rfl, rfl, rfl, rfl, rfl, rfl, rfl, rfl, rfl⟩

theorem KeptByCipher.trans {s t u : State} (h : KeptByCipher s t) (h' : KeptByCipher t u) :
    KeptByCipher s u where
  cfg := h'.cfg.trans h.cfg
  stage := h'.stage.trans h.stage
  rk := h'.rk.trans h.rk
  hzd := h'.hzd.trans h.hzd
  trcSel := h'.trcSel.trans h.trcSel
  ibuf := h'.ibuf.trans h.ibuf
  bufcap := h'.bufcap.trans h.bufcap
  inputs := h'.inputs.trans h.inputs
  rdata := h'.rdata.trans h.rdata
  rst := h'.rst.trans h.rst
  rnd := h'.rnd.trans h.rnd
  free := h'.free.trans h.free

/-- What a cipher command leaves alone, with the bytes of OBUF from `b` on; canonical form is carried
along. -/
structure KeptFrom (b : Nat) (s t : State) : Prop where
  kept : KeptByCipher s t
  wf : Memory.wf s.obuf = true → Memory.wf t.obuf = true
  bytes : Memory.wf s.obuf = true → ∀ a, b ≤ a → Memory.read a t.obuf = Memory.read a s.obuf

theorem KeptFrom.of_obuf {b : Nat} {s t : State} (h : KeptByCipher s t) (ho : t.obuf = s.obuf) :
    KeptFrom b s t where
  kept := h
  wf hw := by rw [ho]; exact hw
  bytes _ a _ := by rw [ho]

theorem KeptFrom.refl (b : Nat) (s : State) : KeptFrom b s s := .of_obuf (.refl s) rfl

theorem KeptFrom.trans {b : Nat} {s t u : State} (h : KeptFrom b s t) (h' : KeptFrom b t u) :
    KeptFrom b s u where
  kept := h.kept.trans h'.kept
  wf hw := h'.wf (h.wf hw)
  bytes hw a ha := (h'.bytes (h.wf hw) a ha).trans (h.bytes hw a ha)

/-- A store of bytes that end at or before `b` leaves the bytes from `b` on. -/
theorem KeptFrom.of_writeBytes {b off : Nat} {l : List Byte} {s t : State} (h : KeptByCipher s t)
    (ho : t.obuf = Memory.writeBytes off l s.obuf) (hl : off + l.length ≤ b ∨ l.length = 0) :
    KeptFrom b s t where
  kept := h
  wf hw := by rw [ho]; exact Memory.wf_writeBytes _ _ hw
  bytes hw a ha := by
    rw [ho, Memory.read_writeBytes _ _ _ hw, if_neg (by omega)]

/-- HEAD stores at most the IV, before the message (R178, R194). -/
theorem keptFrom_headPhase (o : Op) (s : State) (n : Nat) :
    KeptFrom (o.obase + n) s (o.headPhase s) := by
  have hkept : KeptByCipher s (o.headPhase s) :=
    ⟨rfl, rfl, rfl, rfl, rfl, rfl, rfl, rfl, rfl, rfl, rfl, rfl⟩
  by_cases hiv : o.enc = true ∧ o.mode ≠ .ecb
  · have hbase : o.obase = 16 := by rw [Op.obase, if_pos hiv.1, if_neg hiv.2]
    refine .of_writeBytes hkept (if_pos hiv) (.inl ?_)
    rw [Block.length_toList]
    omega
  · exact .of_obuf hkept (if_neg hiv)

/-- STORE of a unit with its own ULEN stays inside the message (R178, R193). -/
theorem keptFrom_storePhase (o : Op) {s : State} {n : Nat}
    (hu : s.dp.ulen.toNat = o.ulen n s.seq.unit.toNat) :
    KeptFrom (o.obase + o.total n) s (o.storePhase s) := by
  refine .of_writeBytes ⟨rfl, rfl, rfl, rfl, rfl, rfl, rfl, rfl, rfl, rfl, rfl, rfl⟩ rfl ?_
  rw [List.length_take, Block.length_toList, hu, Op.ulen]
  omega

/-- A unit stays inside the message (R178, R192, R193). -/
theorem keptFrom_unitStep (o : Op) (s : State) :
    KeptFrom (o.obase + o.total s.stage.lenIn.toNat) s (o.unitStep s) := by
  have hload : KeptByCipher s (o.loadPhase s) :=
    ⟨rfl, rfl, rfl, rfl, rfl, rfl, rfl, rfl, rfl, rfl, rfl, rfl⟩
  have hulen : (o.loadPhase s).dp.ulen.toNat = o.ulen s.stage.lenIn.toNat s.seq.unit.toNat :=
    Op.toNat_ulen _ _ _
  have hunit : (o.loadPhase s).seq.unit = s.seq.unit := rfl
  have hobuf := o.loadPhase_obuf s
  have hwalk := keptByRoundOp_microStep_iter 56 (o.loadPhase s)
  obtain ⟨hround, hobuf', hulen'⟩ := hwalk.frame
  have hunit' := hwalk.unit
  unfold Op.unitStep
  generalize microStep^[56] (o.loadPhase s) = m at *
  have hm : m.dp.ulen.toNat = o.ulen s.stage.lenIn.toNat m.seq.unit.toNat := by
    rw [hulen', hulen, hunit', hunit]
  exact (KeptFrom.of_obuf (hload.trans hround) (hobuf'.trans hobuf)).trans
    (keptFrom_storePhase o hm)

/-- So do many units. -/
theorem keptFrom_unitStep_iter (o : Op) (j : Nat) (s : State) :
    KeptFrom (o.obase + o.total s.stage.lenIn.toNat) s (o.unitStep^[j] s) := by
  induction j with
  | zero => exact .refl _ s
  | succ j ih =>
    rw [Function.iterate_succ_apply']
    have hstep := keptFrom_unitStep o (o.unitStep^[j] s)
    rw [ih.kept.stage] at hstep
    exact ih.trans hstep

/-- The walk of a command after its checks stays inside the frame it writes (R178). -/
theorem keptFrom_run (o : Op) (s : State) :
    KeptFrom (o.obase + o.total s.stage.lenIn.toNat) s (o.run s) := by
  have hhead := keptFrom_headPhase o s (o.total s.stage.lenIn.toNat)
  have hunits := keptFrom_unitStep_iter o (o.units s.stage.lenIn.toNat) (o.headPhase s)
  rw [hhead.kept.stage] at hunits
  unfold Op.run
  generalize o.unitStep^[o.units s.stage.lenIn.toNat] (o.headPhase s) = u at *
  exact (hhead.trans hunits).trans
    (.of_obuf ⟨rfl, rfl, rfl, rfl, rfl, rfl, rfl, rfl, rfl, rfl, rfl, rfl⟩ rfl)

/-- A whole command either raises, with OBUF and the datapath as they were, or ends without an error. -/
theorem Op.command_frame (o : Op) (s : State) :
    KeptFrom (o.obase + o.total s.stage.lenIn.toNat) s (o.command s)
    ∧ ((o.command s).run = .error → (o.command s).obuf = s.obuf ∧ (o.command s).dp = s.dp) := by
  have hprologue : KeptFrom (o.obase + o.total s.stage.lenIn.toNat) s
      (s.prologue (if o.enc then 2 else 3)) :=
    .of_obuf ⟨rfl, rfl, rfl, rfl, rfl, rfl, rfl, rfl, rfl, rfl, rfl, rfl⟩ rfl
  have hrun := keptFrom_run o (s.prologue (if o.enc then 2 else 3))
  unfold Op.command
  split
  · exact ⟨.of_obuf ⟨rfl, rfl, rfl, rfl, rfl, rfl, rfl, rfl, rfl, rfl, rfl, rfl⟩ rfl,
      fun _ => ⟨rfl, rfl⟩⟩
  · exact ⟨hprologue.trans hrun, nofun⟩

/-- Settles O41: HEAD and every STORE write below `obase + L`, and nothing else touches OBUF. -/
theorem cipherFrame : Obligations.CipherFrame := by
  intro o s hw
  obtain ⟨hkept, herror⟩ := o.command_frame s
  exact ⟨o.command s, exec_instr o s, hkept.kept, hkept.bytes hw, herror⟩

/-! ### The host's registers -/

/-- What no instruction writes (R36): the staging registers, TRC_SEL, IBUF, HZD, BUFCAP, the inputs, the read
data and RST. -/
def KeptHost (s t : State) : Prop :=
  t.stage = s.stage ∧ t.trcSel = s.trcSel ∧ t.ibuf = s.ibuf ∧ t.hzd = s.hzd
  ∧ t.bufcap = s.bufcap ∧ t.inputs = s.inputs ∧ t.rdata = s.rdata ∧ t.rst = s.rst

theorem KeptHost.refl (s : State) : KeptHost s s := ⟨rfl, rfl, rfl, rfl, rfl, rfl, rfl, rfl⟩

theorem KeptHost.trans {s t u : State} : KeptHost s t → KeptHost t u → KeptHost s u :=
  fun ⟨a1, a2, a3, a4, a5, a6, a7, a8⟩ ⟨b1, b2, b3, b4, b5, b6, b7, b8⟩ =>
    ⟨b1.trans a1, b2.trans a2, b3.trans a3, b4.trans a4, b5.trans a5, b6.trans a6, b7.trans a7,
      b8.trans a8⟩

theorem KeptByCipher.host {s t : State} (h : KeptByCipher s t) : KeptHost s t :=
  ⟨h.stage, h.trcSel, h.ibuf, h.hzd, h.bufcap, h.inputs, h.rdata, h.rst⟩

theorem keptHost_kexpStep (s : State) : KeptHost s (kexpStep s) := by
  by_cases hlast : s.seq.unit = 59
  · rw [kexpStep_last hlast]
    exact ⟨rfl, rfl, rfl, rfl, rfl, rfl, rfl, rfl⟩
  · rw [kexpStep_of_ne hlast]
    exact ⟨rfl, rfl, rfl, rfl, rfl, rfl, rfl, rfl⟩

theorem keptHost_kexpStep_iter (j : Nat) (s : State) : KeptHost s (kexpStep^[j] s) := by
  induction j with
  | zero => exact .refl s
  | succ j ih =>
    rw [Function.iterate_succ_apply']
    exact ih.trans (keptHost_kexpStep _)

theorem keptHost_initLatch (s : State) : KeptHost s s.initLatch := by simp [KeptHost]

theorem keptHost_initRun (s : State) : KeptHost s (initRun s) := by
  have hopen : KeptHost s s.initOpen := ⟨rfl, rfl, rfl, rfl, rfl, rfl, rfl, rfl⟩
  unfold initRun
  split
  · exact hopen
  · exact hopen.trans ((keptHost_initLatch _).trans (keptHost_kexpStep_iter 52 _))

/-- The instructions by meaning (R82): INIT, KEXP, a cipher command, or a round micro-operation. -/
theorem instr_cases (i : Instr) (s : State) :
    i = .init ∨ i = .kexp ∨ (∃ o : Op, i = o.instr) ∨ ∃ c b, roundOf i s = some (c, b) := by
  cases i
  case init => exact .inl rfl
  case kexp => exact .inr (.inl rfl)
  case encryptEcb => exact .inr (.inr (.inl ⟨⟨true, .ecb⟩, rfl⟩))
  case encryptCbc => exact .inr (.inr (.inl ⟨⟨true, .cbc⟩, rfl⟩))
  case encryptCfb => exact .inr (.inr (.inl ⟨⟨true, .cfb⟩, rfl⟩))
  case encryptOfb => exact .inr (.inr (.inl ⟨⟨true, .ofb⟩, rfl⟩))
  case encryptCtr => exact .inr (.inr (.inl ⟨⟨true, .ctr⟩, rfl⟩))
  case decryptEcb => exact .inr (.inr (.inl ⟨⟨false, .ecb⟩, rfl⟩))
  case decryptCbc => exact .inr (.inr (.inl ⟨⟨false, .cbc⟩, rfl⟩))
  case decryptCfb => exact .inr (.inr (.inl ⟨⟨false, .cfb⟩, rfl⟩))
  case decryptOfb => exact .inr (.inr (.inl ⟨⟨false, .ofb⟩, rfl⟩))
  case decryptCtr => exact .inr (.inr (.inl ⟨⟨false, .ctr⟩, rfl⟩))
  all_goals exact .inr (.inr (.inr ⟨_, _, rfl⟩))

/-- A next state of KEXP is its one meaning (R105). -/
theorem exec_kexp_next {s t : State} (h : exec .kexp s = .next t) : t = kexpStep s := by
  by_cases hin : 8 ≤ s.seq.unit.toNat ∧ s.seq.unit.toNat ≤ 59
  · exact (Host.Outcome.next.inj ((exec_kexp hin).symm.trans h)).symm
  · rw [kexpOutsideStops s (by omega)] at h
    cases h

/-- Settles O42: by the four kinds of instruction. -/
theorem commandsKeepHostRegisters : Obligations.CommandsKeepHostRegisters := by
  intro i s t h
  rcases instr_cases i s with rfl | rfl | ⟨o, rfl⟩ | ⟨c, b, hround⟩
  · cases (exec_init s).symm.trans h
    exact keptHost_initRun s
  · rw [exec_kexp_next h]
    exact keptHost_kexpStep s
  · cases (exec_instr o s).symm.trans h
    exact (o.command_frame s).1.kept.host
  · cases (exec_round hround).symm.trans h
    exact (keptByRoundOp_roundStep c b s).frame.1.host

/-! ### DECRYPT and CFG.iv -/

/-- The state with another CFG.iv. -/
def State.setIv (iv : Block) (s : State) : State := { s with cfg := { s.cfg with iv := iv } }

/-- A micro-operation does not look at CFG.iv (R120). -/
theorem microStep_setIv (iv : Block) (s : State) :
    microStep (s.setIv iv) = (microStep s).setIv iv := by
  have hseq : (s.setIv iv).seq = s.seq := rfl
  unfold microStep
  rw [hseq]
  split <;> rfl

/-- A unit of DECRYPT does not look at CFG.iv (R192, R193). -/
theorem unitStep_setIv (m : Mode) (iv : Block) (s : State) :
    Op.unitStep ⟨false, m⟩ (s.setIv iv) = (Op.unitStep ⟨false, m⟩ s).setIv iv := by
  have hwalk : Function.Semiconj (State.setIv iv) microStep microStep :=
    fun u => (microStep_setIv iv u).symm
  have hload : Op.loadPhase ⟨false, m⟩ (s.setIv iv) = (Op.loadPhase ⟨false, m⟩ s).setIv iv := rfl
  have hstore : ∀ u, Op.storePhase ⟨false, m⟩ (State.setIv iv u)
      = State.setIv iv (Op.storePhase ⟨false, m⟩ u) := fun _ => rfl
  unfold Op.unitStep
  rw [hload, ← (hwalk.iterate_right 56).eq, hstore]

/-- DECRYPT after its checks does not look at CFG.iv: the IV in force is read from IBUF (R179). -/
theorem run_setIv (m : Mode) (iv : Block) (s : State) :
    Op.run ⟨false, m⟩ (s.setIv iv) = (Op.run ⟨false, m⟩ s).setIv iv := by
  have hunits : Function.Semiconj (State.setIv iv) (Op.unitStep ⟨false, m⟩) (Op.unitStep ⟨false, m⟩) :=
    fun u => (unitStep_setIv m iv u).symm
  have hhead : Op.headPhase ⟨false, m⟩ (s.setIv iv) = (Op.headPhase ⟨false, m⟩ s).setIv iv := rfl
  have htail : ∀ u, Op.tailPhase ⟨false, m⟩ (State.setIv iv u)
      = State.setIv iv (Op.tailPhase ⟨false, m⟩ u) := fun _ => rfl
  have hlen : (s.setIv iv).stage = s.stage := rfl
  unfold Op.run
  rw [hhead, hlen, ← (hunits.iterate_right _).eq, htail]

/-- A whole DECRYPT does not look at CFG.iv, in its checks either (R213, R216). -/
theorem decryptRun_setIv (m : Mode) (iv : Block) (s : State) :
    decryptRun m (s.setIv iv) = (decryptRun m s).setIv iv := by
  have hprologue : (s.setIv iv).prologue 3 = (s.prologue 3).setIv iv := rfl
  have hcheck : ((s.prologue 3).setIv iv).decryptCheck m = (s.prologue 3).decryptCheck m := rfl
  unfold decryptRun
  simp only [hprologue, hcheck]
  split
  · rfl
  · exact run_setIv m iv _

/-- Settles O44: every phase of DECRYPT commutes with a change of CFG.iv. -/
theorem decryptIgnoresCfgIv : Obligations.DecryptIgnoresCfgIv := fun m s iv =>
  ⟨decryptRun m s, exec_decryptOf m s,
    (exec_decryptOf m (s.setIv iv)).trans (congrArg _ (decryptRun_setIv m iv s))⟩

/-! ### CFG -/

/-- A sequencer step that changes CFG is CHECK of INIT or KEXP (R212, R105). -/
theorem seqStep_cfg {s t : State} (h : s.seqStep = .next t) (hcfg : t.cfg ≠ s.cfg) :
    (s.seq.phase = .check ∧ s.cmd = 1) ∨ s.seq.uop = 8 := by
  have huop : s.runUop = .next t → s.seq.uop = 8 := by
    intro hrun
    rcases runUop_cases hrun with ⟨b, rfl, -⟩ | ⟨hu, -⟩
    · exact absurd rfl hcfg
    · exact hu
  cases hp : s.seq.phase with
  | idle =>
    cases (seqStep_idle hp).symm.trans h
    exact absurd rfl hcfg
  | check =>
    cases (seqStep_check hp).symm.trans h
    rcases checkPhase_cases s with ⟨e, -, -, ht⟩ | ⟨-, -, ht⟩ | ⟨hinit, -⟩
    · exact absurd (congrArg State.cfg ht) hcfg
    · exact absurd (congrArg State.cfg ht) hcfg
    · exact .inl ⟨rfl, hinit⟩
  | kexp => exact .inr (huop ((seqStep_kexp hp).symm.trans h))
  | head =>
    cases (seqStep_head hp).symm.trans h
    exact absurd rfl hcfg
  | load =>
    cases (seqStep_load hp).symm.trans h
    exact absurd rfl hcfg
  | round => exact .inr (huop ((seqStep_round hp).symm.trans h))
  | store =>
    cases (seqStep_store hp).symm.trans h
    exact absurd rfl hcfg
  | tail =>
    cases (seqStep_tail hp).symm.trans h
    exact absurd rfl hcfg

/-- The only command word whose whole command changes CFG is INIT's (R211, R212, R214). -/
theorem runCommand_cfg {d : BusWord} {s t : State} (h : s.runCommand d = .next t)
    (hcfg : t.cfg ≠ s.cfg) : d = 1 := by
  unfold State.runCommand at h
  cases hd : decodeCmd s.cfg.mode d with
  | error r =>
    rw [hd] at h
    cases h
    exact absurd rfl hcfg
  | ok i =>
    rw [hd] at h
    have hcipher : ∀ o : Op, exec o.instr s = .next t → d = 1 := by
      intro o ho
      cases (exec_instr o s).symm.trans ho
      exact absurd (o.command_frame s).1.kept.cfg hcfg
    rcases decodeCmd_ok_iff.1 hd with ⟨h1, -⟩ | ⟨-, rfl⟩ | ⟨-, rfl⟩
    · exact h1
    · exact hcipher ⟨true, s.cfg.mode⟩ h
    · exact hcipher ⟨false, s.cfg.mode⟩ h

/-- Settles O53: by the cases of a step; only a sequencer step, INIT as a whole and RST reach CFG. -/
theorem onlyInitWritesCfg : Obligations.OnlyInitWritesCfg := by
  intro s t hst hcfg
  rcases step_cases hst with ⟨l, v, n, rfl⟩ | ⟨hb, l, v, n, hq⟩ | ⟨-, -, l, -, -, -, rfl⟩
    | ⟨a, d, l, -, -, -, -, rfl⟩ | ⟨d, l, hin, -, hb, hc⟩ | ⟨b, l, hin, rfl⟩
  · exact absurd rfl hcfg
  · exact .inr (.inr ⟨hb, seqStep_cfg (s := s.withBoundary l v n) hq hcfg⟩)
  · exact absurd rfl hcfg
  · rcases busStore_cases a d { s with inputs := l } with ⟨g, e⟩ | ⟨n, e⟩ | ⟨j, -, e⟩ <;>
      exact absurd (congrArg State.cfg e) hcfg
  · rcases hc with ⟨-, hc⟩ | ⟨-, rfl⟩
    · obtain rfl := runCommand_cfg hc hcfg
      exact .inr (.inl ⟨l, hin, hb⟩)
    · exact absurd rfl hcfg
  · cases b with
    | true => exact .inl ⟨l, hin⟩
    | false => exact absurd rfl hcfg

end Sys2Proof.Machine
end

section
/-! SUPPORT. Host reads, host writes at rest and the form of the buffers (20_memory.md R50, R55, R60, R62;
30_encoding.md R72, R73, R77). -/

namespace Sys2Proof.Machine

/-! ### The map, from either side -/

/-- The word addresses of IV_CFG (R72). -/
theorem locate_ivCfg {cap : BufCap} {a : WordAddr} {j : Nat} (h : locate cap a = .ivCfg j) :
    0x70 / 4 ≤ a.toNat ∧ a.toNat < 0x80 / 4 := by
  unfold locate at h
  split_ifs at h
  · unfold locateRegister at h
    split at h <;> cases h
  · unfold locateWindow at h
    split_ifs at h
    omega
  · unfold locateRk at h
    split_ifs at h
  · unfold locateBuffer at h
    split_ifs at h

/-- The word addresses of the round-key window (R72). -/
theorem locate_rkWord {cap : BufCap} {a : WordAddr} {i : Nat} (h : locate cap a = .rk i) :
    0x100 / 4 ≤ a.toNat ∧ a.toNat < 0x1F0 / 4 := by
  unfold locate at h
  split_ifs at h
  · unfold locateRegister at h
    split at h <;> cases h
  · unfold locateWindow at h
    split_ifs at h
  · unfold locateRk at h
    split_ifs at h
    omega
  · unfold locateBuffer at h
    split_ifs at h

/-- Word `j` of KEY_IN (R72). -/
theorem locate_keyIn_of {cap : BufCap} {a : WordAddr} {j : Nat} (hj : j < 8)
    (ha : a.toNat = 0x40 / 4 + j) : locate cap a = .keyIn j := by
  rw [locate_window (by omega) (by omega), locateWindow, if_pos (by omega)]
  congr 1
  omega

/-- Word `j` of IV_IN (R72). -/
theorem locate_ivIn_of {cap : BufCap} {a : WordAddr} {j : Nat} (hj : j < 4)
    (ha : a.toNat = 0x60 / 4 + j) : locate cap a = .ivIn j := by
  rw [locate_window (by omega) (by omega), locateWindow, if_neg (by omega), if_pos (by omega)]
  congr 1
  omega

/-- Word `j` of IBUF (R72). -/
theorem locate_ibuf_of {cap : BufCap} {a : WordAddr} {j : Nat} (hj : j < cap.bytes / 4)
    (ha : a.toNat = 0x10000 / 4 + j) : locate cap a = .ibuf j := by
  rw [locate_buffer (by omega), locateBuffer, if_pos (by omega)]
  congr 1
  omega

/-- The locations a host write changes or commands (R72, R73). -/
def Location.writable : Location → Bool
  | .cmd | .mode | .keylen | .ivlen | .lenIn | .trcSel | .keyIn _ | .ivIn _ | .ibuf _ => true
  | .status | .err | .lenOut | .trcCnt | .ivCfg _ | .trcRec _ | .rk _ | .obuf _ | .reserved => false

/-- The registers that are read-only or reserved (R72). -/
theorem locateRegister_not_writable : ∀ n < 16, n = 1 ∨ n = 2 ∨ n = 7 ∨ n = 8 ∨ 10 ≤ n →
    (locateRegister n).writable = false := by decide

/-- The read-only and reserved ranges of the map (R72). -/
theorem locate_not_writable {cap : BufCap} {a : WordAddr}
    (ha : a.toNat ∈ [1, 2, 7, 8] ∨ 0x28 / 4 ≤ a.toNat ∧ a.toNat < 0x40 / 4
      ∨ 0x70 / 4 ≤ a.toNat ∧ a.toNat < 0x10000 / 4 ∨ (0x10000 + cap.bytes) / 4 ≤ a.toNat) :
    (locate cap a).writable = false := by
  have hcap : cap.bytes = 16 * (4 + cap.extra.val) := rfl
  simp only [List.mem_cons, List.not_mem_nil, or_false] at ha
  rcases Nat.lt_or_ge a.toNat 16 with h1 | h1
  · rw [locate_register h1]
    exact locateRegister_not_writable _ h1 (by omega)
  · rcases Nat.lt_or_ge a.toNat 64 with h2 | h2
    · rw [locate_window h1 h2, locateWindow, if_neg (by omega), if_neg (by omega)]
      split_ifs <;> rfl
    · rcases Nat.lt_or_ge a.toNat 16384 with h3 | h3
      · rw [locate_rk h2 h3, locateRk]
        split_ifs <;> rfl
      · rw [locate_buffer h3, locateBuffer, if_neg (by omega)]
        split_ifs <;> rfl

/-! ### Reads -/

/-- A read is defined (R60, R62, U1, U3, U4): RST is low, STATUS alone while BUSY, and the RK and IV_CFG
windows with an instance. -/
structure State.ReadDefined (s : State) (a : WordAddr) : Prop where
  running : s.rst = false
  busyStatus : s.run = .busy → a = statusAddr
  hasInstance : 0x70 / 4 ≤ a.toNat ∧ a.toNat < 0x80 / 4 ∨ 0x100 / 4 ≤ a.toNat ∧ a.toNat < 0x1F0 / 4 →
    s.cfg.valid = true

@[simp] theorem State.withBoundary_cfg (l : List Input) (v : BusWord) (n : Nat) (s : State) :
    (s.withBoundary l v n).cfg = s.cfg := rfl

@[simp] theorem State.withBoundary_bufcap (l : List Input) (v : BusWord) (n : Nat) (s : State) :
    (s.withBoundary l v n).bufcap = s.bufcap := rfl

@[simp] theorem State.withBoundary_rk (l : List Input) (v : BusWord) (n : Nat) (s : State) :
    (s.withBoundary l v n).rk = s.rk := rfl

/-- The boundary fields have no part in the value of a defined read at rest (R60). -/
theorem State.ReadDefined.busReadIdle_withBoundary {s : State} {a : WordAddr} (h : s.ReadDefined a)
    (l : List Input) (v : BusWord) (n : Nat) : (s.withBoundary l v n).busReadIdle a =
      (s.withBoundary l v n).returns (s.busReadIdle a).rdata := by
  unfold State.busReadIdle
  rw [State.withBoundary_bufcap]
  cases hl : locate s.bufcap a with
  | ivCfg j => simp [h.hasInstance (.inl (locate_ivCfg hl))]
  | rk i => simp [h.hasInstance (.inr (locate_rkWord hl))]
  | _ => rfl

/-- The boundary fields have no part in the value of a defined read (R60, R62). -/
theorem State.ReadDefined.busRead_withBoundary {s : State} {a : WordAddr} (h : s.ReadDefined a)
    (l : List Input) (v : BusWord) (n : Nat) : (s.withBoundary l v n).busRead a =
      (s.withBoundary l v n).returns (s.busRead a).rdata := by
  by_cases hb : s.run = .busy
  · obtain rfl := h.busyStatus hb
    have hbusy := State.busy_iff.2 hb
    rw [busRead_status h.running hbusy]
    exact busRead_status (u := s.withBoundary l v n) h.running hbusy
  · have hidle := State.not_busy_iff.2 hb
    rw [busRead_idle a h.running hidle, ← h.busReadIdle_withBoundary]
    exact busRead_idle (u := s.withBoundary l v n) a h.running hidle

/-- The step of a host read (R60). -/
theorem step_read {s : State} {a : WordAddr} {rest : List Input} (hin : s.inputs = .read a :: rest) :
    step s = .next ((s.withBoundary rest s.rdata s.free).busRead a) := by
  rw [step, hin]
  rfl

/-- Settles O13: a read changes boundary fields alone, and these have no part in a defined value. -/
theorem readsHaveNoEffect : Obligations.ReadsHaveNoEffect := by
  refine ⟨fun s a rest hin => ?_, fun s t u a rest hin hrst hbusy hinst hst htu => ?_⟩
  · obtain ⟨v, n, hread⟩ := busRead_boundary a (s.withBoundary rest s.rdata s.free)
    exact ⟨v, n, (step_read hin).trans (congrArg _ hread)⟩
  · have hdefined : s.ReadDefined a := ⟨hrst, hbusy, hinst⟩
    rw [step_read hin, hdefined.busRead_withBoundary] at hst
    cases hst
    cases (step_read rfl).symm.trans htu
    have hsecond := congrArg State.rdata
      (hdefined.busRead_withBoundary rest (s.busRead a).rdata s.free)
    exact hsecond

/-! ### Writes at rest -/

/-- The step of a host write elsewhere than CMD, at rest (R60). -/
theorem step_store {s : State} {a : WordAddr} {d : BusWord} {rest : List Input}
    (hin : s.inputs = .write a d :: rest) (hrst : s.rst = false) (hrest : s.run ≠ .busy)
    (ha : a.toNat ≠ 0) : step s = .next (State.busStore a d { s with inputs := rest }) := by
  have hcmd : a ≠ cmdAddr := fun e => ha (congrArg BitVec.toNat e)
  rw [step, hin]
  exact busWrite_store (u := { s with inputs := rest }) d hrst (State.not_busy_iff.2 hrest) hcmd

section
variable {s : State} {a : WordAddr} {j : Nat} (d : BusWord)

/-- A store to MODE takes the low 3 bits (R77). -/
theorem busStore_mode (h : locate s.bufcap a = .mode) :
    s.busStore a d = { s with stage := { s.stage with mode := d.extractLsb' 0 3 } } := by
  rw [State.busStore, h]
  rfl

/-- A store to KEYLEN takes the low 8 bits (R77). -/
theorem busStore_keylen (h : locate s.bufcap a = .keylen) :
    s.busStore a d = { s with stage := { s.stage with keylen := d.extractLsb' 0 8 } } := by
  rw [State.busStore, h]
  rfl

/-- A store to IVLEN takes the low 8 bits (R77). -/
theorem busStore_ivlen (h : locate s.bufcap a = .ivlen) :
    s.busStore a d = { s with stage := { s.stage with ivlen := d.extractLsb' 0 8 } } := by
  rw [State.busStore, h]
  rfl

theorem busStore_lenIn (h : locate s.bufcap a = .lenIn) :
    s.busStore a d = { s with stage := { s.stage with lenIn := d } } := by
  rw [State.busStore, h]

theorem busStore_trcSel (h : locate s.bufcap a = .trcSel) :
    s.busStore a d = { s with trcSel := d } := by
  rw [State.busStore, h]

theorem busStore_keyIn (h : locate s.bufcap a = .keyIn j) : s.busStore a d =
    { s with stage := { s.stage with keyIn := s.stage.keyIn.setWord j (Word.ofBus d) } } := by
  rw [State.busStore, h]

theorem busStore_ivIn (h : locate s.bufcap a = .ivIn j) : s.busStore a d =
    { s with stage := { s.stage with ivIn := s.stage.ivIn.setWord j (Word.ofBus d) } } := by
  rw [State.busStore, h]

theorem busStore_ibuf (h : locate s.bufcap a = .ibuf j) :
    s.busStore a d = { s with ibuf := Memory.writeBusWord s.ibuf j d } := by
  rw [State.busStore, h]

/-- A store to a read-only or reserved location is ignored (R60, R73). -/
theorem busStore_ignored (h : (locate s.bufcap a).writable = false) : s.busStore a d = s := by
  unfold State.busStore
  generalize locate s.bufcap a = l at h
  cases l with
  | cmd | mode | keylen | ivlen | lenIn | trcSel | keyIn | ivIn | ibuf => cases h
  | _ => rfl

end

/-- A bus store by lanes: byte `n` is lane `n % 4` of word `n / 4` (R55). -/
theorem Memory.read_writeBusWord_lane (j n : Nat) (d : BusWord) {m : Memory} (h : Memory.wf m = true) :
    Memory.read n (Memory.writeBusWord m j d) =
      if n / 4 = j then d.extractLsb' (8 * (n % 4)) 8 else Memory.read n m := by
  rw [Memory.read_writeBusWord j n d h]
  by_cases hn : n / 4 = j
  · rw [if_pos (by omega), if_pos hn, show n - 4 * j = n % 4 by omega,
      ofBus_get d _ (Nat.mod_lt n (by decide))]
  · rw [if_neg (by omega), if_neg hn]

/-- Settles O14: the location each address names, and what a store does there. -/
theorem writesStore : Obligations.WritesStore := by
  intro s a d rest hin hrst hrest hwf
  have hstep : a.toNat ≠ 0 → ∀ {u}, State.busStore a d { s with inputs := rest } = u →
      step s = .next u :=
    fun ha _ hu => (step_store hin hrst hrest ha).trans (congrArg _ hu)
  have hregister : ∀ k < 16, a.toNat = k → locate s.bufcap a = locateRegister k :=
    fun k hk ha => ha ▸ locate_register (ha ▸ hk)
  refine ⟨fun ha => ?_, fun ha => ?_, fun ha => ?_, fun ha => ?_, fun ha => ?_,
    fun j hj ha => ⟨s.stage.keyIn.setWord j (Word.ofBus d), ?_, fun n hn => ?_⟩,
    fun j hj ha => ⟨s.stage.ivIn.setWord j (Word.ofBus d), ?_, fun n hn => ?_⟩,
    fun j hj ha => ⟨Memory.writeBusWord s.ibuf j d, ?_, fun n =>
      Memory.read_writeBusWord_lane j n d hwf⟩, fun ha => ?_⟩
  · exact hstep (by omega) (busStore_mode d (hregister 3 (by decide) ha))
  · exact hstep (by omega) (busStore_keylen d (hregister 4 (by decide) ha))
  · exact hstep (by omega) (busStore_ivlen d (hregister 5 (by decide) ha))
  · exact hstep (by omega) (busStore_lenIn d (hregister 6 (by decide) ha))
  · exact hstep (by omega) (busStore_trcSel d (hregister 9 (by decide) ha))
  · exact hstep (by omega) (busStore_keyIn d (locate_keyIn_of hj ha))
  · rw [setWord_key _ j hj _ n hn, ofBus_get d _ (Nat.mod_lt n (by decide))]
  · exact hstep (by omega) (busStore_ivIn d (locate_ivIn_of hj ha))
  · rw [setWord_block _ j hj _ n hn, ofBus_get d _ (Nat.mod_lt n (by decide))]
  · exact hstep (by omega) (busStore_ibuf d (locate_ibuf_of hj ha))
  · have hro := locate_not_writable ha
    refine hstep (fun h0 => ?_) (busStore_ignored d hro)
    rw [hregister 0 (by decide) h0] at hro
    cases hro

/-! ### The form of the buffers -/

/-- CHECK touches neither buffer (R29). -/
theorem checkPhase_buffers (s : State) :
    s.checkPhase.ibuf = s.ibuf ∧ s.checkPhase.obuf = s.obuf := by
  rcases checkPhase_cases s with ⟨e, -, -, ht⟩ | ⟨-, -, ht⟩ | ⟨-, u, rfl, ⟨e, -, -, ht⟩ | ⟨-, ht⟩⟩ <;>
    simp [ht]

/-- KEXP touches neither buffer (R105). -/
theorem kexpStep_buffers (s : State) : (kexpStep s).ibuf = s.ibuf ∧ (kexpStep s).obuf = s.obuf := by
  by_cases hlast : s.seq.unit = 59
  · rw [kexpStep_last hlast]
    exact ⟨rfl, rfl⟩
  · rw [kexpStep_of_ne hlast]
    exact ⟨rfl, rfl⟩

/-- A micro-operation touches neither buffer (R105, R120). -/
theorem runUop_buffers {s t : State} (h : s.runUop = .next t) :
    t.ibuf = s.ibuf ∧ t.obuf = s.obuf := by
  rcases runUop_cases h with ⟨b, rfl, -⟩ | ⟨-, -, -, rfl⟩
  · exact ⟨rfl, rfl⟩
  · exact kexpStep_buffers s

/-- A sequencer step leaves IBUF alone, and OBUF but for one byte string, stored by HEAD or STORE (R194,
R193). -/
theorem seqStep_buffers {s t : State} (h : s.seqStep = .next t) :
    t.ibuf = s.ibuf ∧ ∃ off l, t.obuf = Memory.writeBytes off l s.obuf := by
  have hkept : t.ibuf = s.ibuf ∧ t.obuf = s.obuf →
      t.ibuf = s.ibuf ∧ ∃ off l, t.obuf = Memory.writeBytes off l s.obuf :=
    fun ⟨hi, ho⟩ => ⟨hi, 0, [], ho⟩
  cases hp : s.seq.phase with
  | idle =>
    cases (seqStep_idle hp).symm.trans h
    exact hkept ⟨rfl, rfl⟩
  | check =>
    cases (seqStep_check hp).symm.trans h
    exact hkept (checkPhase_buffers s)
  | kexp => exact hkept (runUop_buffers ((seqStep_kexp hp).symm.trans h))
  | head =>
    cases (seqStep_head hp).symm.trans h
    by_cases hiv : s.currentOp.enc ∧ s.currentOp.mode ≠ .ecb
    · exact ⟨rfl, 0, s.cfg.iv.toList, if_pos hiv⟩
    · exact hkept ⟨rfl, if_neg hiv⟩
  | load =>
    cases (seqStep_load hp).symm.trans h
    exact hkept ⟨rfl, rfl⟩
  | round => exact hkept (runUop_buffers ((seqStep_round hp).symm.trans h))
  | store =>
    cases (seqStep_store hp).symm.trans h
    exact ⟨rfl, _, _, rfl⟩
  | tail =>
    cases (seqStep_tail hp).symm.trans h
    exact hkept ⟨rfl, rfl⟩

/-- Every case of a step keeps the form of both buffers. -/
theorem buffersCanonical_keptByCases : KeptByCases State.BuffersCanonical where
  boundary s l v n h := ⟨h.ibuf, h.obuf⟩
  sequencer s t h ht := by
    obtain ⟨hi, off, l, ho⟩ := seqStep_buffers ht
    exact ⟨hi ▸ h.ibuf, ho ▸ Memory.wf_writeBytes off l h.obuf⟩
  hazard s h := ⟨h.ibuf, h.obuf⟩
  store s a d h _ := by
    rcases busStore_cases a d s with ⟨g, e⟩ | ⟨n, e⟩ | ⟨j, -, e⟩ <;> rw [e]
    · exact ⟨h.ibuf, h.obuf⟩
    · exact ⟨h.ibuf, h.obuf⟩
    · exact ⟨Memory.wf_writeBusWord j d h.ibuf, h.obuf⟩
  prologue s d h _ := ⟨h.ibuf, h.obuf⟩
  driveRst s b h := by
    cases b with
    | true => exact ⟨rfl, rfl⟩
    | false => exact ⟨h.ibuf, h.obuf⟩

/-- Settles O55: each case of a step keeps the form, a whole command being a run of the sequencer. -/
theorem stepKeepsBuffersCanonical : Obligations.StepKeepsBuffersCanonical := fun _ _ hs ht =>
  buffersCanonical_keptByCases.step hs ht

end Sys2Proof.Machine
end

section
/-! SUPPORT. The codes of the instructions and the bus lines (30_encoding.md R70, R74, R78, R82, R83,
R85). -/

namespace Sys2Proof.Machine

/-! ### Codes of instructions -/

/-- Settles O1: the three command words that decode, and the codes themselves. -/
theorem decodeOfWrittenWords : Obligations.DecodeOfWrittenWords := by
  refine ⟨fun m => ⟨decodeCmd_ok_iff.2 (.inl ⟨rfl, rfl⟩), decodeCmd_ok_iff.2 (.inr (.inl ⟨rfl, rfl⟩)),
    decodeCmd_ok_iff.2 (.inr (.inr ⟨rfl, rfl⟩)), rfl, rfl⟩, ?_⟩
  decide

theorem toOption_eq_some_iff {ε α : Type} {e : Except ε α} {x : α} :
    e.toOption = some x ↔ e = .ok x := by
  cases e <;> simp [Except.toOption]

/-- The round trip of every row (R82). -/
theorem encodingRoundTrip (i : Instr) : Laws.EncodingRoundTrip.Statement i := by
  cases i with
  | init => exact Laws.EncodingRoundTrip.init
  | encryptEcb => exact Laws.EncodingRoundTrip.encryptEcb
  | encryptCbc => exact Laws.EncodingRoundTrip.encryptCbc
  | encryptCfb => exact Laws.EncodingRoundTrip.encryptCfb
  | encryptOfb => exact Laws.EncodingRoundTrip.encryptOfb
  | encryptCtr => exact Laws.EncodingRoundTrip.encryptCtr
  | decryptEcb => exact Laws.EncodingRoundTrip.decryptEcb
  | decryptCbc => exact Laws.EncodingRoundTrip.decryptCbc
  | decryptCfb => exact Laws.EncodingRoundTrip.decryptCfb
  | decryptOfb => exact Laws.EncodingRoundTrip.decryptOfb
  | decryptCtr => exact Laws.EncodingRoundTrip.decryptCtr
  | ark => exact Laws.EncodingRoundTrip.ark
  | sb => exact Laws.EncodingRoundTrip.sb
  | sr => exact Laws.EncodingRoundTrip.sr
  | mc => exact Laws.EncodingRoundTrip.mc
  | isb => exact Laws.EncodingRoundTrip.isb
  | isr => exact Laws.EncodingRoundTrip.isr
  | imc => exact Laws.EncodingRoundTrip.imc
  | kexp => exact Laws.EncodingRoundTrip.kexp

/-- An instruction's code decodes to it in the modes in which it can stand, and in no other (R82). -/
theorem decode_encode_iff {m : Mode} {i : Instr} :
    decode m (encode i) = .ok i ↔ i.wellFormedIn m = true :=
  toOption_eq_some_iff.symm.trans (encodingRoundTrip i m)

theorem encode_encryptOf (m : Mode) : encode (Instr.encryptOf m) = .cmd 2 := by cases m <;> rfl

theorem encode_decryptOf (m : Mode) : encode (Instr.decryptOf m) = .cmd 3 := by cases m <;> rfl

/-- The sixteen micro-operation codes: one that decodes is the code of what it decodes to (R78). -/
theorem encode_of_decodeUop :
    ∀ c : BitVec 4, ∀ i ∈ (decodeUop c).toOption, encode i = .uop c := by decide

/-- A code that decodes is the code of what it decodes to (R74, R78). -/
theorem encode_of_decode {m : Mode} {c : Code} {i : Instr} (h : decode m c = .ok i) :
    encode i = c := by
  cases c with
  | cmd d =>
    rcases decodeCmd_ok_iff.1 h with ⟨rfl, rfl⟩ | ⟨rfl, rfl⟩ | ⟨rfl, rfl⟩
    · rfl
    · exact encode_encryptOf m
    · exact encode_decryptOf m
  | uop c => exact encode_of_decodeUop c i (toOption_eq_some_iff.2 h)

/-- Settles O2: what decodes is a code of its instruction, and each such code decodes in its modes. -/
theorem decodeExactlyEncoded : Obligations.DecodeExactlyEncoded := by
  intro m c i
  constructor
  · intro h
    have hcode := encode_of_decode h
    exact ⟨hcode, decode_encode_iff.1 (hcode ▸ h)⟩
  · rintro ⟨rfl, hmode⟩
    exact decode_encode_iff.2 hmode

/-! ### Bus lines -/

/-- The byte offset of a word address (R50). -/
theorem toNat_busOffset (a : WordAddr) : (a ++ (0 : BitVec 2)).toNat = 4 * a.toNat := by
  calc (a ++ (0 : BitVec 2)).toNat = a.toNat <<< 2 ||| 0 := BitVec.toNat_append a 0
    _ = 4 * a.toNat := by rw [Nat.or_zero, Nat.shiftLeft_eq]; omega

/-- A multiple of 4 is the byte offset of its word address (R50, R70). -/
theorem busOffset_wordAddr {x : BitVec 20} (h : x.toNat % 4 = 0) :
    x.extractLsb' 2 18 ++ (0 : BitVec 2) = x := by
  apply BitVec.eq_of_toNat_eq
  rw [toNat_busOffset, BitVec.extractLsb'_toNat, Nat.shiftRight_eq_div_pow]
  omega

theorem BusLine.wellFormed_iff {l : BusLine} :
    l.wellFormed = true ↔ l.offset.toNat % 4 = 0 ∧ (l.isWrite = true ∨ l.data = 0) := by
  simp [BusLine.wellFormed]

theorem BusLine.decode_busOffset (w : Bool) (a : WordAddr) (d : BusWord) :
    BusLine.decode ⟨w, a ++ (0 : BitVec 2), d⟩ = some (if w then .write a d else .read a) := by
  rw [BusLine.decode, if_pos (by rw [toNat_busOffset]; omega), BitVec.extractLsb'_append_eq_left]

theorem BusLine.wellFormed_busOffset (w : Bool) (a : WordAddr) (d : BusWord) :
    BusLine.wellFormed ⟨w, a ++ (0 : BitVec 2), d⟩ = (w || d == 0) := by
  rw [BusLine.wellFormed, toNat_busOffset, Nat.mul_mod_right]
  rfl

/-- Settles O3: the offset of a well-formed line is the byte offset of a word address, and back. -/
theorem busLineRoundTrip : Obligations.BusLineRoundTrip := by
  refine ⟨fun i l h => ?_, fun ⟨w, offset, d⟩ h => ?_⟩
  · cases i with
    | write a d =>
      cases h
      exact ⟨BusLine.wellFormed_busOffset true a d, BusLine.decode_busOffset true a d⟩
    | read a =>
      cases h
      exact ⟨BusLine.wellFormed_busOffset false a 0, BusLine.decode_busOffset false a 0⟩
    | poll | seq | rst => cases h
  · obtain ⟨haligned, hdata⟩ := BusLine.wellFormed_iff.1 h
    obtain ⟨a, rfl⟩ : ∃ a : WordAddr, offset = a ++ (0 : BitVec 2) :=
      ⟨_, (busOffset_wordAddr haligned).symm⟩
    refine ⟨_, BusLine.decode_busOffset w a d, ?_⟩
    cases w with
    | true => rfl
    | false =>
      obtain rfl : d = 0 := by simpa using hdata
      rfl

end Sys2Proof.Machine
end

section
/-! SUPPORT. The STATUS and ERR words and the values of host reads at rest (10_state.md R24, R25, R33;
20_memory.md R55; 30_encoding.md R72, R73, R75; 45_trace.md R243). -/

namespace Sys2Proof.Machine

/-! ### STATUS and ERR -/

/-- A field of a word, bit by bit. -/
theorem extractLsb'_eq_of_getLsbD {w start len : Nat} {x : BitVec w} {y : BitVec len}
    (h : ∀ i < len, x.getLsbD (start + i) = y.getLsbD i) : x.extractLsb' start len = y :=
  BitVec.eq_of_getLsbD_eq fun i hi => by
    rw [BitVec.getLsbD_extractLsb', decide_eq_true hi, Bool.true_and, h i hi]

theorem getLsbD_bitAt (b : Bool) {k : Nat} (hk : k < 32) (n : Nat) :
    (bitAt b k).getLsbD n = (b && n == k) := by
  cases b with
  | false => simp [bitAt]
  | true =>
    simp only [bitAt, if_true, BitVec.getLsbD_shiftLeft, BitVec.getLsbD_one]
    grind

/-- The STATUS word by bits (R72). -/
theorem State.getLsbD_statusWord (s : State) (n : Nat) :
    s.statusWord.getLsbD n = (s.run.code.getLsbD n || s.cfg.valid && n == 2
      || s.cfg.ivgen && n == 3 || s.hzd && n == 4) := by
  have hcode : n < 32 ∨ s.run.code.getLsbD n = false :=
    (Nat.lt_or_ge n 32).imp_right fun h => BitVec.getLsbD_of_ge _ _ (by omega)
  rw [State.statusWord, BitVec.getLsbD_or, BitVec.getLsbD_or, BitVec.getLsbD_or,
    BitVec.getLsbD_setWidth, getLsbD_bitAt _ (by decide), getLsbD_bitAt _ (by decide),
    getLsbD_bitAt _ (by decide)]
  rcases hcode with h | h <;> simp [h]

/-- The ERR word by bits (R72). -/
theorem ErrReg.getLsbD_word (e : ErrReg) (n : Nat) :
    e.word.getLsbD n = (e.kind.getLsbD n || decide (4 ≤ n) && e.sub.getLsbD (n - 4)) := by
  have hkind : 3 ≤ n → e.kind.getLsbD n = false := fun h => BitVec.getLsbD_of_ge _ _ h
  have hsub : 8 ≤ n → e.sub.getLsbD (n - 4) = false := fun h => BitVec.getLsbD_of_ge _ _ (by omega)
  rw [ErrReg.word, BitVec.getLsbD_or, BitVec.getLsbD_shiftLeft, BitVec.getLsbD_setWidth,
    BitVec.getLsbD_setWidth]
  grind

/-- Settles O11: the bits of both words, and the table of R301 by computation. -/
theorem statusAndErrFields : Obligations.StatusAndErrFields := by
  intro s
  have hcode : ∀ n, 2 ≤ n → s.run.code.getLsbD n = false := fun n => BitVec.getLsbD_of_ge _ n
  have hkind : ∀ n, 3 ≤ n → s.err.kind.getLsbD n = false := fun n => BitVec.getLsbD_of_ge _ n
  have hsub : ∀ n, 4 ≤ n → s.err.sub.getLsbD n = false := fun n => BitVec.getLsbD_of_ge _ n
  refine ⟨⟨extractLsb'_eq_of_getLsbD fun i hi => ?_, ?_, ?_, ?_,
    extractLsb'_eq_of_getLsbD fun i hi => ?_⟩, ⟨extractLsb'_eq_of_getLsbD fun i hi => ?_, ?_,
    extractLsb'_eq_of_getLsbD fun i hi => ?_, extractLsb'_eq_of_getLsbD fun i hi => ?_⟩,
    by decide, by decide, by decide⟩
  · rw [State.getLsbD_statusWord]
    grind
  · rw [State.getLsbD_statusWord, hcode 2 (by decide)]
    simp
  · rw [State.getLsbD_statusWord, hcode 3 (by decide)]
    simp
  · rw [State.getLsbD_statusWord, hcode 4 (by decide)]
    simp
  · rw [State.getLsbD_statusWord, hcode _ (by omega)]
    grind
  · rw [ErrReg.getLsbD_word]
    grind
  · rw [ErrReg.getLsbD_word, hkind 3 (by decide)]
    rfl
  · rw [ErrReg.getLsbD_word, hkind _ (by omega)]
    simp
  · rw [ErrReg.getLsbD_word, hkind _ (by omega), hsub _ (by omega)]
    simp

/-! ### The words of a trace record -/

/-- The fields of word 0 (R243): each stands above the narrower ones appended after it. -/
theorem TraceRecord.word_zero_fields (r : TraceRecord) :
    (r.word 0).extractLsb' 0 8 = r.kind.code ∧ (r.word 0).extractLsb' 8 4 = r.round
    ∧ (r.word 0).extractLsb' 12 4 = r.uop ∧ (r.word 0).extractLsb' 16 8 = r.n
    ∧ (r.word 0).extractLsb' 24 8 = r.m := by
  refine ⟨BitVec.extractLsb'_append_eq_right, ?_, ?_, ?_, ?_⟩
  · exact (BitVec.extractLsb'_append_eq_of_le (by decide)).trans BitVec.extractLsb'_append_eq_right
  · exact (BitVec.extractLsb'_append_eq_of_le (by decide)).trans <|
      (BitVec.extractLsb'_append_eq_of_le (by decide)).trans BitVec.extractLsb'_append_eq_right
  · exact (BitVec.extractLsb'_append_eq_of_le (by decide)).trans <|
      (BitVec.extractLsb'_append_eq_of_le (by decide)).trans <|
      (BitVec.extractLsb'_append_eq_of_le (by decide)).trans BitVec.extractLsb'_append_eq_right
  · exact (BitVec.extractLsb'_append_eq_of_le (by decide)).trans <|
      (BitVec.extractLsb'_append_eq_of_le (by decide)).trans <|
      (BitVec.extractLsb'_append_eq_of_le (by decide)).trans BitVec.extractLsb'_append_eq_left

theorem TraceRecord.word_data (r : TraceRecord) {c : Nat} (hc : c < 4) :
    r.word (4 + c) = (r.data.word c).toBus := by
  interval_cases c <;> rfl

/-- Byte `k` of DATA is in lane `k mod 4` of word `4 + k div 4` (R243). -/
theorem TraceRecord.word_data_lane (r : TraceRecord) {k : Nat} (hk : k < 16) :
    (r.word (4 + k / 4)).extractLsb' (8 * (k % 4)) 8 = r.data.get k := by
  rw [r.word_data (by omega), lanes _ _ (by omega)]
  rfl

/-- TRC_REC shows the record TRC_SEL selects (R33). -/
theorem trcRecWord_of_getElem? {s : State} {r : TraceRecord} (j : Nat)
    (hlen : s.trace.length < 2 ^ 32) (hr : s.trace[s.trcSel.toNat]? = some r) :
    s.trcRecWord j = r.word j := by
  have hsel : s.trcSel < s.trcCnt := by
    rw [BitVec.lt_def, State.trcCnt, BitVec.toNat_ofNat, Nat.mod_eq_of_lt hlen]
    exact (List.getElem?_eq_some_iff.1 hr).1
  rw [State.trcRecWord, if_pos hsel, hr]

/-- TRC_REC is 0 where no record is selected (R33). -/
theorem trcRecWord_of_length_le {s : State} (j : Nat) (h : s.trace.length ≤ s.trcSel.toNat) :
    s.trcRecWord j = 0 := by
  rw [State.trcRecWord, List.getElem?_eq_none h]
  exact ite_self 0

/-! ### The map, the locations only a read tells apart -/

/-- Word `j` of IV_CFG (R72). -/
theorem locate_ivCfg_of {cap : BufCap} {a : WordAddr} {j : Nat} (hj : j < 4)
    (ha : a.toNat = 0x70 / 4 + j) : locate cap a = .ivCfg j := by
  rw [locate_window (by omega) (by omega), locateWindow, if_neg (by omega), if_neg (by omega),
    if_pos (by omega)]
  congr 1
  omega

/-- Word `j` of TRC_REC (R72). -/
theorem locate_trcRec_of {cap : BufCap} {a : WordAddr} {j : Nat} (hj : j < 8)
    (ha : a.toNat = 0x80 / 4 + j) : locate cap a = .trcRec j := by
  rw [locate_window (by omega) (by omega), locateWindow, if_neg (by omega), if_neg (by omega),
    if_neg (by omega), if_pos (by omega)]
  congr 1
  omega

/-- Word `i` of the round-key window (R72). -/
theorem locate_rk_of {cap : BufCap} {a : WordAddr} {i : Nat} (hi : i < 60)
    (ha : a.toNat = 0x100 / 4 + i) : locate cap a = .rk i := by
  rw [locate_rk (by omega) (by omega), locateRk, if_pos (by omega)]
  congr 1
  omega

/-- Word `j` of OBUF (R72). -/
theorem locate_obuf_of {cap : BufCap} {a : WordAddr} {j : Nat} (hj : j < (cap.bytes + 32) / 4)
    (ha : a.toNat = 0x20000 / 4 + j) : locate cap a = .obuf j := by
  have hcap : cap.bytes = 16 * (4 + cap.extra.val) := rfl
  rw [locate_buffer (by omega), locateBuffer, if_neg (by omega), if_neg (by omega),
    if_pos (by omega)]
  congr 1
  omega

/-- The registers end at word address 9 (R72). -/
theorem locateRegister_reserved : ∀ n < 16, 10 ≤ n → locateRegister n = .reserved := by decide

/-- The reserved ranges of the map (R72, R73). -/
theorem locate_reserved {cap : BufCap} {a : WordAddr}
    (ha : 0x28 / 4 ≤ a.toNat ∧ a.toNat < 0x40 / 4 ∨ 0xA0 / 4 ≤ a.toNat ∧ a.toNat < 0x100 / 4
      ∨ 0x1F0 / 4 ≤ a.toNat ∧ a.toNat < 0x10000 / 4
      ∨ (0x10000 + cap.bytes) / 4 ≤ a.toNat ∧ a.toNat < 0x20000 / 4
      ∨ (0x20000 + cap.bytes + 32) / 4 ≤ a.toNat) : locate cap a = .reserved := by
  have hcap : cap.bytes = 16 * (4 + cap.extra.val) := rfl
  rcases ha with ⟨h, h'⟩ | ⟨h, h'⟩ | ⟨h, h'⟩ | ⟨h, h'⟩ | h
  · rw [locate_register (by omega), locateRegister_reserved _ (by omega) (by omega)]
  · rw [locate_window (by omega) (by omega), locateWindow, if_neg (by omega), if_neg (by omega),
      if_neg (by omega), if_neg (by omega)]
  · rw [locate_rk (by omega) (by omega), locateRk, if_neg (by omega)]
  · rw [locate_buffer (by omega), locateBuffer, if_neg (by omega), if_pos (by omega)]
  · rw [locate_buffer (by omega), locateBuffer, if_neg (by omega), if_neg (by omega),
      if_neg (by omega)]

/-! ### Reads at rest -/

/-- The value a read at rest returns, by location (R72, R73); none where it is free (R27, R35; log 9). -/
def State.readWord (s : State) : Location → Option BusWord
  | .cmd | .reserved => some 0
  | .status => some s.statusWord
  | .err => some s.err.word
  | .mode => some (s.stage.mode.setWidth 32)
  | .keylen => some (s.stage.keylen.setWidth 32)
  | .ivlen => some (s.stage.ivlen.setWidth 32)
  | .lenIn => some s.stage.lenIn
  | .lenOut => some s.lenOut
  | .trcCnt => some s.trcCnt
  | .trcSel => some s.trcSel
  | .keyIn j => some (s.stage.keyIn.word j).toBus
  | .ivIn j => some (s.stage.ivIn.word j).toBus
  | .ivCfg j => if s.cfg.valid then some (s.cfg.iv.word j).toBus else none
  | .trcRec j => some (s.trcRecWord j)
  | .rk i => if s.cfg.valid then some (rkWord s.rk i).toBus else none
  | .ibuf j => some (Memory.busWord s.ibuf j)
  | .obuf j => some (Memory.busWord s.obuf j)

/-- A read at rest returns the value of its location, and a free value where it has none. -/
theorem busReadIdle_eq_readWord (a : WordAddr) (s : State) : s.busReadIdle a =
    (s.readWord (locate s.bufcap a)).elim s.returnsAny fun d => s.returns d := by
  unfold State.busReadIdle
  cases locate s.bufcap a with
  | ivCfg j => cases hv : s.cfg.valid <;> simp [State.readWord, hv]
  | rk i => cases hv : s.cfg.valid <;> simp [State.readWord, hv]
  | _ => rfl

/-- The boundary fields have no part in what a location holds (R60). -/
theorem State.readWord_withBoundary (l : List Input) (v : BusWord) (n : Nat) (s : State)
    (loc : Location) : (s.withBoundary l v n).readWord loc = s.readWord loc := rfl

/-- The data a host read at rest leaves (R60, R72). -/
theorem rdata_of_step_read {s t : State} {a : WordAddr} {rest : List Input}
    (hin : s.inputs = .read a :: rest) (hrst : s.rst = false) (hrest : s.run ≠ .busy)
    (hst : step s = .next t) {loc : Location} {d : BusWord} (hloc : locate s.bufcap a = loc)
    (hd : s.readWord loc = some d) : t.rdata = d := by
  have hidle := busRead_idle (u := s.withBoundary rest s.rdata s.free) a hrst
    (State.not_busy_iff.2 hrest)
  rw [step_read hin, hidle, busReadIdle_eq_readWord, State.readWord_withBoundary,
    State.withBoundary_bufcap, hloc, hd] at hst
  cases hst
  rfl

/-- Settles O12: the fields of a record; then the location each address names, and what it holds. -/
theorem readValues : Obligations.ReadValues := by
  refine ⟨fun r => ?_, by decide, fun s a rest hin hrst hrest => ?_⟩
  · obtain ⟨hkind, hround, huop, hn, hm⟩ := r.word_zero_fields
    exact ⟨hkind, hround, huop, hn, hm, rfl, rfl, rfl, fun k hk => r.word_data_lane hk⟩
  · obtain ⟨t, hst⟩ : ∃ t, step s = .next t := ⟨_, step_read hin⟩
    have hread : ∀ {loc d}, locate s.bufcap a = loc → s.readWord loc = some d → t.rdata = d :=
      rdata_of_step_read hin hrst hrest hst
    have hreg : ∀ k < 16, ∀ {d}, s.readWord (locateRegister k) = some d → a.toNat = k →
        t.rdata = d :=
      fun k hk _ hd ha => hread (ha ▸ locate_register (ha ▸ hk)) hd
    refine ⟨t, hst, hreg 0 (by decide) rfl, hreg 1 (by decide) rfl, hreg 2 (by decide) rfl,
      hreg 3 (by decide) rfl, hreg 4 (by decide) rfl, hreg 5 (by decide) rfl, hreg 6 (by decide) rfl,
      hreg 7 (by decide) rfl, hreg 8 (by decide) rfl, hreg 9 (by decide) rfl,
      fun j hj ha k hk => ?_, fun j hj ha k hk => ?_, fun j hj ha hv k hk => ?_,
      fun j hj ha r hlen hr => ?_, fun j hj ha hle => ?_, fun j hj ha hv k hk => ?_,
      fun j hj ha k hk => ?_, fun j hj ha k hk => ?_, fun ha => hread (locate_reserved ha) rfl⟩
    · rw [hread (locate_keyIn_of hj ha) rfl, lanes _ k hk, key_lane _ j k hj hk]
    · rw [hread (locate_ivIn_of hj ha) rfl, lanes _ k hk, block_lane _ j k hj hk]
    · rw [hread (locate_ivCfg_of hj ha) (if_pos hv), lanes _ k hk, block_lane _ j k hj hk]
    · rw [hread (locate_trcRec_of hj ha) rfl, trcRecWord_of_getElem? j hlen hr]
    · rw [hread (locate_trcRec_of hj ha) rfl, trcRecWord_of_length_le j hle]
    · rw [hread (locate_rk_of hj ha) (if_pos hv), lanes _ k hk]
    · rw [hread (locate_ibuf_of hj ha) rfl, mem_lanes _ j k hk]
    · rw [hread (locate_obuf_of hj ha) rfl, mem_lanes _ j k hk]

end Sys2Proof.Machine
end

section
/-! SUPPORT. The words of KeyExpansion as a recurrence and as round keys (40_key_schedule.md R101 to R104),
and one KEXP step by field (R105, R106). -/

namespace Sys2Proof.Machine

/-! ### KeyExpansion -/

/-- Word `i` of the expansion from words `i-8` and `i-1` (R104): later steps of the fold leave it. -/
theorem keyExpansion_recurrence (key : Key) (i : Nat) (h8 : 8 ≤ i) (hi : i < 60) :
    rkWord (keyExpansion key) i = (rkWord (keyExpansion key) (i - 8)).xor
      (scheduleCore i (rkWord (keyExpansion key) (i - 1))) := by
  obtain ⟨rk, hbelow, hstep⟩ := keyExpansion_split key i h8 hi
  rw [← hstep i le_rfl, scheduleWord_same rk i hi, hbelow _ (by omega), hbelow _ (by omega)]

/-- Column `c` of a round key is its word of the file (R27). -/
theorem roundKey_word (rk : Vector Word 60) (r : Nat) {c : Nat} (hc : c < 4) :
    (roundKey rk r).word c = rkWord rk (4 * r + c) := by
  interval_cases c <;> rfl

/-- Round key 0 is the first half of the key (R104). -/
theorem roundKey_keyExpansion_zero (key : Key) : roundKey (keyExpansion key) 0 = key.lo := by
  simp [roundKey, keyExpansion_head, Key.word, Block.word]

/-- Round key 1 is the second half of the key (R104). -/
theorem roundKey_keyExpansion_one (key : Key) : roundKey (keyExpansion key) 1 = key.hi := by
  simp [roundKey, keyExpansion_head, Key.word, Block.word]

/-- Settles O23: the words of the expansion are the key's, then the recurrence of `scheduleCore`. -/
theorem keyExpansionRecurrence : Obligations.KeyExpansionRecurrence := by
  refine ⟨fun _ _ _ _ => ⟨rfl, rfl⟩, by decide, fun key w hw => ?_⟩
  obtain rfl : w = rkWord (keyExpansion key) := funext hw
  refine ⟨fun i hi k hk => ?_, keyExpansion_recurrence key, fun r _ c hc => roundKey_word _ r hc, ?_⟩
  · rw [keyExpansion_head key i hi, key_lane key i k hi hk]
  · rw [roundKey_keyExpansion_zero, roundKey_keyExpansion_one, Key.toList]

/-! ### KEXP -/

/-- KEXP is one step of the key schedule at word SEQ.unit (R105). -/
theorem kexpStep_rk (s : State) : (kexpStep s).rk = scheduleWord s.rk s.seq.unit.toNat := by
  by_cases hlast : s.seq.unit = 59
  · rw [kexpStep_last hlast, hlast]
    rfl
  · rw [kexpStep_of_ne hlast]

/-- Of SEQ, KEXP advances the unit and keeps the round and the direction (R105). -/
theorem kexpStep_seq (s : State) : (kexpStep s).seq.unit = s.seq.unit + 1
    ∧ (kexpStep s).seq.round = s.seq.round ∧ (kexpStep s).seq.dir = s.seq.dir := by
  by_cases hlast : s.seq.unit = 59
  · rw [kexpStep_last hlast, hlast]
    exact ⟨rfl, rfl, rfl⟩
  · rw [kexpStep_of_ne hlast]
    exact ⟨rfl, rfl, rfl⟩

/-- Settles O24: the file is one schedule step on, and the rest is that of a KEXP step before the last or
of the last one. -/
theorem kexpResult : Obligations.KexpResult := by
  rintro s i rfl h8 h59
  have hi : s.seq.unit.toNat < 60 := by omega
  obtain ⟨hunit, hround, hdir⟩ := kexpStep_seq s
  refine ⟨kexpStep s, exec_kexp ⟨h8, h59⟩, ?_, fun j _ hj => ?_, ?_, hround, hdir, fun hlt => ?_,
    fun hlast => ?_⟩
  · rw [kexpStep_rk]
    exact scheduleWord_same s.rk _ hi
  · rw [kexpStep_rk, scheduleWord_other _ _ _ hi hj]
  · rw [hunit]
    bv_omega
  · have hne : s.seq.unit ≠ 59 := by bv_omega
    rw [kexpStep_of_ne hne]
  · have heq : s.seq.unit = 59 := BitVec.eq_of_toNat_eq hlast
    rw [kexpStep_last heq]
    exact ⟨rfl, rfl⟩

end Sys2Proof.Machine
end

section
/-! SUPPORT. GF(2^8): `gmul` is bilinear and moves `xtime` out of either factor, and every byte is built from
01 by `xtime` and exclusive or; from these the field laws follow (41_round_ops.md R121). The S-box tables
against their formulas (R122, R123). -/

namespace Sys2Proof.Machine

/-! ### Exclusive or of bytes -/

theorem Byte.xor_left_comm (x y z : Byte) : x ^^^ (y ^^^ z) = y ^^^ (x ^^^ z) := by
  rw [← BitVec.xor_assoc, BitVec.xor_comm x y, BitVec.xor_assoc]

theorem Byte.xor_xor_self (x y : Byte) : x ^^^ (x ^^^ y) = y := by
  rw [← BitVec.xor_assoc, BitVec.xor_self, BitVec.zero_xor]

theorem Byte.xor_xor_cancel (x y : Byte) : x ^^^ y ^^^ y = x := by
  rw [BitVec.xor_assoc, BitVec.xor_self, BitVec.xor_zero]

/-- A byte under a sum of two conditions. -/
theorem Byte.ite_xor_cond (p q : Bool) (x : Byte) :
    (if (p ^^ q) = true then x else 0) = (if p = true then x else 0) ^^^ (if q = true then x else 0) := by
  cases p <;> cases q <;> simp

/-- A sum of two bytes under a condition. -/
theorem Byte.ite_xor (p : Prop) [Decidable p] (x y : Byte) :
    (if p then x ^^^ y else 0) = (if p then x else 0) ^^^ (if p then y else 0) := by
  split
  · rfl
  · exact BitVec.xor_self.symm

/-! ### `xtime` and `gmul` -/

/-- `xtime` as a shift and, where a bit falls out, a reduction. -/
theorem xtime_eq (a : Byte) : xtime a = a <<< 1 ^^^ if a.msb = true then 0x1B else 0 := by
  unfold xtime
  split
  · rfl
  · exact BitVec.xor_zero.symm

/-- `xtime` is linear. -/
theorem xtime_xor (a b : Byte) : xtime (a ^^^ b) = xtime a ^^^ xtime b := by
  rw [xtime_eq, xtime_eq, xtime_eq, BitVec.msb_xor, Byte.ite_xor_cond, BitVec.shiftLeft_xor_distrib]
  ac_rfl

theorem xtime_ite (p : Prop) [Decidable p] (x : Byte) :
    xtime (if p then x else 0) = if p then xtime x else 0 := by
  split <;> rfl

theorem gmul_xor (a b c : Byte) : gmul a (b ^^^ c) = gmul a b ^^^ gmul a c := by
  simp only [gmul, BitVec.getLsbD_xor, Byte.ite_xor_cond]
  ac_rfl

theorem xor_gmul (a b c : Byte) : gmul (a ^^^ b) c = gmul a c ^^^ gmul b c := by
  simp only [gmul, xtime_xor, Byte.ite_xor]
  ac_rfl

theorem xtime_gmul (a b : Byte) : gmul (xtime a) b = xtime (gmul a b) := by
  simp only [gmul, xtime_xor, xtime_ite]

theorem gmul_zero (a : Byte) : gmul a 0 = 0 := by simp [gmul]

theorem gmul_one (a : Byte) : gmul a 1 = a := by simp [gmul]

/-- Bit `k` of a byte stands for `xtime^k(01)`. -/
theorem one_gmul : ∀ a, gmul 1 a = a := by decide +kernel

/-- Every byte is an exclusive or of bytes `xtime^k(01)`. -/
theorem Byte.induction {P : Byte → Prop} (one : P 1) (mulX : ∀ a, P a → P (xtime a))
    (xor : ∀ a b, P a → P b → P (a ^^^ b)) (a : Byte) : P a := by
  have cond (p : Prop) [Decidable p] {x : Byte} (hx : P x) : P (if p then x else 0) := by
    split
    · exact hx
    · simpa using xor 1 1 one one
  have pow (k : Nat) : P (xtime^[k] 1) := by
    induction k with
    | zero => exact one
    | succ k ih => rw [Function.iterate_succ_apply']; exact mulX _ ih
  rw [← one_gmul a, gmul]
  exact xor _ _ (xor _ _ (xor _ _ (xor _ _ (xor _ _ (xor _ _ (xor _ _ (cond _ (pow 0)) (cond _ (pow 1)))
    (cond _ (pow 2))) (cond _ (pow 3))) (cond _ (pow 4))) (cond _ (pow 5))) (cond _ (pow 6)))
    (cond _ (pow 7))

theorem gmul_xtime (a b : Byte) : gmul a (xtime b) = xtime (gmul a b) := by
  induction a using Byte.induction with
  | one => rw [one_gmul, one_gmul]
  | mulX a ih => rw [xtime_gmul, xtime_gmul, ih]
  | xor a c iha ihc => rw [xor_gmul, xor_gmul, xtime_xor, iha, ihc]

theorem gmul_comm (a b : Byte) : gmul a b = gmul b a := by
  induction b using Byte.induction with
  | one => rw [gmul_one, one_gmul]
  | mulX b ih => rw [gmul_xtime, xtime_gmul, ih]
  | xor b c ihb ihc => rw [gmul_xor, xor_gmul, ihb, ihc]

theorem gmul_assoc (a b c : Byte) : gmul (gmul a b) c = gmul a (gmul b c) := by
  induction c using Byte.induction with
  | one => rw [gmul_one, gmul_one]
  | mulX c ih => rw [gmul_xtime, gmul_xtime, gmul_xtime, ih]
  | xor c d ihc ihd => rw [gmul_xor, gmul_xor, gmul_xor, ihc, ihd]

/-- `x^254` is the inverse of `x`, and the affine map makes the table of SBOX of it (R122): one pass over
the bytes, because both sides compute the same power. -/
theorem ginv_and_sboxFormula : ∀ x,
    gmul x (ginv x) = (if x = 0 then 0 else 1) ∧ sbox x = sboxFormula x := by decide +kernel

theorem gmul_ginv (x : Byte) : gmul x (ginv x) = if x = 0 then 0 else 1 := (ginv_and_sboxFormula x).1

theorem sbox_eq_sboxFormula (x : Byte) : sbox x = sboxFormula x := (ginv_and_sboxFormula x).2

/-- An inverse is the only one. -/
theorem eq_of_gmul_eq_one {a b c : Byte} (hb : gmul a b = 1) (hc : gmul a c = 1) : c = b := by
  rw [← one_gmul c, ← hb, gmul_comm a b, gmul_assoc, hc, gmul_one]

/-- The definition of `gmul` as R121 writes it, by the bits of the second factor. -/
theorem gmul_eq_foldl (a b : Byte) : gmul a b = (List.range 8).foldl
    (fun acc k => acc ^^^ if b.getLsbD k then xtime^[k] a else 0) 0 := by
  rw [show List.range 8 = [0, 1, 2, 3, 4, 5, 6, 7] from rfl]
  simp only [List.foldl]
  rw [show (0 : Byte) = 0#8 from rfl, BitVec.zero_xor]
  rfl

/-! ### The six multipliers, each factor an exclusive or of `xtime^k(01)` -/

theorem gmul_02 (a : Byte) : gmul 0x02 a = mul02 a := by
  rw [show (0x02 : Byte) = xtime 1 by decide, xtime_gmul, one_gmul, mul02]

theorem gmul_03 (a : Byte) : gmul 0x03 a = mul03 a := by
  rw [show (0x03 : Byte) = 0x02 ^^^ 1 by decide, xor_gmul, gmul_02, one_gmul, mul02, mul03]

theorem gmul_08 (a : Byte) : gmul 0x08 a = xtime (xtime (xtime a)) := by
  rw [show (0x08 : Byte) = xtime (xtime (xtime 1)) by decide, xtime_gmul, xtime_gmul, xtime_gmul,
    one_gmul]

theorem gmul_0C (a : Byte) : gmul 0x0C a = xtime (xtime (xtime a)) ^^^ xtime (xtime a) := by
  rw [show (0x0C : Byte) = 0x08 ^^^ xtime (xtime 1) by decide, xor_gmul, gmul_08, xtime_gmul, xtime_gmul,
    one_gmul]

theorem gmul_09 (a : Byte) : gmul 0x09 a = mul09 a := by
  rw [show (0x09 : Byte) = 0x08 ^^^ 1 by decide, xor_gmul, gmul_08, one_gmul, mul09]

theorem gmul_0B (a : Byte) : gmul 0x0B a = mul0B a := by
  rw [show (0x0B : Byte) = 0x08 ^^^ 0x02 ^^^ 1 by decide, xor_gmul, xor_gmul, gmul_08, gmul_02, one_gmul,
    mul02, mul0B]

theorem gmul_0D (a : Byte) : gmul 0x0D a = mul0D a := by
  rw [show (0x0D : Byte) = 0x0C ^^^ 1 by decide, xor_gmul, gmul_0C, one_gmul, mul0D]

theorem gmul_0E (a : Byte) : gmul 0x0E a = mul0E a := by
  rw [show (0x0E : Byte) = 0x0C ^^^ 0x02 by decide, xor_gmul, gmul_0C, gmul_02, mul02, mul0E]

/-- Settles O16: the laws by induction on how a byte is built from 01, the inverse as `x^254`. -/
theorem fieldOfBytes : Obligations.FieldOfBytes := by
  refine ⟨fun _ => rfl, gmul_eq_foldl, gmul_comm, gmul_assoc, gmul_xor, one_gmul, fun a => ?_,
    fun a ha => ⟨ginv a, ?_, fun c hc => ?_⟩,
    fun a => ⟨gmul_02 a, gmul_03 a, gmul_09 a, gmul_0B a, gmul_0D a, gmul_0E a⟩,
    by decide, by decide, by decide, by decide, by decide⟩
  · rw [gmul_comm, gmul_zero]
  · rw [gmul_ginv, if_neg ha]
  · exact eq_of_gmul_eq_one ((gmul_ginv a).trans (if_neg ha)) hc

/-! ### The S-box tables -/

theorem sbox_isbox : ∀ y, sbox (isbox y) = y := by decide +kernel

theorem isbox_sbox : ∀ x, isbox (sbox x) = x := by decide +kernel

theorem sbox_ne_self : ∀ x, sbox x ≠ x := by decide +kernel

/-- Settles O17: each table is compared with its formula byte by byte. -/
theorem sboxTablesAreFormulas : Obligations.SboxTablesAreFormulas :=
  ⟨gmul_ginv, by decide +kernel, sbox_eq_sboxFormula, sbox_isbox, isbox_sbox, sbox_ne_self, by decide,
    by decide, by decide, by decide, by decide, by decide⟩

end Sys2Proof.Machine
end

section
/-! SUPPORT. The block functions of the round micro-operations byte by byte and column by column, their
inverse, commutation and linearity laws, and the micro-operations themselves (41_round_ops.md R120, R124 to
R131). -/

namespace Sys2Proof.Machine

/-! ### Bytes and columns of blocks -/

theorem Word.get_xor (x y : Word) (k : Nat) : (x.xor y).get k = x.get k ^^^ y.get k := by
  unfold Word.get
  split <;> rfl

theorem Word.get_map (f : Byte → Byte) (w : Word) (k : Nat) : (w.map f).get k = f (w.get k) := by
  unfold Word.get
  split <;> rfl

theorem Block.word_xor (x y : Block) (c : Nat) : (x.xor y).word c = (x.word c).xor (y.word c) := by
  unfold Block.word
  split <;> rfl

theorem Block.word_mapWords (f : Word → Word) (b : Block) (c : Nat) :
    (b.mapWords f).word c = f (b.word c) := by
  unfold Block.word
  split <;> rfl

theorem Block.get_xor (x y : Block) (n : Nat) : (x.xor y).get n = x.get n ^^^ y.get n := by
  rw [Block.get, Block.word_xor, Word.get_xor, Block.get, Block.get]

theorem Block.get_mapWords_map (f : Byte → Byte) (b : Block) (n : Nat) :
    (b.mapWords (Word.map f)).get n = f (b.get n) := by
  rw [Block.get, Block.word_mapWords, Word.get_map, Block.get]

/-- What undoes a function on columns undoes it on blocks. -/
theorem Block.mapWords_mapWords {f g : Word → Word} (h : ∀ w, g (f w) = w) (b : Block) :
    (b.mapWords f).mapWords g = b := by
  simp only [Block.mapWords, h]

/-- A function linear on columns is linear on blocks. -/
theorem Block.mapWords_xor {f : Word → Word} (h : ∀ v w, f (v.xor w) = (f v).xor (f w)) (a b : Block) :
    (a.xor b).mapWords f = (a.mapWords f).xor (b.mapWords f) := by
  simp only [Block.mapWords, Block.xor, h]

/-- What undoes a function of bytes undoes it on words. -/
theorem Word.map_map {f g : Byte → Byte} (h : ∀ x, g (f x) = x) (w : Word) : (w.map f).map g = w := by
  simp only [Word.map, h]

theorem Word.xor_xor_cancel (x y : Word) : (x.xor y).xor y = x := by
  simp only [Word.xor, Byte.xor_xor_cancel]

theorem Block.xor_xor_cancel (x y : Block) : (x.xor y).xor y = x := by
  simp only [Block.xor, Word.xor_xor_cancel]

/-! ### Inverse and commutation laws (R131) -/

theorem addRoundKey_addRoundKey (k b : Block) : addRoundKey k (addRoundKey k b) = b :=
  Block.xor_xor_cancel b k

theorem invSubBytes_subBytes (b : Block) : invSubBytes (subBytes b) = b :=
  Block.mapWords_mapWords (Word.map_map isbox_sbox) b

theorem subBytes_invSubBytes (b : Block) : subBytes (invSubBytes b) = b :=
  Block.mapWords_mapWords (Word.map_map sbox_isbox) b

theorem invShiftRows_shiftRows (b : Block) : invShiftRows (shiftRows b) = b := rfl

theorem shiftRows_invShiftRows (b : Block) : shiftRows (invShiftRows b) = b := rfl

theorem subBytes_shiftRows (b : Block) : subBytes (shiftRows b) = shiftRows (subBytes b) := rfl

theorem invSubBytes_invShiftRows (b : Block) :
    invSubBytes (invShiftRows b) = invShiftRows (invSubBytes b) := rfl

theorem mixColumn_xor (v w : Word) : mixColumn (v.xor w) = (mixColumn v).xor (mixColumn w) := by
  simp only [mixColumn, Word.xor, mul02, mul03, xtime_xor, Word.mk.injEq]
  refine ⟨?_, ?_, ?_, ?_⟩ <;> ac_rfl

/-- What MixColumns applied twice makes of a byte `x` whose column has `y` two rows below. -/
def mixTwice (x y : Byte) : Byte := xtime (xtime (x ^^^ y)) ^^^ x

/-- One row of MixColumns, from its own byte on down the column. -/
def mixRow (a b c d : Byte) : Byte := mul02 a ^^^ mul03 b ^^^ c ^^^ d

theorem mixColumn_rows (w : Word) : mixColumn w =
    ⟨mixRow w.a0 w.a1 w.a2 w.a3, mixRow w.a1 w.a2 w.a3 w.a0, mixRow w.a2 w.a3 w.a0 w.a1,
     mixRow w.a3 w.a0 w.a1 w.a2⟩ := by
  simp only [mixColumn, mixRow, Word.mk.injEq, true_and]
  refine ⟨?_, ?_, ?_⟩ <;> ac_rfl

/-- Where the rows of two MixColumns meet, every other byte of the column cancels. -/
theorem mixRow_mixRow (a b c d : Byte) :
    mixRow (mixRow a b c d) (mixRow b c d a) (mixRow c d a b) (mixRow d a b c) = mixTwice a c := by
  simp only [mixRow, mixTwice, mul02, mul03, xtime_xor, BitVec.xor_assoc,
    BitVec.xor_comm, Byte.xor_left_comm, Byte.xor_xor_self]

/-- One row of InvMixColumns, from its own byte on down the column. -/
def invMixRow (a b c d : Byte) : Byte := mul0E a ^^^ mul0B b ^^^ mul0D c ^^^ mul09 d

theorem invMixColumn_rows (w : Word) : invMixColumn w =
    ⟨invMixRow w.a0 w.a1 w.a2 w.a3, invMixRow w.a1 w.a2 w.a3 w.a0, invMixRow w.a2 w.a3 w.a0 w.a1,
     invMixRow w.a3 w.a0 w.a1 w.a2⟩ := by
  simp only [invMixColumn, invMixRow, Word.mk.injEq, true_and]
  refine ⟨?_, ?_, ?_⟩ <;> ac_rfl

/-- A third MixColumns after two makes the rows of InvMixColumns. -/
theorem mixRow_mixTwice (a b c d : Byte) :
    mixRow (mixTwice a c) (mixTwice b d) (mixTwice c a) (mixTwice d b) = invMixRow a b c d := by
  simp only [mixRow, mixTwice, invMixRow, mul02, mul03, mul0E, mul0B, mul0D, mul09, xtime_xor,
    BitVec.xor_assoc, BitVec.xor_comm, Byte.xor_left_comm, Byte.xor_xor_self]

theorem mixTwice_mixTwice (x y : Byte) : mixTwice (mixTwice x y) (mixTwice y x) = x := by
  have hsum : mixTwice x y ^^^ mixTwice y x = x ^^^ y := by
    rw [mixTwice, mixTwice, BitVec.xor_comm y x, BitVec.xor_assoc, Byte.xor_left_comm x, Byte.xor_xor_self]
  rw [mixTwice, hsum, mixTwice, Byte.xor_xor_self]

/-- The matrix of MixColumns squared is the circulant (05 00 04 00). -/
theorem mixColumn_mixColumn (w : Word) : mixColumn (mixColumn w) =
    ⟨mixTwice w.a0 w.a2, mixTwice w.a1 w.a3, mixTwice w.a2 w.a0, mixTwice w.a3 w.a1⟩ := by
  rw [mixColumn_rows w, mixColumn_rows]
  simp only [mixRow_mixRow]

/-- The matrix of MixColumns has order 4. -/
theorem mixColumn_iter_four (w : Word) : mixColumn (mixColumn (mixColumn (mixColumn w))) = w := by
  rw [mixColumn_mixColumn w, mixColumn_mixColumn]
  simp only [mixTwice_mixTwice]

/-- The matrix of InvMixColumns is the cube of the matrix of MixColumns. -/
theorem invMixColumn_eq (w : Word) : invMixColumn w = mixColumn (mixColumn (mixColumn w)) := by
  rw [mixColumn_mixColumn w, mixColumn_rows, invMixColumn_rows]
  simp only [mixRow_mixTwice]

theorem invMixColumn_mixColumn (w : Word) : invMixColumn (mixColumn w) = w := by
  rw [invMixColumn_eq, mixColumn_iter_four]

theorem mixColumn_invMixColumn (w : Word) : mixColumn (invMixColumn w) = w := by
  rw [invMixColumn_eq, mixColumn_iter_four]

theorem invMixColumn_xor (v w : Word) :
    invMixColumn (v.xor w) = (invMixColumn v).xor (invMixColumn w) := by
  simp only [invMixColumn_eq, mixColumn_xor]

theorem mixColumn_gmul (a : Word) : mixColumn a =
    ⟨gmul 2 a.a0 ^^^ gmul 3 a.a1 ^^^ a.a2 ^^^ a.a3,
     a.a0 ^^^ gmul 2 a.a1 ^^^ gmul 3 a.a2 ^^^ a.a3,
     a.a0 ^^^ a.a1 ^^^ gmul 2 a.a2 ^^^ gmul 3 a.a3,
     gmul 3 a.a0 ^^^ a.a1 ^^^ a.a2 ^^^ gmul 2 a.a3⟩ := by
  simp only [gmul_02, gmul_03, mixColumn]

theorem invMixColumn_gmul (a : Word) : invMixColumn a =
    ⟨gmul 0x0E a.a0 ^^^ gmul 0x0B a.a1 ^^^ gmul 0x0D a.a2 ^^^ gmul 0x09 a.a3,
     gmul 0x09 a.a0 ^^^ gmul 0x0E a.a1 ^^^ gmul 0x0B a.a2 ^^^ gmul 0x0D a.a3,
     gmul 0x0D a.a0 ^^^ gmul 0x09 a.a1 ^^^ gmul 0x0E a.a2 ^^^ gmul 0x0B a.a3,
     gmul 0x0B a.a0 ^^^ gmul 0x0D a.a1 ^^^ gmul 0x09 a.a2 ^^^ gmul 0x0E a.a3⟩ := by
  simp only [gmul_09, gmul_0B, gmul_0D, gmul_0E, invMixColumn]

theorem mixColumn_const (x : Byte) : mixColumn ⟨x, x, x, x⟩ = ⟨x, x, x, x⟩ := by
  have hrow : mixRow x x x x = x := by
    rw [mixRow, mul02, mul03, Byte.xor_xor_self, Byte.xor_xor_cancel]
  rw [mixColumn_rows, hrow]

theorem invMixColumn_const (x : Byte) : invMixColumn ⟨x, x, x, x⟩ = ⟨x, x, x, x⟩ := by
  simp only [invMixColumn_eq, mixColumn_const]

theorem invMixColumns_mixColumns (b : Block) : invMixColumns (mixColumns b) = b :=
  Block.mapWords_mapWords invMixColumn_mixColumn b

theorem mixColumns_invMixColumns (b : Block) : mixColumns (invMixColumns b) = b :=
  Block.mapWords_mapWords mixColumn_invMixColumn b

/-- Settles O22: each law is that of the bytes or columns the function maps. -/
theorem roundFunctionLaws : Obligations.RoundFunctionLaws := fun a b k =>
  ⟨invSubBytes_subBytes b, subBytes_invSubBytes b, invShiftRows_shiftRows b, shiftRows_invShiftRows b,
    invMixColumns_mixColumns b, mixColumns_invMixColumns b, addRoundKey_addRoundKey k b,
    subBytes_shiftRows b, invSubBytes_invShiftRows b, Block.mapWords_xor mixColumn_xor a b,
    Block.mapWords_xor invMixColumn_xor a b⟩

/-! ### The micro-operations (R120, R250) -/

/-- A round step emits its own record (R250). -/
theorem emitsRound_roundStep (c : BitVec 4) (b : Block) (s : State) : EmitsRound c s (s.roundStep c b) := rfl

/-- Byte `n` of round key `r` is byte `n mod 4` of its word `RK[4r + (n div 4)]` (R124). -/
theorem get_addRoundKey_roundKey (rk : Vector Word 60) (r : Nat) (b : Block) {n : Nat} (hn : n < 16) :
    (addRoundKey (roundKey rk r) b).get n = b.get n ^^^ (rkWord rk (4 * r + n / 4)).get (n % 4) := by
  rw [addRoundKey, Block.get_xor]
  exact congrArg (fun w => b.get n ^^^ Word.get w (n % 4)) (roundKey_word rk r (by omega))

theorem addRoundKey_zero (b : Block) : addRoundKey Block.zero b = b := by
  simp [addRoundKey, Block.xor, Block.zero, Word.xor, Word.zero]

/-- Settles O18: the new S is `addRoundKey`, byte by byte. -/
theorem arkResult : Obligations.ArkResult :=
  ⟨fun s => ⟨_, exec_round (i := .ark) rfl, fun _ hn => get_addRoundKey_roundKey s.rk _ s.dp.s hn,
      emitsRound_roundStep 1 _ s, keptByRoundOp_roundStep 1 _ s⟩,
    fun k b => ⟨addRoundKey_addRoundKey k b, addRoundKey_zero b⟩, by decide +kernel⟩

/-- Settles O19: the new S has the table's byte in each place. -/
theorem subBytesResults : Obligations.SubBytesResults :=
  ⟨fun s => ⟨_, exec_round (i := .sb) rfl, fun n _ => Block.get_mapWords_map sbox s.dp.s n,
      emitsRound_roundStep 2 _ s, keptByRoundOp_roundStep 2 _ s⟩,
    fun s => ⟨_, exec_round (i := .isb) rfl, fun n _ => Block.get_mapWords_map isbox s.dp.s n,
      emitsRound_roundStep 5 _ s, keptByRoundOp_roundStep 5 _ s⟩,
    by decide +kernel, by decide +kernel, sbox_ne_self, by decide +kernel,
    fun b => ⟨invSubBytes_subBytes b, subBytes_invSubBytes b⟩⟩

/-- The list P of R126. -/
def shiftRowsList : List Nat := [0, 5, 10, 15, 4, 9, 14, 3, 8, 13, 2, 7, 12, 1, 6, 11]

/-- The list Q of R129. -/
def invShiftRowsList : List Nat := [0, 13, 10, 7, 4, 1, 14, 11, 8, 5, 2, 15, 12, 9, 6, 3]

theorem get_shiftRows (b : Block) {n : Nat} (hn : n < 16) :
    (shiftRows b).get n = b.get (shiftRowsList.getD n 0) := by
  interval_cases n <;> rfl

theorem get_invShiftRows (b : Block) {n : Nat} (hn : n < 16) :
    (invShiftRows b).get n = b.get (invShiftRowsList.getD n 0) := by
  interval_cases n <;> rfl

/-- P rotates row `r` left by `r` columns. -/
theorem shiftRowsList_row : ∀ r < 4, ∀ c < 4,
    shiftRowsList.getD (r + 4 * c) 0 = r + 4 * ((c + r) % 4) := by decide

/-- Q rotates row `r` right by `r` columns. -/
theorem invShiftRowsList_row : ∀ r < 4, ∀ c < 4,
    invShiftRowsList.getD (r + 4 * ((c + r) % 4)) 0 = r + 4 * c := by decide

/-- Settles O20: the byte lists by their sixteen places, the row form from the lists. -/
theorem shiftRowsResults : Obligations.ShiftRowsResults := by
  refine ⟨fun s => ⟨_, exec_round (i := .sr) rfl, fun _ hn => get_shiftRows s.dp.s hn,
      fun r hr c hc => ?_,
      emitsRound_roundStep 3 _ s, keptByRoundOp_roundStep 3 _ s⟩,
    fun s => ⟨_, exec_round (i := .isr) rfl, fun _ hn => get_invShiftRows s.dp.s hn,
      fun r hr c hc => ?_,
      emitsRound_roundStep 6 _ s, keptByRoundOp_roundStep 6 _ s⟩,
    fun _ => rfl, by decide +kernel, by decide +kernel,
    fun b => ⟨invShiftRows_shiftRows b, shiftRows_invShiftRows b⟩⟩
  · rw [← shiftRowsList_row r hr c hc]
    exact get_shiftRows s.dp.s (by omega)
  · conv_rhs => rw [← invShiftRowsList_row r hr c hc]
    exact get_invShiftRows s.dp.s (by omega)

/-- Settles O21: the new S is the matrix of R127 or R130 times each column. -/
theorem mixColumnsResults : Obligations.MixColumnsResults := by
  refine ⟨fun s => ⟨_, exec_round (i := .mc) rfl, ?_, emitsRound_roundStep 4 _ s,
      keptByRoundOp_roundStep 4 _ s⟩,
    fun s => ⟨_, exec_round (i := .imc) rfl, ?_, emitsRound_roundStep 7 _ s,
      keptByRoundOp_roundStep 7 _ s⟩,
    fun x => ⟨mixColumn_const x, invMixColumn_const x⟩,
    fun b => ⟨invMixColumns_mixColumns b, mixColumns_invMixColumns b⟩,
    by decide +kernel, by decide +kernel, by decide +kernel, by decide +kernel⟩
  · rintro c - a rfl
    exact (Block.word_mapWords mixColumn s.dp.s c).trans (mixColumn_gmul _)
  · rintro c - a rfl
    exact (Block.word_mapWords invMixColumn s.dp.s c).trans (invMixColumn_gmul _)

end Sys2Proof.Machine
end

section
/-! SUPPORT. The block cipher: Cipher and InvCipher round by round (42_block_cipher.md R152, R154, R156), and
the walk of the sequencer that computes them (R158; 10_state.md R30). -/

namespace Sys2Proof.Machine

/-! ### Cipher and InvCipher -/

/-- What undoes each step of a fold undoes the fold, from its end backwards. -/
theorem foldl_reverse_foldl {α β : Type*} {f g : β → α → β} (h : ∀ b a, g (f b a) a = b) (l : List α)
    (b : β) : l.reverse.foldl g (l.foldl f b) = b := by
  induction l generalizing b with
  | nil => rfl
  | cons a l ih =>
    rw [List.foldl_cons, List.reverse_cons, List.foldl_append, ih]
    exact h b a

/-- A round of Cipher from 1 to 13 (R152). -/
def cipherRound (k : Nat → Block) (b : Block) (r : Nat) : Block :=
  addRoundKey (k r) (mixColumns (shiftRows (subBytes b)))

/-- What InvCipher does from the ARK of round `r` to that of round `r - 1` (R154). -/
def invCipherRound (k : Nat → Block) (b : Block) (r : Nat) : Block :=
  invSubBytes (invShiftRows (invMixColumns (addRoundKey (k r) b)))

theorem invCipherRound_cipherRound (k : Nat → Block) (b : Block) (r : Nat) :
    invCipherRound k (cipherRound k b r) r = b := by
  rw [invCipherRound, cipherRound, addRoundKey_addRoundKey, invMixColumns_mixColumns,
    invShiftRows_shiftRows, invSubBytes_subBytes]

theorem cipherRound_invCipherRound (k : Nat → Block) (b : Block) (r : Nat) :
    cipherRound k (invCipherRound k b r) r = b := by
  rw [invCipherRound, cipherRound, subBytes_invSubBytes, shiftRows_invShiftRows,
    mixColumns_invMixColumns, addRoundKey_addRoundKey]

theorem cipher_eq_foldl (k : Nat → Block) (b : Block) : cipher k b =
    addRoundKey (k 14) (shiftRows (subBytes
      ((List.range' 1 13).foldl (cipherRound k) (addRoundKey (k 0) b)))) := rfl

theorem invCipher_eq_foldl (k : Nat → Block) (b : Block) : invCipher k b =
    addRoundKey (k 0) ((List.range' 1 13).reverse.foldl (invCipherRound k)
      (invSubBytes (invShiftRows (addRoundKey (k 14) b)))) := rfl

theorem invCipher_cipher (k : Nat → Block) (b : Block) : invCipher k (cipher k b) = b := by
  rw [invCipher_eq_foldl, cipher_eq_foldl, addRoundKey_addRoundKey, invShiftRows_shiftRows,
    invSubBytes_subBytes, foldl_reverse_foldl (invCipherRound_cipherRound k), addRoundKey_addRoundKey]

theorem cipher_invCipher (k : Nat → Block) (b : Block) : cipher k (invCipher k b) = b := by
  have hrounds := foldl_reverse_foldl (cipherRound_invCipherRound k) (List.range' 1 13).reverse
  rw [List.reverse_reverse] at hrounds
  rw [cipher_eq_foldl, invCipher_eq_foldl, addRoundKey_addRoundKey, hrounds, subBytes_invSubBytes,
    shiftRows_invShiftRows, addRoundKey_addRoundKey]

/-- Settles O26: round by round from the inside out, each operation meets its own inverse. -/
theorem ciphersUndoEachOther : Obligations.CiphersUndoEachOther := fun rk b =>
  ⟨invCipher_cipher (roundKey rk) b, cipher_invCipher (roundKey rk) b⟩

/-! ### The walks as functions of S -/

/-- What the micro-operation of a pair (round, code) of a walk makes of S, for round keys `k r`. -/
def walkBlock (k : Nat → Block) (b : Block) (p : Nat × BitVec 4) : Block := uopBlock (k p.1) p.2 b

theorem foldl_forwardWalk (k : Nat → Block) (b : Block) :
    forwardWalk.foldl (walkBlock k) b = cipher k b := by
  rw [forwardWalk, List.foldl_append, List.foldl_append, List.foldl_flatMap, cipher_eq_foldl]
  rfl

theorem foldl_inverseWalk (k : Nat → Block) (b : Block) :
    inverseWalk.foldl (walkBlock k) b = invCipher k b := by
  rw [inverseWalk, List.foldl_append, List.foldl_append, List.foldl_flatMap, invCipher_eq_foldl]
  rfl

theorem foldl_walkOf (k : Nat → Block) (dir : Bool) (b : Block) :
    (walkOf dir).foldl (walkBlock k) b = if dir then invCipher k b else cipher k b := by
  cases dir with
  | false => exact foldl_forwardWalk k b
  | true => exact foldl_inverseWalk k b

theorem length_walkOf (dir : Bool) : (walkOf dir).length = 56 := by cases dir <;> rfl

/-! ### The sequencer on the walk -/

/-- A micro-operation is a round step with the block of its code (R120). -/
theorem microStep_eq_roundStep {s : State} (h : 1 ≤ s.seq.uop.toNat) (h' : s.seq.uop.toNat ≤ 7) :
    microStep s = s.roundStep s.seq.uop
      (uopBlock (roundKey s.rk s.seq.round.val) s.seq.uop s.dp.s) := by
  unfold microStep uopBlock
  rcases uop_cases h h' with e | e | e | e | e | e | e <;> rw [e] <;> rfl

/-- The record of micro-operation `j` from state `s` on (R250): round and code as they stand before it, S
as it is after it. -/
def walkRecord (s : State) (j : Nat) : TraceRecord :=
  recRound s.seq.unit (microStep^[j] s).seq.round (microStep^[j] s).seq.uop (microStep^[j + 1] s).dp.s

section Walk

variable {s : State} {dir : Bool} {j : Nat} (h : s.seq.zeroUnit = Seq.start dir)
include h

/-- From the start of a walk, SEQ stands on its pairs one after another. -/
theorem microStep_iter_position (hj : j < 56) :
    1 ≤ (microStep^[j] s).seq.uop.toNat ∧ (microStep^[j] s).seq.uop.toNat ≤ 7
    ∧ (walkOf dir)[j]? = some ((microStep^[j] s).seq.round.val, (microStep^[j] s).seq.uop) := by
  obtain ⟨-, hseq⟩ := rounds dir h j (by omega)
  obtain ⟨-, hlo, hhi, hpos⟩ := walk_positions dir j hj
  rw [← h, ← Seq.advance_iter_zeroUnit, ← hseq] at hlo hhi hpos
  exact ⟨hlo, hhi, hpos⟩

/-- The next micro-operation of the walk. -/
theorem microStep_iter_succ (hj : j < 56) :
    microStep^[j + 1] s = (microStep^[j] s).roundStep (microStep^[j] s).seq.uop
      (walkBlock (roundKey s.rk) (microStep^[j] s).dp.s
        ((microStep^[j] s).seq.round.val, (microStep^[j] s).seq.uop)) := by
  obtain ⟨hlo, hhi, -⟩ := microStep_iter_position h hj
  have hrk : (microStep^[j] s).rk = s.rk := (keptByRoundOp_microStep_iter j s).frame.1.rk
  rw [Function.iterate_succ_apply', microStep_eq_roundStep hlo hhi, hrk]
  rfl

/-- S along the walk. -/
theorem microStep_iter_block (hj : j ≤ 56) :
    (microStep^[j] s).dp.s = ((walkOf dir).take j).foldl (walkBlock (roundKey s.rk)) s.dp.s := by
  induction j with
  | zero => rfl
  | succ j ih =>
    obtain ⟨-, -, hpos⟩ := microStep_iter_position h hj
    rw [microStep_iter_succ h hj, List.take_add_one, hpos, List.foldl_append, ← ih (by omega)]
    rfl

/-- TRACE along the walk: one record after another. -/
theorem microStep_iter_trace (hj : j ≤ 56) :
    (microStep^[j] s).trace = s.trace ++ (List.range j).map (walkRecord s) := by
  induction j with
  | zero => exact (List.append_nil _).symm
  | succ j ih =>
    have hunit : (microStep^[j] s).seq.unit = s.seq.unit := (keptByRoundOp_microStep_iter j s).unit
    rw [List.range_succ, List.map_append, ← List.append_assoc, ← ih (by omega), List.map_singleton,
      walkRecord, microStep_iter_succ h hj, ← hunit]
    rfl

/-- The records of a whole walk are labelled with its pairs. -/
theorem map_walkRecord :
    ((List.range 56).map (walkRecord s)).map (fun r => (r.round.toNat, r.uop)) = walkOf dir := by
  refine List.ext_getElem? fun j => ?_
  by_cases hj : j < 56
  · obtain ⟨-, -, hpos⟩ := microStep_iter_position h hj
    have hround : (walkRecord s j).round.toNat = (microStep^[j] s).seq.round.val :=
      Nat.mod_eq_of_lt (by omega)
    rw [hpos, List.getElem?_map, List.getElem?_map, List.getElem?_range hj, Option.map_some,
      Option.map_some, hround]
    rfl
  · rw [List.getElem?_eq_none (by simpa using hj),
      List.getElem?_eq_none (by rw [length_walkOf]; omega)]

end Walk

theorem Seq.zeroUnit_eq_start {q : Seq} (hp : q.phase = .round) (hu : q.uop = 1)
    (hr : q.round = if q.dir then 14 else 0) : q.zeroUnit = Seq.start q.dir := by
  rw [Seq.zeroUnit, Seq.start, hp, hu, hr]

/-- Settles O28: 56 micro-operations from the start of a walk, S the fold of the whole walk. -/
theorem walkComputesCipher : Obligations.WalkComputesCipher := by
  intro s hp hu hr
  have hstart := Seq.zeroUnit_eq_start hp hu hr
  obtain ⟨hrun, -⟩ := rounds _ hstart 56 le_rfl
  obtain ⟨hphase, -⟩ := rounds_end _ hstart
  have hs := microStep_iter_block hstart le_rfl
  rw [List.take_of_length_le (length_walkOf _).le, foldl_walkOf] at hs
  have htrace := microStep_iter_trace hstart le_rfl
  obtain ⟨hrest, hunit, hdir⟩ := keptByRoundOp_microStep_iter 56 s
  generalize microStep^[56] s = t at *
  refine ⟨t, hrun, ?_, hphase, hunit, hdir, ⟨_, htrace, map_walkRecord hstart, fun r hmem => ?_⟩, ?_⟩
  · rw [← hs]
    exact congrArg State.dp hrest
  · obtain ⟨j, -, rfl⟩ := List.mem_map.1 hmem
    exact ⟨rfl, rfl⟩
  · rw [hrest]

end Sys2Proof.Machine
end

section
/-! SUPPORT. Bytes of blocks, blocks as byte strings, and a block as a 128-bit big-endian integer
(00_scope.md R13 to R15; 43_modes.md R190). -/

namespace Sys2Proof.Machine

/-! ### Blocks as byte strings -/

theorem Block.get_tabulate (f : Nat → Byte) {n : Nat} (hn : n < 16) :
    (Block.tabulate f).get n = f n := by
  interval_cases n <;> rfl

theorem Block.get_keep (k : Nat) (b : Block) {n : Nat} (hn : n < 16) :
    (b.keep k).get n = if n < k then b.get n else 0 := Block.get_tabulate _ hn

theorem Block.toList_eq_map_get (b : Block) : b.toList = (List.range 16).map b.get := rfl

theorem Block.getElem_toList (b : Block) {n : Nat} (hn : n < b.toList.length) :
    b.toList[n] = b.get n := by
  simp only [Block.toList_eq_map_get, List.getElem_map, List.getElem_range]

theorem Block.getD_toList (b : Block) {n : Nat} (hn : n < 16) : b.toList.getD n 0 = b.get n := by
  have hlen : n < b.toList.length := hn
  rw [List.getD_eq_getElem _ _ hlen, Block.getElem_toList]

theorem Block.toList_injective : Function.Injective Block.toList := by
  rintro ⟨⟨⟩, ⟨⟩, ⟨⟩, ⟨⟩⟩ ⟨⟨⟩, ⟨⟩, ⟨⟩, ⟨⟩⟩ h
  simpa [Block.toList, and_assoc] using h

theorem Block.get_ofList (l : List Byte) {n : Nat} (hn : n < 16) : (Block.ofList l).get n = l.getD n 0 :=
  Block.get_tabulate _ hn

theorem Block.ext_get {a b : Block} (h : ∀ n < 16, a.get n = b.get n) : a = b := by
  refine Block.toList_injective ?_
  rw [Block.toList_eq_map_get, Block.toList_eq_map_get]
  exact List.map_congr_left fun n hn => h n (List.mem_range.1 hn)

/-- A block followed by anything begins with the block. -/
@[simp] theorem Block.ofList_toList_append (b : Block) (l : List Byte) :
    Block.ofList (b.toList ++ l) = b := rfl

@[simp] theorem Block.ofList_toList (b : Block) : Block.ofList b.toList = b := rfl

/-- Sixteen bytes are the bytes of their block. -/
theorem Block.toList_ofList {l : List Byte} (hl : l.length = 16) : (Block.ofList l).toList = l := by
  refine List.ext_getElem hl.symm fun n hn hn' => ?_
  rw [Block.getElem_toList, Block.get_ofList l (hl ▸ hn'), List.getD_eq_getElem]

/-! ### Big-endian integers (R15) -/

/-- `be128` of a string, from the value `acc` of the bytes before it. -/
def bigEndian (acc : Nat) (l : List Byte) : Nat := l.foldl (fun acc x => acc * 256 + x.toNat) acc

theorem Block.be128_eq_bigEndian (b : Block) : b.be128 = bigEndian 0 b.toList := rfl

theorem bigEndian_cons (acc : Nat) (x : Byte) (l : List Byte) :
    bigEndian acc (x :: l) = bigEndian (acc * 256 + x.toNat) l := rfl

theorem bigEndian_lt (acc : Nat) (l : List Byte) : bigEndian acc l < (acc + 1) * 256 ^ l.length := by
  induction l generalizing acc with
  | nil => simp [bigEndian]
  | cons x l ih =>
    have hx : x.toNat < 256 := x.isLt
    calc bigEndian acc (x :: l) < (acc * 256 + x.toNat + 1) * 256 ^ l.length := ih _
      _ ≤ ((acc + 1) * 256) * 256 ^ l.length := Nat.mul_le_mul_right _ (by omega)
      _ = (acc + 1) * 256 ^ (l.length + 1) := by ring

/-- Strings of one length with the same integer are the same. -/
theorem bigEndian_injective {l l' : List Byte} (hlen : l.length = l'.length) {acc acc' : Nat}
    (h : bigEndian acc l = bigEndian acc' l') : acc = acc' ∧ l = l' := by
  induction l generalizing l' acc acc' with
  | nil =>
    cases l' with
    | nil => exact ⟨h, rfl⟩
    | cons y l' => simp at hlen
  | cons x l ih =>
    cases l' with
    | nil => simp at hlen
    | cons y l' =>
      obtain ⟨hacc, rfl⟩ : acc * 256 + x.toNat = acc' * 256 + y.toNat ∧ l = l' :=
        ih (Nat.succ.inj hlen) h
      have hx : x.toNat < 256 := x.isLt
      have hy : y.toNat < 256 := y.isLt
      obtain rfl : x = y := BitVec.eq_of_toNat_eq (by omega)
      exact ⟨by omega, rfl⟩

/-- The `k` low bytes of `n`, most significant first. -/
theorem bigEndian_bytes (acc n k : Nat) :
    bigEndian acc ((List.range k).map fun j => BitVec.ofNat 8 (n / 256 ^ (k - 1 - j)))
      = acc * 256 ^ k + n % 256 ^ k := by
  induction k generalizing acc with
  | zero => simp [bigEndian, Nat.mod_one]
  | succ k ih =>
    have hrest : ∀ j, k + 1 - 1 - (j + 1) = k - 1 - j := by omega
    simp only [List.range_succ_eq_map, List.map_cons, List.map_map, bigEndian_cons, Function.comp_def,
      Nat.succ_eq_add_one, hrest, ih]
    rw [BitVec.toNat_ofNat, Nat.mod_pow_succ (b := 256), Nat.sub_zero, Nat.add_sub_cancel]
    ring

theorem Block.be128_lt (b : Block) : b.be128 < 2 ^ 128 := by
  have h := bigEndian_lt 0 b.toList
  rw [← Block.be128_eq_bigEndian, Block.length_toList] at h
  exact h

/-- `be128` undoes `bytes128` (R15). -/
theorem Block.be128_bytes128 (n : Nat) : (Block.bytes128 n).be128 = n % 2 ^ 128 := by
  have h := bigEndian_bytes 0 n 16
  rw [Nat.zero_mul, Nat.zero_add] at h
  exact h

theorem Block.be128_injective : Function.Injective Block.be128 := fun a b h =>
  Block.toList_injective (bigEndian_injective (l := a.toList) (l' := b.toList) rfl h).2

/-- `bytes128` undoes `be128` (R15). -/
@[simp] theorem Block.bytes128_be128 (b : Block) : Block.bytes128 b.be128 = b :=
  Block.be128_injective (by rw [Block.be128_bytes128, Nat.mod_eq_of_lt (Block.be128_lt b)])

/-! ### Counter blocks (R190) -/

theorem be128_counterNext (b : Block) : (counterNext b).be128 = (b.be128 + 1) % 2 ^ 128 := by
  rw [counterNext, Block.be128_bytes128, Nat.mod_mod]

theorem be128_ctrBlock (iv : Block) (i : Nat) : (ctrBlock iv i).be128 = (iv.be128 + i) % 2 ^ 128 := by
  rw [ctrBlock, Block.be128_bytes128, Nat.mod_mod]

theorem ctrBlock_zero (iv : Block) : ctrBlock iv 0 = iv := by
  rw [ctrBlock, Nat.add_zero, Nat.mod_eq_of_lt (Block.be128_lt iv), Block.bytes128_be128]

theorem counterNext_ctrBlock (iv : Block) (i : Nat) :
    counterNext (ctrBlock iv i) = ctrBlock iv (i + 1) := by
  refine Block.be128_injective ?_
  rw [be128_counterNext, be128_ctrBlock, be128_ctrBlock, Nat.mod_add_mod, Nat.add_assoc]

/-- Settles O46: `be128` and `bytes128` are inverse, so addition on one side is addition on the other. -/
theorem counterBlocks : Obligations.CounterBlocks := fun iv i =>
  ⟨be128_ctrBlock iv i, ctrBlock_zero iv, counterNext_ctrBlock iv i, by decide +kernel,
    by decide +kernel, by decide +kernel⟩

end Sys2Proof.Machine
end

section
/-! SUPPORT. Padding (43_modes.md R174 to R177) and the whole-message functions on the units of a message
(R171, R180 to R191, R198, R199). -/

namespace Sys2Proof.Machine

/-! ### Padding -/

/-- A string that ends in a valid pattern has the pattern's length as its StripCount (R176). -/
theorem stripCount_append_replicate (l : List Byte) {x : Byte} (hlo : 1 ≤ x.toNat) (hhi : x.toNat ≤ 16) :
    stripCount (l ++ List.replicate x.toNat x) = x.toNat := by
  have hlast : (l ++ List.replicate x.toNat x).getLastD 0 = x := by
    rw [List.getLastD_eq_getLast?, List.getLast?_append, List.getLast?_replicate, if_neg (by omega)]
    rfl
  have hsuffix : (l ++ List.replicate x.toNat x).drop
      ((l ++ List.replicate x.toNat x).length - x.toNat) = List.replicate x.toNat x := by
    rw [List.length_append, List.length_replicate, Nat.add_sub_cancel, List.drop_left]
  rw [stripCount, hlast, hsuffix]
  exact if_pos ⟨hlo, hhi, by simp, by simp⟩

/-- StripCount is 0, or the length of a valid pattern the string ends in (R176). -/
theorem stripCount_cases (m : List Byte) : stripCount m = 0 ∨
    ∃ l : List Byte, ∃ x : Byte, 1 ≤ x.toNat ∧ x.toNat ≤ 16 ∧ m = l ++ List.replicate x.toNat x := by
  by_cases h : 1 ≤ (m.getLastD 0).toNat ∧ (m.getLastD 0).toNat ≤ 16 ∧ (m.getLastD 0).toNat ≤ m.length
      ∧ (m.drop (m.length - (m.getLastD 0).toNat)).all (fun x => x.toNat == (m.getLastD 0).toNat)
  · obtain ⟨hlo, hhi, hlen, hall⟩ := h
    refine .inr ⟨m.take (m.length - (m.getLastD 0).toNat), m.getLastD 0, hlo, hhi, ?_⟩
    have hsuffix : m.drop (m.length - (m.getLastD 0).toNat)
        = List.replicate (m.getLastD 0).toNat (m.getLastD 0) := by
      refine List.eq_replicate_iff.2 ⟨by rw [List.length_drop]; omega, fun y hy => ?_⟩
      exact BitVec.eq_of_toNat_eq (by simpa using List.all_eq_true.1 hall y hy)
    rw [← hsuffix, List.take_append_drop]
  · exact .inl (if_neg h)

theorem unpad_append_replicate (l : List Byte) {x : Byte} (hlo : 1 ≤ x.toNat) (hhi : x.toNat ≤ 16) :
    unpad (l ++ List.replicate x.toNat x) = l := by
  rw [unpad, stripCount_append_replicate l hlo hhi, List.length_append, List.length_replicate,
    Nat.add_sub_cancel, List.take_left]

theorem unpad_of_stripCount_eq_zero {m : List Byte} (h : stripCount m = 0) : unpad m = m := by
  rw [unpad, h, Nat.sub_zero, List.take_length]

theorem pad_of_aligned {m : List Byte} (h : m.length % 16 = 0) : pad m = m := by
  simp [pad, padCount, h]

@[simp] theorem length_pad (m : List Byte) : (pad m).length = m.length + padCount m.length := by
  simp [pad]

theorem length_pad_mod (m : List Byte) : (pad m).length % 16 = 0 := by
  rw [length_pad, padCount]
  omega

/-- The pad count of a message that is not aligned (R174). -/
theorem padCount_of_unaligned {n : Nat} (h : n % 16 ≠ 0) :
    padCount n = 16 - n % 16 ∧ 1 ≤ padCount n ∧ padCount n ≤ 16
      ∧ (BitVec.ofNat 8 (padCount n)).toNat = padCount n := by
  have hcount : padCount n = 16 - n % 16 := by
    rw [padCount]
    omega
  refine ⟨hcount, by omega, by omega, ?_⟩
  rw [BitVec.toNat_ofNat]
  omega

/-- A padded message ends in the pattern of its pad count (R174, R175). -/
theorem pad_of_unaligned {m : List Byte} (h : m.length % 16 ≠ 0) :
    stripCount (pad m) = padCount m.length ∧ unpad (pad m) = m := by
  obtain ⟨-, hlo, hhi, hx⟩ := padCount_of_unaligned h
  rw [pad]
  generalize hp : BitVec.ofNat 8 (padCount m.length) = x at hx
  rw [← hx] at hlo hhi ⊢
  exact ⟨stripCount_append_replicate m hlo hhi, unpad_append_replicate m hlo hhi⟩

/-- Settles O45: StripCount is the length of the valid pattern a string ends in, or 0 where there is
none. -/
theorem paddingLaws : Obligations.PaddingLaws := by
  refine ⟨fun m _ => ⟨pad_of_aligned, fun h => ?_⟩, ?_⟩
  · obtain ⟨hcount, -⟩ := padCount_of_unaligned h
    obtain ⟨hstrip, hunpad⟩ := pad_of_unaligned h
    exact ⟨padCount m.length, hcount, rfl, length_pad_mod m, hstrip, hunpad⟩
  · rintro m x l rfl -
    refine ⟨fun l' hlo hhi hm => ?_, fun hnone => ?_⟩
    · rw [hm]
      exact unpad_append_replicate l' hlo hhi
    · rcases stripCount_cases (l ++ [x]) with hzero | ⟨l', y, hlo, hhi, hm⟩
      · exact unpad_of_stripCount_eq_zero hzero
      · have hlast := congrArg List.getLast? hm
        rw [List.getLast?_append, List.getLast?_append, List.getLast?_replicate, if_neg (by omega)]
          at hlast
        obtain rfl : x = y := by simpa using hlast
        exact absurd ⟨l', hlo, hhi, hm⟩ hnone

/-! ### The units of a message (R171) -/

theorem unitsOf_nil : unitsOf [] = [] := rfl

/-- The units of a message that is not empty: its first sixteen bytes, then those of the rest. -/
theorem unitsOf_cons {m : List Byte} (h : m ≠ []) : unitsOf m = m.take 16 :: unitsOf (m.drop 16) := by
  have hlen : 0 < m.length := List.length_pos_iff.2 h
  have hcount : ceil16 m.length = ceil16 (m.drop 16).length + 1 := by
    rw [List.length_drop, ceil16, ceil16]
    omega
  have hunit : ∀ i, 16 + 16 * i = 16 * (i + 1) := by omega
  simp [unitsOf, hcount, List.range_succ_eq_map, List.drop_drop, hunit]

/-- A whole unit in front. -/
theorem unitsOf_append {u : List Byte} (hu : u.length = 16) (m : List Byte) :
    unitsOf (u ++ m) = u :: unitsOf m := by
  have hne : u ++ m ≠ [] := by
    rw [ne_eq, List.append_eq_nil_iff, ← List.length_eq_zero_iff]
    omega
  rw [unitsOf_cons hne, ← hu, List.take_left, List.drop_left]

/-- A message of one unit, be it partial. -/
theorem unitsOf_single {u : List Byte} (hne : u ≠ []) (hu : u.length ≤ 16) : unitsOf u = [u] := by
  rw [unitsOf_cons hne, List.take_of_length_le hu, List.drop_of_length_le hu, unitsOf_nil]

/-- Induction over a message unit by unit (R171): the last unit may be partial. -/
theorem message_induction {P : List Byte → Prop} (nil : P [])
    (last : ∀ u, u ≠ [] → u.length < 16 → P u)
    (cons : ∀ u m, u.length = 16 → P m → P (u ++ m)) (m : List Byte) : P m := by
  induction h : m.length using Nat.strong_induction_on generalizing m with
  | _ n ih =>
    by_cases hlong : 16 ≤ m.length
    · rw [← List.take_append_drop 16 m]
      refine cons _ _ (List.length_take_of_le hlong) (ih (m.drop 16).length ?_ _ rfl)
      rw [List.length_drop]
      omega
    · by_cases hm : m = []
      · rw [hm]
        exact nil
      · exact last m hm (by omega)

/-! ### `xorUnit` -/

theorem length_xorUnit {u : List Byte} (hu : u.length ≤ 16) (k : Block) :
    (xorUnit u k).length = u.length := by
  rw [xorUnit, List.length_zipWith, Block.length_toList]
  omega

/-- A keystream block taken twice cancels. -/
theorem xorUnit_xorUnit {u : List Byte} (hu : u.length ≤ 16) (k : Block) :
    xorUnit (xorUnit u k) k = u := by
  refine List.ext_getElem ?_ fun n hn hn' => ?_
  · rw [length_xorUnit ((length_xorUnit hu k).trans_le hu), length_xorUnit hu]
  · simp only [xorUnit, List.getElem_zipWith, Byte.xor_xor_cancel]

/-! ### The mode functions as one fold over the units -/

/-- A message made unit by unit: `out` is what a unit becomes, `next` what it hands on to the next one. -/
def unitMessage {σ : Type} (out : σ → List Byte → List Byte) (next : σ → List Byte → σ) :
    σ → List (List Byte) → List Byte
  | _, [] => []
  | c, u :: us => out c u ++ unitMessage out next (next c u) us

theorem ecbMessage_eq {σ : Type} (f : Block → Block) (c : σ) (us : List (List Byte)) :
    ecbMessage f us = unitMessage (fun _ u => (f (Block.ofList u)).toList) (fun c _ => c) c us := by
  induction us with
  | nil => rfl
  | cons u us ih => rw [ecbMessage, unitMessage, ih]

theorem cbcEncrypt_eq (e : Block → Block) (c : Block) (us : List (List Byte)) :
    cbcEncrypt e c us = unitMessage (fun c u => (e ((Block.ofList u).xor c)).toList)
      (fun c u => e ((Block.ofList u).xor c)) c us := by
  induction us generalizing c with
  | nil => rfl
  | cons u us ih => rw [cbcEncrypt, unitMessage, ih]

theorem cbcDecrypt_eq (d : Block → Block) (c : Block) (us : List (List Byte)) :
    cbcDecrypt d c us = unitMessage (fun c u => ((d (Block.ofList u)).xor c).toList)
      (fun _ u => Block.ofList u) c us := by
  induction us generalizing c with
  | nil => rfl
  | cons u us ih => rw [cbcDecrypt, unitMessage, ih]

theorem cfbEncrypt_eq (e : Block → Block) (c : Block) (us : List (List Byte)) :
    cfbEncrypt e c us = unitMessage (fun c u => xorUnit u (e c))
      (fun c u => Block.ofList (xorUnit u (e c))) c us := by
  induction us generalizing c with
  | nil => rfl
  | cons u us ih => rw [cfbEncrypt, unitMessage, ih]

theorem cfbDecrypt_eq (e : Block → Block) (c : Block) (us : List (List Byte)) :
    cfbDecrypt e c us = unitMessage (fun c u => xorUnit u (e c)) (fun _ u => Block.ofList u) c us := by
  induction us generalizing c with
  | nil => rfl
  | cons u us ih => rw [cfbDecrypt, unitMessage, ih]

theorem ofbMessage_eq (e : Block → Block) (c : Block) (us : List (List Byte)) :
    ofbMessage e c us = unitMessage (fun c u => xorUnit u (e c)) (fun c _ => e c) c us := by
  induction us generalizing c with
  | nil => rfl
  | cons u us ih => rw [ofbMessage, unitMessage, ih]

/-- The counter of CTR handed on as a block (R190). -/
theorem ctrMessage_eq (e : Block → Block) (iv : Block) (i : Nat) (us : List (List Byte)) :
    ctrMessage e iv i us
      = unitMessage (fun c u => xorUnit u (e c)) (fun c _ => counterNext c) (ctrBlock iv i) us := by
  induction us generalizing i with
  | nil => rfl
  | cons u us ih => rw [ctrMessage, unitMessage, counterNext_ctrBlock, ih]

/-- Where each unit is undone, with the same value handed on, the message is. `A` stands for an aligned
message, whose units are all whole. -/
theorem unitMessage_unitMessage {σ : Type} {out out' : σ → List Byte → List Byte}
    {next next' : σ → List Byte → σ} {A : Prop}
    (h : ∀ c u, u.length ≤ 16 → (A → u.length = 16) →
      (out c u).length = u.length ∧ out' c (out c u) = u ∧ next' c (out c u) = next c u)
    {m : List Byte} (hm : A → m.length % 16 = 0) (c : σ) :
    unitMessage out' next' c (unitsOf (unitMessage out next c (unitsOf m))) = m := by
  induction m using message_induction generalizing c with
  | nil => simp only [unitsOf_nil, unitMessage]
  | last u hne hlt =>
    have hpos := List.length_pos_iff.2 hne
    obtain ⟨hlen, hout, -⟩ := h c u hlt.le fun hA => absurd (hm hA) (by omega)
    have hne' : out c u ≠ [] := List.length_pos_iff.1 (hlen ▸ hpos)
    rw [unitsOf_single hne hlt.le, unitMessage, unitMessage, List.append_nil,
      unitsOf_single hne' (hlen.trans_le hlt.le), unitMessage, unitMessage, List.append_nil, hout]
  | cons u m hu ih =>
    obtain ⟨hlen, hout, hnext⟩ := h c u hu.le fun _ => hu
    have hm' : A → m.length % 16 = 0 := fun hA => by
      have := hm hA
      rw [List.length_append] at this
      omega
    rw [unitsOf_append hu, unitMessage, unitsOf_append (hlen.trans hu), unitMessage, hout, hnext, ih hm']

/-! ### Decryption undoes encryption, mode by mode (R198) -/

theorem ecb_ecb {d e : Block → Block} (h : ∀ b, d (e b) = b) {m : List Byte} (hm : m.length % 16 = 0) :
    ecbMessage d (unitsOf (ecbMessage e (unitsOf m))) = m := by
  rw [ecbMessage_eq d (), ecbMessage_eq e ()]
  refine unitMessage_unitMessage (A := True) (fun _ u _ hu => ?_) (fun _ => hm) ()
  refine ⟨(hu trivial).symm, ?_, rfl⟩
  rw [Block.ofList_toList, h, Block.toList_ofList (hu trivial)]

theorem cbcDecrypt_cbcEncrypt {d e : Block → Block} (h : ∀ b, d (e b) = b) (c : Block) {m : List Byte}
    (hm : m.length % 16 = 0) : cbcDecrypt d c (unitsOf (cbcEncrypt e c (unitsOf m))) = m := by
  rw [cbcDecrypt_eq, cbcEncrypt_eq]
  refine unitMessage_unitMessage (A := True) (fun c u _ hu => ?_) (fun _ => hm) c
  refine ⟨(hu trivial).symm, ?_, by rw [Block.ofList_toList]⟩
  rw [Block.ofList_toList, h, Block.xor_xor_cancel, Block.toList_ofList (hu trivial)]

/-- A stream mode undoes itself where both directions hand on the same value. -/
theorem stream_stream {next next' : Block → List Byte → Block} (e : Block → Block)
    (h : ∀ c u, next' c (xorUnit u (e c)) = next c u) (c : Block) (m : List Byte) :
    unitMessage (fun c u => xorUnit u (e c)) next' c
      (unitsOf (unitMessage (fun c u => xorUnit u (e c)) next c (unitsOf m))) = m :=
  unitMessage_unitMessage (A := False)
    (fun c u hu _ => ⟨length_xorUnit hu _, xorUnit_xorUnit hu _, h c u⟩) False.elim c

theorem cfbDecrypt_cfbEncrypt (e : Block → Block) (c : Block) (m : List Byte) :
    cfbDecrypt e c (unitsOf (cfbEncrypt e c (unitsOf m))) = m := by
  rw [cfbDecrypt_eq, cfbEncrypt_eq]
  exact stream_stream e (fun _ _ => rfl) c m

theorem ofb_ofb (e : Block → Block) (c : Block) (m : List Byte) :
    ofbMessage e c (unitsOf (ofbMessage e c (unitsOf m))) = m := by
  rw [ofbMessage_eq, ofbMessage_eq]
  exact stream_stream e (fun _ _ => rfl) c m

theorem ctr_ctr (e : Block → Block) (iv : Block) (i : Nat) (m : List Byte) :
    ctrMessage e iv i (unitsOf (ctrMessage e iv i (unitsOf m))) = m := by
  rw [ctrMessage_eq, ctrMessage_eq]
  exact stream_stream e (fun _ _ => rfl) (ctrBlock iv i) m

/-- In the padded modes the padded message comes back, less its padding; in the others the message. -/
theorem decryptWith_encryptWith (k : Nat → Block) (mode : Mode) (iv : Block) (m : List Byte) :
    decryptWith k mode (encryptWith k mode iv m) = if mode.padded then unpad (pad m) else m := by
  have hpad := length_pad_mod m
  cases mode with
  | ecb => exact congrArg unpad (ecb_ecb (invCipher_cipher k) hpad)
  | cbc => exact congrArg unpad (cbcDecrypt_cbcEncrypt (invCipher_cipher k) iv hpad)
  | cfb => exact cfbDecrypt_cfbEncrypt (cipher k) iv m
  | ofb => exact ofb_ofb (cipher k) iv m
  | ctr => exact ctr_ctr (cipher k) iv 0 m

/-- Settles O47: what comes back is `unpad (pad m)` in a padded mode, which is `m` but for an aligned
one. -/
theorem roundTripLaw : Obligations.RoundTripLaw := by
  intro key mode iv m _
  rw [decryptBytes, encryptBytes, decryptWith_encryptWith]
  by_cases hmode : mode.padded = true
  · by_cases haligned : m.length % 16 = 0
    · rw [if_pos hmode, if_pos ⟨hmode, haligned⟩, pad_of_aligned haligned, unpad]
    · rw [if_pos hmode, if_neg fun h => haligned h.2, (pad_of_unaligned haligned).2]
  · rw [if_neg hmode, if_neg fun h => hmode h.1]

/-- The two directions of CFB on two zero blocks, from the previous block `c`: they differ where the
cipher's output for `c` is not zero. -/
theorem cfbDecrypt_ne_cfbEncrypt {e : Block → Block} (he : Function.Injective e) {c : Block}
    (hc : e c ≠ Block.zero) :
    cfbDecrypt e c (unitsOf (Block.zero.toList ++ Block.zero.toList))
      ≠ cfbEncrypt e c (unitsOf (Block.zero.toList ++ Block.zero.toList)) := by
  have hzero : ∀ b : Block, xorUnit Block.zero.toList b = b.toList := fun b => by
    simp [xorUnit, Block.zero, Word.zero, Block.toList]
  have hunits : unitsOf (Block.zero.toList ++ Block.zero.toList)
      = [Block.zero.toList, Block.zero.toList] := rfl
  simp only [hunits, cfbDecrypt, cfbEncrypt, hzero, Block.ofList_toList, List.append_nil]
  intro h
  exact hc (he (Block.toList_injective (List.append_cancel_left h))).symm

/-- Settles O48: OFB and CTR take the same keystream in both directions; for CFB, a zero message and an IV
whose cipher output is not zero. -/
theorem streamInvolutions : Obligations.StreamInvolutions := by
  refine ⟨fun k iv m => ⟨rfl, rfl, ofb_ofb (cipher k) iv m, ctr_ctr (cipher k) iv 0 m⟩, ?_⟩
  have hinj : Function.Injective (cipher (roundKey (keyExpansion Key.zero))) :=
    Function.LeftInverse.injective (invCipher_cipher (roundKey (keyExpansion Key.zero)))
  refine ⟨Key.zero, invCipher (roundKey (keyExpansion Key.zero)) (Block.bytes128 1),
    Block.zero.toList ++ Block.zero.toList, cfbDecrypt_ne_cfbEncrypt hinj ?_⟩
  rw [Block.ofList_toList_append, cipher_invCipher]
  decide

end Sys2Proof.Machine
end

section
/-! SUPPORT. The steps HEAD, LOAD, STORE and TAIL field by field (43_modes.md R192 to R195, R218;
45_trace.md R245 to R255). -/

namespace Sys2Proof.Machine

/-- The padded modes are ECB and CBC (R170). -/
theorem Mode.padded_iff {m : Mode} : m.padded = true ↔ m = .ecb ∨ m = .cbc := by
  cases m <;> simp [Mode.padded]

/-- The inverse cipher runs for DECRYPT in a padded mode (R159). -/
theorem Op.inverse_iff {o : Op} : o.inverse = true ↔ o.enc = false ∧ (o.mode = .ecb ∨ o.mode = .cbc) := by
  rw [Op.inverse, Bool.and_eq_true, Mode.padded_iff, Bool.not_eq_true']

/-! ### HEAD (R194) -/

/-- K_PAD with the padded modes by name (R247). -/
theorem Op.recPad_eq (o : Op) (n : Nat) : o.recPad n =
    { kind := .pad
      n := if o.mode = .ecb ∨ o.mode = .cbc then 1 else 0
      m := if o.enc = true ∧ (o.mode = .ecb ∨ o.mode = .cbc) then BitVec.ofNat 8 (padCount n) else 0
      aux := BitVec.ofNat 32 (o.total n) } := by
  simp only [Op.recPad, Bool.and_eq_true, Mode.padded_iff]

/-- K_MODE with the inverse cipher's modes by name (R248). -/
theorem Op.recMode_eq (o : Op) (iv : Block) (n : Nat) : o.recMode iv n =
    { kind := .mode
      n := o.mode.code.setWidth 8
      m := if o.enc = false ∧ (o.mode = .ecb ∨ o.mode = .cbc) then 1 else 0
      aux := BitVec.ofNat 32 (o.units n)
      data := if o.mode = .ecb then Block.zero else iv } := by
  simp only [Op.recMode, Op.inverse_iff]

/-- HEAD of ENCRYPT with an IV stores the IV before the message (R178, R194). -/
theorem Op.read_headPhase_obuf {o : Op} {s : State} (hw : Memory.wf s.obuf = true) (henc : o.enc = true)
    (hm : o.mode ≠ .ecb) (a : Nat) :
    Memory.read a (o.headPhase s).obuf = if a < 16 then s.cfg.iv.get a else Memory.read a s.obuf := by
  rw [Op.headPhase_obuf, if_pos ⟨henc, hm⟩, Memory.read_writeBytes _ _ _ hw, Block.length_toList]
  by_cases ha : a < 16
  · rw [if_pos ⟨a.zero_le, by omega⟩, if_pos ha, Nat.sub_zero, Block.getD_toList _ ha]
  · rw [if_neg (by omega), if_neg ha]

/-- Outside that case HEAD leaves OBUF (R194). -/
theorem Op.headPhase_obuf_kept {o : Op} {s : State} (h : o.enc = false ∨ o.mode = .ecb) :
    (o.headPhase s).obuf = s.obuf := by
  refine if_neg ?_
  rcases h with h | h <;> simp [h]

/-- Settles O29: the header records, FB and the IV in OBUF as HEAD makes them. -/
theorem headResult : Obligations.HeadResult := by
  rintro s o hp rfl hw
  refine ⟨_, seqStep_head hp, fun hm => ⟨?_, Op.headPhase_obuf_kept (.inr hm)⟩,
    fun hm henc => ⟨?_, Op.read_headPhase_obuf hw henc hm⟩,
    fun hm hdec => ⟨Op.headPhase_obuf_kept (.inl hdec), fun k hk => ?_⟩, ?_, rfl⟩
  · rw [Op.headPhase_dp, if_pos hm]
  · rw [Op.headPhase_dp, if_neg hm, Op.iv, if_pos henc]
  · simp only [Op.headPhase_dp, if_neg hm, Op.iv, hdec, Bool.false_eq_true, if_false,
      Block.get_tabulate _ hk]
  · have hfb : (if s.currentOp.mode = .ecb then Block.zero else (s.currentOp.headPhase s).dp.fb)
        = if s.currentOp.mode = .ecb then Block.zero else s.currentOp.iv s := by
      split
      · rfl
      · next hm => rw [Op.headPhase_dp, if_neg hm]
    rw [hfb, Op.headPhase_trace, Op.headRecords, Op.recPad_eq, Op.recMode_eq]
    simp only [List.append_assoc]
    rfl

/-! ### LOAD (R192) -/

/-- IB of a unit: the message bytes below `L` (R192). -/
theorem Op.get_inputUnit (o : Op) (s : State) (i : Nat) {k : Nat} (hk : k < 16) :
    (o.inputUnit s i).get k =
      if 16 * i + k < o.total s.stage.lenIn.toNat then o.msg s (16 * i + k) else 0 := by
  have hlt : k < o.ulen s.stage.lenIn.toNat i ↔ 16 * i + k < o.total s.stage.lenIn.toNat := by
    rw [Op.ulen]
    omega
  rw [Op.inputUnit, Block.get_tabulate _ hk]
  simp only [hlt]

/-- The cipher input is FB in the stream modes (R192). -/
theorem Op.cipherInput_stream {o : Op} (h : o.mode = .cfb ∨ o.mode = .ofb ∨ o.mode = .ctr)
    (ib fb : Block) : o.cipherInput ib fb = fb := by
  rcases h with h | h | h <;> rw [Op.cipherInput, h]

/-- Settles O31: ULEN, IB, X and the start of the walk as LOAD makes them. -/
theorem loadResult : Obligations.LoadResult := by
  rintro s o i n hp rfl rfl rfl -
  have hulen : ∀ m n, BitVec.ofNat 8 (Op.ulen s.currentOp m n)
      = (BitVec.ofNat 5 (Op.ulen s.currentOp m n)).setWidth 8 := fun m n => by
    rw [← BitVec.ofNat_toNat, Op.toNat_ulen]
  refine ⟨_, seqStep_load hp, Op.toNat_ulen _ _ _, fun k hk => Op.get_inputUnit _ _ _ hk,
    fun hm => ?_, fun hm => ?_, fun hm => Op.cipherInput_stream hm _ _, ?_, rfl, rfl, rfl, ?_, rfl⟩
  · simp only [Op.loadPhase, Op.cipherInput, hm]
  · simp only [Op.loadPhase, Op.cipherInput, hm]
  · simp only [Op.loadPhase, Op.inverse]
    cases s.currentOp.mode <;> rfl
  · simp only [Op.loadPhase, recUnitStart, recUnitPre, hulen]

/-! ### STORE (R193) -/

/-- OB in the stream modes: the first ULEN bytes of `IB ⊕ Y` (R193). -/
theorem Op.get_outputUnit_stream {o : Op} (h : o.mode = .cfb ∨ o.mode = .ofb ∨ o.mode = .ctr)
    (y ib fb : Block) (ulen : Nat) {k : Nat} (hk : k < 16) :
    (o.outputUnit y ib fb ulen).get k = if k < ulen then ib.get k ^^^ y.get k else 0 := by
  have hkeep : o.outputUnit y ib fb ulen = (ib.xor y).keep ulen := by
    rcases h with h | h | h <;> rw [Op.outputUnit, h]
  rw [hkeep, Block.get_keep _ _ hk, Block.get_xor]

/-- OBUF after STORE: the first ULEN bytes of OB, and every other byte as it was (R193). -/
theorem Op.read_storePhase_obuf {o : Op} {s : State} (hw : Memory.wf s.obuf = true)
    (hulen : s.dp.ulen.toNat ≤ 16) (a : Nat) :
    Memory.read a (o.storePhase s).obuf =
      if o.obase + 16 * s.seq.unit.toNat ≤ a
          ∧ a < o.obase + 16 * s.seq.unit.toNat + s.dp.ulen.toNat
      then (o.storePhase s).dp.ob.get (a - (o.obase + 16 * s.seq.unit.toNat))
      else Memory.read a s.obuf := by
  have hlen : ∀ b : Block, (b.toList.take s.dp.ulen.toNat).length = s.dp.ulen.toNat := fun b =>
    List.length_take_of_le hulen
  simp only [Op.storePhase, Memory.read_writeBytes _ _ _ hw, hlen]
  split
  · next ha =>
    rw [List.getD_eq_getElem _ _ (by rw [hlen]; omega), List.getElem_take, Block.getElem_toList]
  · rfl

/-- Settles O32: OB, FB, KS and the bytes stored as STORE makes them. -/
theorem storeResult : Obligations.StoreResult := by
  rintro s o i hp rfl rfl hulen hi hw
  have hulen8 : BitVec.ofNat 8 s.dp.ulen.toNat = s.dp.ulen.setWidth 8 := BitVec.ofNat_toNat 8 _
  refine ⟨_, seqStep_store hp, fun hm => ?_, fun hm henc => ?_, fun hm hdec => ?_,
    fun hm => ⟨?_, fun k hk => Op.get_outputUnit_stream hm _ _ _ _ hk⟩, fun hm => ?_, fun hm => ?_,
    fun hm => ?_, Op.read_storePhase_obuf hw hulen, ?_, Op.storePhase_phase _ s, ?_, rfl⟩
  · simp only [Op.storePhase, Op.outputUnit, Op.nextFeedback, Op.nextKeystream, hm, Mode.padded, if_true,
      and_self]
  · simp only [Op.storePhase, Op.outputUnit, Op.nextFeedback, Op.nextKeystream, hm, henc, Mode.padded,
      if_true, and_self]
  · simp [Op.storePhase, Op.outputUnit, Op.nextFeedback, Op.nextKeystream, hm, hdec, Mode.padded]
  · rcases hm with hm | hm | hm <;> simp [Op.storePhase, Op.nextKeystream, hm, Mode.padded]
  · simp only [Op.storePhase, Op.nextFeedback, hm]
  · simp only [Op.storePhase, Op.nextFeedback, hm]
  · simp only [Op.storePhase, Op.nextFeedback, hm, be128_counterNext]
  · show (s.seq.unit + 1).toNat = _
    bv_omega
  · simp only [Op.storePhase, recUnitDone, changedBytes, hulen8]

/-! ### TAIL (R195) -/

/-- LEN_OUT with the padding found, `k`, by its own name (R195). -/
theorem Op.lenOut_eq (o : Op) (s : State) : o.lenOut s = BitVec.ofNat 32
    (if o.enc then o.obase + o.total s.stage.lenIn.toNat
     else o.total s.stage.lenIn.toNat - if o.inverse then stripCount (o.decrypted s) else 0) := by
  obtain ⟨enc, m⟩ := o
  cases enc <;> cases m <;> rfl

/-- Settles O30: the records and LEN_OUT as TAIL makes them from what stands in OBUF. -/
theorem tailResult : Obligations.TailResult := by
  rintro s o n k l hp rfl rfl rfl rfl
  refine ⟨_, seqStep_tail hp, ?_, ?_, rfl⟩
  · simp only [Op.tailPhase_lenOut, Op.lenOut_eq, Op.inverse_iff, Op.decrypted]
  · simp only [Op.tailPhase_trace, Op.tailPhase_lenOut, Op.tailRecords, Op.recAggregate, Op.recFinal,
      List.append_assoc]
    by_cases hinv : s.currentOp.inverse = true
    · have hcase := Op.inverse_iff.1 hinv
      simp [hinv, hcase, recUnpad, Op.decrypted]
    · have hcase := mt Op.inverse_iff.2 hinv
      simp [hinv, hcase]

end Sys2Proof.Machine
end

section
/-! SUPPORT. A whole ENCRYPT or DECRYPT: its completion and LEN_OUT (43_modes.md R195, R196, R218), and what
its units leave in OBUF (R178, R192, R193). -/

namespace Sys2Proof.Machine

/-! ### Legal commands -/

/-- The checks do not look at what the prologue writes (R210). -/
theorem Op.check_prologue (o : Op) (d : BusWord) (s : State) : o.check (s.prologue d) = o.check s := rfl

/-- What a legal frame length says to the checks of DECRYPT (R79, R216). -/
theorem legalFrame_bounds {m : Mode} {n : Nat} (h : legalFrame m n = true) :
    16 ≤ n ∧ (m ≠ .ecb → 17 ≤ n) ∧ (m.padded = true →
      n - (Op.mk false m).ibase ≠ 0 ∧ (n - (Op.mk false m).ibase) % 16 = 0) := by
  cases m <;> simp [legalFrame, Op.ibase, Mode.padded] at h ⊢ <;> omega

/-- The checks of a legal operation pass (R213, R214, R216). -/
theorem Op.check_of_legal {o : Op} {s : State} (h : o.Legal s) : o.check s = none := by
  obtain ⟨enc, m⟩ := o
  cases enc with
  | true =>
    obtain ⟨hvalid, hfits, hlong⟩ : s.EncryptLegal := h
    simp only [Op.check, if_true, State.encryptCheck, hvalid, Bool.true_eq_false, if_false]
    rw [if_neg (by omega), if_neg (by omega)]
  | false =>
    obtain ⟨hvalid, hfits, hframe⟩ : s.DecryptLegal m := h
    obtain ⟨hlong, hiv, halign⟩ := legalFrame_bounds hframe
    simp only [Op.check, State.decryptCheck, hvalid, Bool.true_eq_false, Bool.false_eq_true, if_false]
    rw [if_neg (by omega), if_neg (by omega), if_neg fun h => by have := hiv h.1; omega,
      if_neg fun h => by have := halign h.1; omega]

theorem Op.exec_of_legal {o : Op} {s : State} (h : o.Legal s) :
    exec o.instr s = .next (o.run (s.prologue (if o.enc then 2 else 3))) := by
  rw [exec_instr, Op.command, Op.check_prologue, Op.check_of_legal h]

/-- A legal ENCRYPT is the walk from its prologue (R214). -/
theorem exec_encryptOf_legal {m : Mode} {s : State} (h : s.EncryptLegal) :
    exec (Instr.encryptOf m) s = .next ((Op.mk true m).run (s.prologue 2)) :=
  Op.exec_of_legal (o := ⟨true, m⟩) h

/-- A legal DECRYPT is the walk from its prologue (R216). -/
theorem exec_decryptOf_legal {m : Mode} {s : State} (h : s.DecryptLegal m) :
    exec (Instr.decryptOf m) s = .next ((Op.mk false m).run (s.prologue 3)) :=
  Op.exec_of_legal (o := ⟨false, m⟩) h

/-- The result of a legal operation fits OBUF, so its length fits LEN_OUT (R34). -/
theorem Op.obase_add_total_lt {o : Op} {s : State} (h : o.check s = none) :
    o.obase + o.total s.stage.lenIn.toNat < 2 ^ 32 := by
  obtain ⟨-, -, hfits, hcap⟩ := units_bounds h
  omega

/-! ### Completion and LEN_OUT -/

theorem KeptByRoundOp.err {s t : State} (h : KeptByRoundOp s t) : t.err = s.err := by rw [h.rest]

theorem Op.unitStep_err (o : Op) (s : State) : (o.unitStep s).err = s.err := by
  rw [Op.unitStep, Op.storePhase_err, (keptByRoundOp_microStep_iter 56 _).err, Op.loadPhase_err]

theorem Op.unitStep_iter_err (o : Op) (j : Nat) (s : State) : (o.unitStep^[j] s).err = s.err := by
  induction j with
  | zero => rfl
  | succ j ih => rw [Function.iterate_succ_apply', Op.unitStep_err, ih]

/-- The walk of a command after its checks raises nothing and completes (R218). -/
theorem Op.finished_run (o : Op) {s : State} (h : s.err = .none) : (o.run s).Finished where
  run := by rw [Op.run, Op.tailPhase_run]
  err := by rw [Op.run, Op.tailPhase_err, Op.unitStep_iter_err, Op.headPhase_err, h]
  phase := by rw [Op.run, Op.tailPhase_seq]

/-- LEN_OUT after a command (R195), the padding being that of the OBUF it leaves. -/
theorem Op.toNat_run_lenOut {o : Op} {s : State} (h : o.check s = none) :
    (o.run s).lenOut.toNat =
      if o.enc then o.obase + o.total s.stage.lenIn.toNat
      else o.total s.stage.lenIn.toNat - if o.inverse then
        stripCount (Memory.readBytes 0 (o.total s.stage.lenIn.toNat) (o.run s).obuf) else 0 := by
  have hlt := Op.obase_add_total_lt h
  have hstage := (keptFrom_run o s).kept.stage
  have hlen : (o.run s).lenOut = o.lenOut (o.run s) := by
    unfold Op.run
    generalize o.unitStep^[o.units s.stage.lenIn.toNat] (o.headPhase s) = u
    rfl
  rw [hlen, Op.lenOut_eq, Op.decrypted, hstage, BitVec.toNat_ofNat, Nat.mod_eq_of_lt]
  split <;> omega

theorem stripCount_readBytes_le (n : Nat) (m : Memory) :
    stripCount (Memory.readBytes 0 n m) ≤ 16 ∧ stripCount (Memory.readBytes 0 n m) ≤ n := by
  obtain ⟨hle, hle16⟩ := stripCount_le (Memory.readBytes 0 n m)
  rw [Memory.length_readBytes] at hle
  exact ⟨hle16, hle⟩

/-- Settles O38: LEN_OUT as TAIL sets it, with the message length of each mode. -/
theorem lengthLaws : Obligations.LengthLaws := by
  constructor
  · rintro m s n hlegal rfl
    have hlen := Op.toNat_run_lenOut (o := ⟨true, m⟩) (s := s.prologue 2)
      (Op.check_of_legal (s := s) hlegal)
    refine ⟨_, exec_encryptOf_legal hlegal, Op.finished_run _ rfl, ?_, ?_, ?_⟩
    · rintro rfl
      simpa [Op.obase, Op.total, Mode.padded] using hlen
    · rintro rfl
      simpa [Op.obase, Op.total, Mode.padded, Nat.add_assoc] using hlen
    · rintro (rfl | rfl | rfl) <;> simpa [Op.obase, Op.total, Mode.padded] using hlen
  · rintro m s n hlegal rfl
    have hlen := Op.toNat_run_lenOut (o := ⟨false, m⟩) (s := s.prologue 3)
      (Op.check_of_legal (s := s) hlegal)
    refine ⟨_, exec_decryptOf_legal hlegal, Op.finished_run _ rfl, ?_, ?_, ?_⟩
    · rintro k rfl rfl
      obtain ⟨hle16, hle⟩ := stripCount_readBytes_le _ _
      exact ⟨hle16, hle, hlen⟩
    · rintro k rfl rfl
      obtain ⟨hle16, hle⟩ := stripCount_readBytes_le _ _
      exact ⟨hle16, hle, hlen⟩
    · rintro (rfl | rfl | rfl) <;> exact hlen

/-! ### Reading a string of OBUF in parts -/

theorem Memory.readBytes_add (off a b : Nat) (m : Memory) :
    Memory.readBytes off (a + b) m = Memory.readBytes off a m ++ Memory.readBytes (off + a) b m := by
  simp [Memory.readBytes, List.range_add, Nat.add_assoc]

theorem Memory.readBytes_take {off a n : Nat} (h : a ≤ n) (m : Memory) :
    (Memory.readBytes off n m).take a = Memory.readBytes off a m := by
  obtain ⟨b, rfl⟩ := Nat.exists_eq_add_of_le h
  rw [Memory.readBytes_add, List.take_left' (Memory.length_readBytes ..)]

/-- A unit's bytes, then the rest (R171). -/
theorem Memory.readBytes_unit (off n : Nat) (m : Memory) : Memory.readBytes off n m =
    Memory.readBytes off (min 16 n) m ++ Memory.readBytes (off + 16) (n - 16) m := by
  rcases Nat.le_total 16 n with h | h
  · rw [Nat.min_eq_left h, ← Memory.readBytes_add, Nat.add_sub_cancel' h]
  · have hnil : Memory.readBytes (off + 16) 0 m = [] := rfl
    rw [Nat.min_eq_right h, Nat.sub_eq_zero_of_le h, hnil, List.append_nil]

theorem Memory.readBytes_congr {off n : Nat} {m m' : Memory}
    (h : ∀ a < off + n, Memory.read a m = Memory.read a m') :
    Memory.readBytes off n m = Memory.readBytes off n m' :=
  List.map_congr_left fun k hk => h _ (by have := List.mem_range.1 hk; omega)

/-! ### One unit -/

/-- The bytes of the message the units cover (43_modes.md section 6). -/
def Op.messageBytes (o : Op) (s : State) : List Byte :=
  (List.range (o.total s.stage.lenIn.toNat)).map (o.msg s)

/-- Unit `i` of the message (R171). -/
def Op.unitBytes (o : Op) (s : State) (i : Nat) : List Byte := ((o.messageBytes s).drop (16 * i)).take 16

@[simp] theorem Op.length_messageBytes (o : Op) (s : State) :
    (o.messageBytes s).length = o.total s.stage.lenIn.toNat := by simp [Op.messageBytes]

theorem Op.length_unitBytes (o : Op) (s : State) (i : Nat) :
    (o.unitBytes s i).length = o.ulen s.stage.lenIn.toNat i := by
  rw [Op.unitBytes, List.length_take, List.length_drop, Op.length_messageBytes, Op.ulen]

/-- IB holds the unit's bytes (R192). -/
theorem Op.inputUnit_eq_ofList (o : Op) (s : State) (i : Nat) :
    o.inputUnit s i = Block.ofList (o.unitBytes s i) := by
  refine Block.ext_get fun k hk => ?_
  rw [Op.get_inputUnit _ _ _ hk, Block.get_ofList _ hk, Op.unitBytes, List.getD_eq_getElem?_getD,
    List.getElem?_take_of_lt hk, List.getElem?_drop, Op.messageBytes, List.getElem?_map]
  split
  · next h => rw [List.getElem?_range h]; rfl
  · next h => rw [List.getElem?_eq_none (by simpa using h)]; rfl

/-- The message is the same where the operands are (R36). -/
theorem Op.messageBytes_of_kept {s t : State} (h : KeptByCipher s t) (o : Op) :
    o.messageBytes t = o.messageBytes s := by
  have hmsg : o.msg t = o.msg s := by
    funext k
    rw [Op.msg, Op.msg, h.stage, h.ibuf]
  rw [Op.messageBytes, Op.messageBytes, h.stage, hmsg]

/-- The cipher an operation runs on its units (R159). -/
def Op.unitCipher (o : Op) (k : Nat → Block) (b : Block) : Block :=
  if o.inverse then invCipher k b else cipher k b

/-- The cipher output Y of the unit `u`, with `fb` in FB (R192, R193). -/
def Op.unitCipherOutput (o : Op) (k : Nat → Block) (fb : Block) (u : List Byte) : Block :=
  o.unitCipher k (o.cipherInput (Block.ofList u) fb)

/-- OB of the unit `u`, with `fb` in FB (R193). -/
def Op.unitOutput (o : Op) (k : Nat → Block) (fb : Block) (u : List Byte) : Block :=
  o.outputUnit (o.unitCipherOutput k fb u) (Block.ofList u) fb u.length

/-- The bytes STORE writes for the unit `u` (R193). -/
def Op.unitStored (o : Op) (k : Nat → Block) (fb : Block) (u : List Byte) : List Byte :=
  (o.unitOutput k fb u).toList.take u.length

/-- FB after the unit `u` (R193). -/
def Op.unitNext (o : Op) (k : Nat → Block) (fb : Block) (u : List Byte) : Block :=
  o.nextFeedback (o.unitCipherOutput k fb u) (Block.ofList u) fb (o.unitOutput k fb u)

/-- The datapath at the end of a unit's walk (R158): S is the cipher output. -/
theorem Op.walk_dp (o : Op) (s : State) : (microStep^[56] (o.loadPhase s)).dp = { (o.loadPhase s).dp with
    s := o.unitCipher (roundKey s.rk) (o.loadPhase s).dp.s } := by
  have hs := microStep_iter_block (load_start o s) le_rfl
  rw [List.take_of_length_le (length_walkOf _).le, foldl_walkOf] at hs
  have hdp := congrArg State.dp (keptByRoundOp_microStep_iter 56 (o.loadPhase s)).rest
  rw [hdp, hs]
  rfl

/-- A whole unit: SEQ.unit, FB and OBUF after it (R192, R193). -/
theorem Op.unitStep_result (o : Op) (s : State) :
    (o.unitStep s).seq.unit = s.seq.unit + 1
    ∧ (o.unitStep s).dp.fb
      = o.unitNext (roundKey s.rk) s.dp.fb (o.unitBytes s s.seq.unit.toNat)
    ∧ (o.unitStep s).obuf = Memory.writeBytes (o.obase + 16 * s.seq.unit.toNat)
        (o.unitStored (roundKey s.rk) s.dp.fb (o.unitBytes s s.seq.unit.toNat)) s.obuf := by
  have hdp := o.walk_dp s
  have hwalk := keptByRoundOp_microStep_iter 56 (o.loadPhase s)
  obtain ⟨-, hobuf, -⟩ := hwalk.frame
  have hunit : (microStep^[56] (o.loadPhase s)).seq.unit = s.seq.unit := hwalk.unit
  have hib : (o.loadPhase s).dp.ib = Block.ofList (o.unitBytes s s.seq.unit.toNat) :=
    o.inputUnit_eq_ofList s _
  have hulen : (o.loadPhase s).dp.ulen.toNat = (o.unitBytes s s.seq.unit.toNat).length :=
    (Op.toNat_ulen _ _ _).trans (o.length_unitBytes s _).symm
  have hx : (o.loadPhase s).dp.s = o.cipherInput (o.loadPhase s).dp.ib s.dp.fb := rfl
  have hfb : (o.loadPhase s).dp.fb = s.dp.fb := rfl
  rw [Op.unitStep]
  generalize microStep^[56] (o.loadPhase s) = m at *
  refine ⟨congrArg (· + 1) hunit, ?_, ?_⟩ <;>
    simp only [Op.storePhase, hdp, hunit, hobuf, Op.loadPhase_obuf, hulen, hx, hib, hfb] <;> rfl

/-! ### All units -/

/-- What an operation makes of the units `us`, from `fb` in FB. -/
def Op.output (o : Op) (k : Nat → Block) (fb : Block) (us : List (List Byte)) : List Byte :=
  unitMessage (o.unitStored k) (o.unitNext k) fb us

/-- The remaining `j` units leave OBUF before them and put their bytes where they belong (R178, R193). -/
theorem Op.unitStep_iter_obuf (o : Op) (j : Nat) {s : State} (hw : Memory.wf s.obuf = true)
    (hj : s.seq.unit.toNat + j = o.units s.stage.lenIn.toNat)
    (hmax : o.units s.stage.lenIn.toNat < 2 ^ 32) :
    (∀ a < o.obase + 16 * s.seq.unit.toNat,
      Memory.read a (o.unitStep^[j] s).obuf = Memory.read a s.obuf)
    ∧ Memory.readBytes (o.obase + 16 * s.seq.unit.toNat)
        (o.total s.stage.lenIn.toNat - 16 * s.seq.unit.toNat) (o.unitStep^[j] s).obuf
      = o.output (roundKey s.rk) s.dp.fb (unitsOf ((o.messageBytes s).drop (16 * s.seq.unit.toNat))) := by
  induction j generalizing s with
  | zero =>
    have hend : o.total s.stage.lenIn.toNat ≤ 16 * s.seq.unit.toNat := by
      rw [Op.units, ceil16] at hj
      omega
    rw [List.drop_of_length_le (by rw [Op.length_messageBytes]; exact hend), Nat.sub_eq_zero_of_le hend]
    exact ⟨fun _ _ => rfl, rfl⟩
  | succ j ih =>
    obtain ⟨hunit, hfb, hobuf⟩ := o.unitStep_result s
    have hkept := keptFrom_unitStep o s
    rw [Function.iterate_succ_apply]
    generalize o.unitStep s = t at *
    have hnext : t.seq.unit.toNat = s.seq.unit.toNat + 1 := by
      rw [hunit]
      bv_omega
    have hoff : o.obase + 16 * (s.seq.unit.toNat + 1) = o.obase + 16 * s.seq.unit.toNat + 16 := by omega
    obtain ⟨hbefore, hrest⟩ := ih (hkept.wf hw) (by rw [hkept.kept.stage]; omega)
      (by rw [hkept.kept.stage]; exact hmax)
    rw [hnext] at hbefore
    rw [hnext, hkept.kept.stage, hkept.kept.rk, Op.messageBytes_of_kept hkept.kept, hoff, hfb] at hrest
    have hlen : (o.unitStored (roundKey s.rk) s.dp.fb (o.unitBytes s s.seq.unit.toNat)).length
        = o.ulen s.stage.lenIn.toNat s.seq.unit.toNat := by
      rw [Op.unitStored, List.length_take, Block.length_toList, Op.length_unitBytes, Op.ulen]
      omega
    refine ⟨fun a ha => ?_, ?_⟩
    · rw [hbefore a (by omega), hobuf, Memory.read_writeBytes _ _ _ hw, if_neg (by omega)]
    · have hmore : (o.messageBytes s).drop (16 * s.seq.unit.toNat) ≠ [] := by
        rw [← List.length_pos_iff, List.length_drop, Op.length_messageBytes]
        rw [Op.units, ceil16] at hj
        omega
      have hstored : Memory.readBytes (o.obase + 16 * s.seq.unit.toNat)
          (o.ulen s.stage.lenIn.toNat s.seq.unit.toNat) (o.unitStep^[j] t).obuf
          = o.unitStored (roundKey s.rk) s.dp.fb (o.unitBytes s s.seq.unit.toNat) := by
        rw [Memory.readBytes_congr (m' := t.obuf) fun a ha => hbefore a (by rw [Op.ulen] at ha; omega),
          hobuf, ← hlen, Memory.readBytes_writeBytes _ _ hw]
      rw [Memory.readBytes_unit, unitsOf_cons hmore, List.drop_drop, Op.output, unitMessage]
      exact congrArg₂ (· ++ ·) hstored hrest

/-- OBUF after a command: what HEAD left before `obase`, then what the operation makes of its units. -/
theorem Op.run_obuf {o : Op} {s : State} (h : o.check s = none) (hw : Memory.wf s.obuf = true) :
    (∀ a < o.obase, Memory.read a (o.run s).obuf = Memory.read a (o.headPhase s).obuf)
    ∧ Memory.readBytes o.obase (o.total s.stage.lenIn.toNat) (o.run s).obuf
      = o.output (roundKey s.rk) (o.headPhase s).dp.fb (unitsOf (o.messageBytes s)) := by
  obtain ⟨-, hunits, -, hcap⟩ := units_bounds h
  exact o.unitStep_iter_obuf (o.units s.stage.lenIn.toNat) (s := o.headPhase s)
    ((keptFrom_headPhase o s 0).wf hw) (Nat.zero_add _) (by rw [Op.headPhase_stage]; omega)

end Sys2Proof.Machine
end

section
/-! SUPPORT. What the sequencer makes of a message is the function of its mode (43_modes.md R180 to R191),
so ENCRYPT and DECRYPT leave EncryptBytes and DecryptBytes in OBUF. -/

namespace Sys2Proof.Machine

/-! ### Unit by unit, the mode's own function -/

theorem unitMessage_congr {σ : Type} {out out' : σ → List Byte → List Byte}
    {next next' : σ → List Byte → σ} {us : List (List Byte)}
    (h : ∀ u ∈ us, ∀ c, out c u = out' c u ∧ next c u = next' c u) (c : σ) :
    unitMessage out next c us = unitMessage out' next' c us := by
  induction us generalizing c with
  | nil => rfl
  | cons u us ih =>
    obtain ⟨hout, hnext⟩ := h u List.mem_cons_self c
    rw [unitMessage, unitMessage, hout, hnext, ih fun v hv => h v (List.mem_cons_of_mem _ hv)]

/-- OB of a stream mode is the unit against the keystream, zero-filled (R26, R193). -/
theorem keep_xor_ofList {u : List Byte} (hu : u.length ≤ 16) (y : Block) :
    ((Block.ofList u).xor y).keep u.length = Block.ofList (xorUnit u y) := by
  refine Block.ext_get fun n hn => ?_
  rw [Block.get_keep _ _ hn, Block.get_xor, Block.get_ofList _ hn, Block.get_ofList _ hn]
  by_cases h : n < u.length
  · rw [if_pos h, List.getD_eq_getElem _ _ h, List.getD_eq_getElem _ _ (by rwa [length_xorUnit hu])]
    simp only [xorUnit, List.getElem_zipWith, Block.getElem_toList]
  · rw [if_neg h, List.getD_eq_default _ _ (by rw [length_xorUnit hu]; omega)]

theorem take_toList_ofList {l : List Byte} (hl : l.length ≤ 16) :
    (Block.ofList l).toList.take l.length = l := by
  refine List.ext_getElem (List.length_take_of_le hl) fun n hn hn' => ?_
  rw [List.getElem_take, Block.getElem_toList, Block.get_ofList _ (by omega), List.getD_eq_getElem]

/-- The bytes a stream mode stores (R193). -/
theorem take_keep_xor {u : List Byte} (hu : u.length ≤ 16) (y : Block) :
    (((Block.ofList u).xor y).keep u.length).toList.take u.length = xorUnit u y := by
  have h := take_toList_ofList ((length_xorUnit hu y).trans_le hu)
  rwa [length_xorUnit hu, ← keep_xor_ofList hu] at h

/-- All sixteen bytes of a block, for a whole unit. -/
theorem take_toList_whole {u : List Byte} (hu : u.length = 16) (b : Block) :
    b.toList.take u.length = b.toList := List.take_of_length_le hu.ge

/-- The message function of an operation's mode and direction (R180 to R189), `c` being the IV. -/
def Op.modeMessage (o : Op) (k : Nat → Block) (c : Block) (us : List (List Byte)) : List Byte :=
  match o.mode with
  | .ecb => ecbMessage (o.unitCipher k) us
  | .cbc => if o.enc then cbcEncrypt (cipher k) c us else cbcDecrypt (invCipher k) c us
  | .cfb => if o.enc then cfbEncrypt (cipher k) c us else cfbDecrypt (cipher k) c us
  | .ofb => ofbMessage (cipher k) c us
  | .ctr => ctrMessage (cipher k) c 0 us

/-- The sequencer's units, with FB between them, are the mode's function: the unit bytes by R192 and R193
are those of the mode's rule, and FB is what the rule hands on. -/
theorem Op.output_eq_modeMessage (o : Op) (k : Nat → Block) (c : Block) {us : List (List Byte)}
    (hus : ∀ u ∈ us, u.length ≤ 16) (hwhole : o.mode.padded = true → ∀ u ∈ us, u.length = 16) :
    o.output k c us = o.modeMessage k c us := by
  obtain ⟨enc, m⟩ := o
  cases m with
  | ecb =>
    simp only [Op.modeMessage]
    rw [ecbMessage_eq _ c]
    exact unitMessage_congr (fun u hu fb => ⟨take_toList_whole (hwhole rfl u hu) _, rfl⟩) c
  | cbc =>
    cases enc with
    | true =>
      refine Eq.trans ?_ (cbcEncrypt_eq (cipher k) c us).symm
      exact unitMessage_congr (fun u hu fb => ⟨take_toList_whole (hwhole rfl u hu) _, rfl⟩) c
    | false =>
      refine Eq.trans ?_ (cbcDecrypt_eq (invCipher k) c us).symm
      exact unitMessage_congr (fun u hu fb => ⟨take_toList_whole (hwhole rfl u hu) _, rfl⟩) c
  | cfb =>
    cases enc with
    | true =>
      refine Eq.trans ?_ (cfbEncrypt_eq (cipher k) c us).symm
      exact unitMessage_congr
        (fun u hu fb => ⟨take_keep_xor (hus u hu) _, keep_xor_ofList (hus u hu) _⟩) c
    | false =>
      refine Eq.trans ?_ (cfbDecrypt_eq (cipher k) c us).symm
      exact unitMessage_congr (fun u hu fb => ⟨take_keep_xor (hus u hu) _, rfl⟩) c
  | ofb =>
    refine Eq.trans ?_ (ofbMessage_eq (cipher k) c us).symm
    cases enc <;> exact unitMessage_congr (fun u hu fb => ⟨take_keep_xor (hus u hu) _, rfl⟩) c
  | ctr =>
    refine Eq.trans ?_ (ctrMessage_eq (cipher k) c 0 us).symm
    rw [ctrBlock_zero]
    cases enc <;> exact unitMessage_congr (fun u hu fb => ⟨take_keep_xor (hus u hu) _, rfl⟩) c

theorem length_of_mem_unitsOf {m u : List Byte} (hu : u ∈ unitsOf m) :
    u.length ≤ 16 ∧ (m.length % 16 = 0 → u.length = 16) := by
  obtain ⟨i, hi, rfl⟩ := List.mem_map.1 hu
  have hi := List.mem_range.1 hi
  rw [ceil16] at hi
  rw [List.length_take, List.length_drop]
  omega

theorem encryptWith_eq (k : Nat → Block) (m : Mode) (iv : Block) (msg : List Byte) :
    encryptWith k m iv msg = (if m = .ecb then [] else iv.toList)
      ++ (Op.mk true m).modeMessage k iv (unitsOf (if m.padded then pad msg else msg)) := by
  cases m <;> rfl

theorem decryptWith_eq (k : Nat → Block) (m : Mode) (f : List Byte) :
    decryptWith k m f = (if m.padded then unpad else id)
      ((Op.mk false m).modeMessage k (Block.ofList f) (unitsOf (f.drop (Op.mk false m).ibase))) := by
  cases m <;> rfl

/-! ### The message an operation takes -/

theorem State.length_message (s : State) : s.message.length = s.stage.lenIn.toNat :=
  Memory.length_readBytes ..

/-- ENCRYPT covers `IBUF[0..LEN_IN)`, padded in the padded modes (R174, R178). -/
theorem messageBytes_encrypt (m : Mode) (s : State) :
    (Op.mk true m).messageBytes s = if m.padded then pad s.message else s.message := by
  have hmsg : ∀ k < s.stage.lenIn.toNat, (Op.mk true m).msg s k = Memory.read (0 + k) s.ibuf :=
    fun k hk => by rw [Op.msg, if_pos rfl, if_pos hk, Nat.zero_add]
  have hpad : ∀ k, (Op.mk true m).msg s (s.stage.lenIn.toNat + k)
      = BitVec.ofNat 8 (padCount s.stage.lenIn.toNat) := fun k => by
    rw [Op.msg, if_pos rfl, if_neg (by omega)]
  have hbytes : (List.range s.stage.lenIn.toNat).map ((Op.mk true m).msg s) = s.message :=
    List.map_congr_left fun k hk => hmsg k (List.mem_range.1 hk)
  cases hm : m.padded with
  | true =>
    simp only [Op.messageBytes, Op.total, if_true, hm, List.range_add, List.map_append, List.map_map,
      Function.comp_def, hpad, hbytes, pad, State.length_message, List.map_const', List.length_range]
  | false =>
    simp only [Op.messageBytes, Op.total, if_true, hm, Bool.false_eq_true, if_false, hbytes]

/-- DECRYPT covers the frame after the IV in front (R178). -/
theorem messageBytes_decrypt (m : Mode) (s : State) :
    (Op.mk false m).messageBytes s = s.message.drop (Op.mk false m).ibase := by
  refine List.ext_getElem ?_ fun k hk hk' => ?_
  · rw [Op.length_messageBytes, List.length_drop, State.length_message]
    rfl
  · simp only [Op.messageBytes, List.getElem_map, List.getElem_range, List.getElem_drop, State.message,
      Memory.getElem_readBytes, Nat.zero_add]
    rfl

/-- The IV in force for DECRYPT is the frame's first block (R179). -/
theorem iv_decrypt {m : Mode} {s : State} (h : 16 ≤ s.stage.lenIn.toNat) :
    (Op.mk false m).iv s = Block.ofList s.message := by
  refine Block.ext_get fun n hn => ?_
  have hlen : n < s.message.length := by
    rw [State.length_message]
    omega
  rw [Block.get_ofList _ hn, List.getD_eq_getElem _ _ hlen]
  simp only [State.message, Memory.getElem_readBytes, Nat.zero_add, Op.iv, Bool.false_eq_true, if_false,
    Block.get_tabulate _ hn]

/-! ### ENCRYPT and DECRYPT -/

/-- ECB takes nothing from FB (R192, R193). -/
theorem Op.modeMessage_headPhase (o : Op) (s : State) (k : Nat → Block) (us : List (List Byte)) :
    o.modeMessage k (o.headPhase s).dp.fb us = o.modeMessage k (o.iv s) us := by
  by_cases hm : o.mode = .ecb
  · simp only [Op.modeMessage, hm]
  · rw [Op.headPhase_dp, if_neg hm]

/-- The units' bytes in OBUF after a command are its mode's function of the message and the IV in
force. -/
theorem Op.readBytes_run {o : Op} {s : State} (h : o.check s = none) (hw : Memory.wf s.obuf = true)
    (haligned : o.mode.padded = true → (o.messageBytes s).length % 16 = 0) :
    Memory.readBytes o.obase (o.total s.stage.lenIn.toNat) (o.run s).obuf
      = o.modeMessage (roundKey s.rk) (o.iv s) (unitsOf (o.messageBytes s)) := by
  rw [(Op.run_obuf h hw).2, Op.output_eq_modeMessage _ _ _ (fun u hu => (length_of_mem_unitsOf hu).1)
    fun hm u hu => (length_of_mem_unitsOf hu).2 (haligned hm), Op.modeMessage_headPhase]

/-- The IV ENCRYPT leaves in front of the units in OBUF (R178, R194). -/
theorem readBytes_run_iv {m : Mode} {s : State} (h : (Op.mk true m).check s = none)
    (hw : Memory.wf s.obuf = true) :
    Memory.readBytes 0 (Op.mk true m).obase ((Op.mk true m).run s).obuf
      = if m = .ecb then [] else s.cfg.iv.toList := by
  have hbefore := (Op.run_obuf h hw).1
  by_cases hm : m = .ecb
  · rw [if_pos hm, hm]
    rfl
  · have hbase : (Op.mk true m).obase = 16 := by rw [Op.obase, if_pos rfl, if_neg hm]
    rw [if_neg hm, hbase, Block.toList_eq_map_get]
    refine List.map_congr_left fun k hk => ?_
    have hk := List.mem_range.1 hk
    rw [Nat.zero_add, hbefore k (hbase ▸ hk), Op.read_headPhase_obuf hw rfl hm, if_pos hk]

/-- ENCRYPT leaves the IV that HEAD stored, then the units, each by its mode's rule. -/
theorem result_run_encrypt {m : Mode} {s : State} (h : (Op.mk true m).check s = none)
    (hw : Memory.wf s.obuf = true) :
    ((Op.mk true m).run s).result = encryptWith (roundKey s.rk) m s.cfg.iv s.message := by
  have hbytes := messageBytes_encrypt m s
  have hunits := Op.readBytes_run h hw fun hm => by
    rw [hbytes, if_pos hm]
    exact length_pad_mod _
  rw [State.result, Op.toNat_run_lenOut h, if_pos rfl, Memory.readBytes_add, Nat.zero_add, hunits,
    readBytes_run_iv h hw, hbytes, encryptWith_eq]
  rfl

/-- DECRYPT leaves the units, each by its mode's rule, the IV being the frame's first block; LEN_OUT
leaves out the padding. -/
theorem result_run_decrypt {m : Mode} {s : State} (h : (Op.mk false m).check s = none)
    (hframe : legalFrame m s.stage.lenIn.toNat = true) (hw : Memory.wf s.obuf = true) :
    ((Op.mk false m).run s).result = decryptWith (roundKey s.rk) m s.message := by
  obtain ⟨hlong, -, halign⟩ := legalFrame_bounds hframe
  have hunits := Op.readBytes_run h hw fun hm => by
    rw [Op.length_messageBytes]
    exact (halign hm).2
  rw [iv_decrypt hlong, messageBytes_decrypt] at hunits
  rw [State.result, Op.toNat_run_lenOut h, decryptWith_eq, ← hunits]
  cases hm : m.padded with
  | true => simp [Op.inverse, hm, unpad, Memory.readBytes_take, Op.obase]
  | false => simp [Op.inverse, hm, Op.obase]

/-- Settles O39: every legal ENCRYPT leaves the frame of its mode, here for the round keys of CFG.key. -/
theorem encryptResult : Obligations.EncryptResult := by
  intro m s hlegal _ hrk hw
  refine ⟨_, exec_encryptOf_legal hlegal, Op.finished_run _ rfl, ?_⟩
  rw [result_run_encrypt (s := s.prologue 2) (Op.check_of_legal (s := s) hlegal) hw, encryptBytes, ← hrk]
  rfl

/-- Settles O40: every legal DECRYPT leaves the message of its mode, here for the round keys of
CFG.key. -/
theorem decryptResult : Obligations.DecryptResult := by
  intro m s hlegal _ hrk hw
  refine ⟨_, exec_decryptOf_legal hlegal, Op.finished_run _ rfl, ?_⟩
  rw [result_run_decrypt (s := s.prologue 3) (Op.check_of_legal (s := s) hlegal) hlegal.frame hw,
    decryptBytes, ← hrk]
  rfl

end Sys2Proof.Machine
end

section
/-! SUPPORT. A CMD write from the bus to the end of its command: the step that takes it, its small steps, and
the commands that raise in CHECK (44_commands.md R210 to R220; 60_exceptions.md R303, R306). -/

namespace Sys2Proof.Machine

/-! ### The step of a CMD write -/

theorem busWrite_cmd {s : State} (d : BusWord) (hrst : s.rst = false) (hrest : s.run ≠ .busy) :
    s.busWrite cmdAddr d = s.acceptCommand d := by
  rw [State.busWrite, hrst, State.not_busy_iff.2 hrest, locate_eq_cmd.2 rfl]
  rfl

/-- The step of a CMD write at rest takes it off and accepts it (R210). -/
theorem step_command {s : State} {d : BusWord} {rest : List Input}
    (hin : s.inputs = .write cmdAddr d :: rest) (hrst : s.rst = false) (hrest : s.run ≠ .busy) :
    step s = State.acceptCommand d { s with inputs := rest } := by
  rw [step, hin]
  exact busWrite_cmd (s := { s with inputs := rest }) d hrst hrest

/-- Where the host waits, the whole command is one step (R62, R220). -/
theorem acceptCommand_of_waits {s : State} (d : BusWord) (h : hostWaits s.inputs = true) :
    s.acceptCommand d = s.runCommand d := if_pos h

/-- Where it does not, the prologue is the step (R210). -/
theorem acceptCommand_of_not_waits {s : State} (d : BusWord) (h : hostWaits s.inputs = false) :
    s.acceptCommand d = .next (State.prologue d { s with inputs := s.inputs.tail }) := by
  rw [State.acceptCommand, h]
  rfl

theorem runCommand_of_ok {s : State} {d : BusWord} {i : Instr} (h : decodeCmd s.cfg.mode d = .ok i) :
    s.runCommand d = exec i s := by
  rw [State.runCommand, h]

/-- Settles O4: the step accepts the word, and the host's next input says how far it goes. -/
theorem stepRunsDecodedCommand : Obligations.StepRunsDecodedCommand := by
  intro s d rest hin hrst hrest
  rw [step_command hin hrst hrest]
  exact ⟨fun i hwaits hd => (acceptCommand_of_waits d hwaits).trans (runCommand_of_ok hd),
    fun hwaits => acceptCommand_of_not_waits d hwaits⟩

/-- A word with a reserved OP or a bit above OP does not decode (R74). -/
theorem decodeCmd_reserved (m : Mode) {d : BusWord}
    (h : (d.extractLsb' 0 3).toNat ∈ [0, 4, 5, 6, 7] ∨ d.extractLsb' 3 29 ≠ 0) :
    ∃ r, decodeCmd m d = .error r := by
  cases hd : decodeCmd m d with
  | error r => exact ⟨r, rfl⟩
  | ok i =>
    rcases decodeCmd_ok_iff.1 hd with ⟨rfl, -⟩ | ⟨rfl, -⟩ | ⟨rfl, -⟩ <;>
      exact absurd h (by decide)

/-- A word that does not decode raises BADCMD (R211). -/
theorem runCommand_of_error {s : State} {d : BusWord} {r : DecodeReject}
    (h : decodeCmd s.cfg.mode d = .error r) : s.runCommand d = .next (s.refusedWith .badcmd d) := by
  rw [State.runCommand, h]
  rfl

/-- Settles O6: a reserved word does not decode, whatever CFG.mode is; the prologue and BADCMD remain. -/
theorem badCommandWordRaises : Obligations.BadCommandWordRaises := by
  refine ⟨fun s d rest hin hrst hrest hwaits hreserved => ?_, rfl⟩
  obtain ⟨r, hr⟩ := decodeCmd_reserved s.cfg.mode hreserved
  rw [step_command hin hrst hrest, acceptCommand_of_waits d hwaits]
  exact runCommand_of_error hr

/-- Settles O52: every command comes to rest within its bound, where more steps change nothing. -/
theorem smallStepsRefineCommands : Obligations.SmallStepsRefineCommands := by
  intro s d k hk
  obtain ⟨j, hj, t, hrun, hidle, ht⟩ := runCommand_small d s
  rw [ht]
  exact seqSteps_more hrun hidle (hj.trans hk)

/-! ### Commands that raise in CHECK -/

/-- A cipher command whose checks fail leaves the state before it, but for what error entry writes (R306,
R307). -/
theorem Op.exec_of_check {o : Op} {s : State} {e : ErrorCode} (h : o.check s = some e) :
    exec o.instr s = .next (s.refusedWith e (if o.enc then 2 else 3)) := by
  rw [exec_instr, Op.command, Op.check_prologue, h]
  rfl

theorem exec_encryptOf_of_check (m : Mode) {s : State} {e : ErrorCode} (h : s.encryptCheck = some e) :
    exec (Instr.encryptOf m) s = .next (s.refusedWith e 2) :=
  Op.exec_of_check (o := ⟨true, m⟩) h

theorem exec_decryptOf_of_check {m : Mode} {s : State} {e : ErrorCode} (h : s.decryptCheck m = some e) :
    exec (Instr.decryptOf m) s = .next (s.refusedWith e 3) :=
  Op.exec_of_check (o := ⟨false, m⟩) h

/-- INIT whose checks fail: the same, with the previous instance ended (R212). -/
theorem exec_init_of_check {s : State} {e : ErrorCode} (h : s.initCheck = some e) :
    exec .init s
      = .next (State.refusedWith e 1 { s with cfg := { s.cfg with valid := false } }) := by
  have hopen : s.initOpen.initCheck = some e := h
  rw [exec_init, initRun, hopen]
  rfl

/-- Settles O34: each condition is the branch of the check that is reached first. -/
theorem initErrors : Obligations.InitErrors := by
  rintro s u rfl
  refine ⟨fun hlen => exec_init_of_check ?_, fun hlen hmode => exec_init_of_check ?_,
    fun hlen hmode hiv h0 h16 => exec_init_of_check ?_⟩
  · rw [State.initCheck, if_pos hlen]
  · rw [State.initCheck, if_neg (not_not.2 hlen), if_pos hmode]
  · rw [State.initCheck, if_neg (not_not.2 hlen), if_neg hmode.not_gt, if_pos ⟨hiv, h16, h0⟩]

/-- The least BUFCAP (R10). -/
theorem le_bufcap_bytes (c : BufCap) : 64 ≤ c.bytes := by
  rw [bufcap_mod]
  omega

/-- Settles O35: CAPACITY and SHORT exclude each other, BUFCAP being 64 or more. -/
theorem encryptErrors : Obligations.EncryptErrors := by
  intro m s
  have hcap := le_bufcap_bytes s.bufcap
  have hvalid : s.cfg.valid = true → ¬ s.cfg.valid = false := by simp
  refine ⟨fun hv => exec_encryptOf_of_check m ?_, fun hv hlong => exec_encryptOf_of_check m ?_,
    fun hv hshort => exec_encryptOf_of_check m ?_⟩
  · rw [State.encryptCheck, if_pos hv]
  · rw [State.encryptCheck, if_neg (hvalid hv), if_pos hlong]
  · rw [State.encryptCheck, if_neg (hvalid hv), if_neg (by omega), if_pos hshort]

/-- The checks of DECRYPT with an instance, on a frame of `n ≥ 1` bytes that fits (R216). -/
theorem decryptCheck_of_fits {m : Mode} {s : State} (hv : s.cfg.valid = true)
    (hfits : s.stage.lenIn.toNat ≤ s.bufcap.bytes) (hpos : s.stage.lenIn.toNat ≠ 0) :
    s.decryptCheck m =
      if m ≠ .ecb ∧ s.stage.lenIn.toNat < 17 then some .noiv
      else if m.padded = true ∧ (s.stage.lenIn.toNat - (Op.mk false m).ibase = 0
        ∨ (s.stage.lenIn.toNat - (Op.mk false m).ibase) % 16 ≠ 0) then some .align
      else none := by
  rw [State.decryptCheck, if_neg (by simp [hv]), if_neg hfits.not_gt, if_neg hpos]

/-- Settles O36: each condition is the branch of the check that is reached first. -/
theorem decryptErrors : Obligations.DecryptErrors := by
  rintro m s n rfl
  have hcap := le_bufcap_bytes s.bufcap
  have hvalid : s.cfg.valid = true → ¬ s.cfg.valid = false := by simp
  refine ⟨fun hv => exec_decryptOf_of_check ?_, fun hv hlong => exec_decryptOf_of_check ?_,
    fun hv hempty => exec_decryptOf_of_check ?_,
    fun hv hm hpos hshort => exec_decryptOf_of_check ?_,
    fun hv hfits hm halign => exec_decryptOf_of_check ?_,
    fun hv hfits hm hlong halign => exec_decryptOf_of_check ?_⟩
  · rw [State.decryptCheck, if_pos hv]
  · rw [State.decryptCheck, if_neg (hvalid hv), if_pos hlong]
  · rw [State.decryptCheck, if_neg (hvalid hv), if_neg (by omega), if_pos hempty]
  · rw [decryptCheck_of_fits hv (by omega) (by omega), if_pos ⟨hm, hshort⟩]
  · subst hm
    rw [decryptCheck_of_fits hv hfits (by omega), if_neg (by simp), if_pos ⟨rfl, .inr halign⟩]
  · subst hm
    have hbase : (Op.mk false .cbc).ibase = 16 := rfl
    rw [decryptCheck_of_fits hv hfits (by omega), if_neg (by omega), hbase,
      if_pos ⟨rfl, .inr (by omega)⟩]

end Sys2Proof.Machine
end

section
/-! SUPPORT. INIT that does not raise: 52 KEXP steps from the latched instance, which end in one state
(44_commands.md R212, R218; 40_key_schedule.md R105, R106). -/

namespace Sys2Proof.Machine

/-! ### What INIT latches -/

@[simp] theorem State.initLatch_dp (s : State) : s.initLatch.dp = s.dp := by
  unfold State.initLatch; cases s.drawsIv <;> simp

theorem State.initLatch_iv_ecb {s : State} (hm : s.stage.mode = 0) :
    s.initLatch.cfg.iv = Block.zero := if_pos hm

theorem State.initLatch_iv_supplied {s : State} (hm : s.stage.mode ≠ 0) (h16 : s.stage.ivlen = 16) :
    s.initLatch.cfg.iv = s.stage.ivIn := (if_neg hm).trans (if_pos h16)

theorem State.initLatch_iv_drawn {s : State} (hm : s.stage.mode ≠ 0) (h0 : s.stage.ivlen = 0) :
    s.initLatch.cfg.iv = s.drawValue := (if_neg hm).trans (if_neg (by rw [h0]; decide))

theorem State.drawsIv_iff {s : State} :
    s.drawsIv = true ↔ s.stage.mode ≠ 0 ∧ s.stage.ivlen = 0 := by
  simp [State.drawsIv]

/-- In ECB, or with an IV supplied, nothing is drawn (R212). -/
theorem State.not_drawsIv {s : State} (h : s.stage.mode = 0 ∨ s.stage.ivlen = 16) :
    s.drawsIv = false := by
  rcases h with h | h <;> simp [State.drawsIv, h]

/-- Where nothing is drawn, INIT leaves the entropy port (R44). -/
theorem State.initLatch_port_kept {s : State} (h : s.drawsIv = false) :
    s.initLatch.rnd = s.rnd ∧ s.initLatch.free = s.free := by
  simp [State.initLatch, h]

/-- Where an IV is drawn, INIT takes the one value that waits at the entropy port (R44). -/
theorem State.initLatch_port_drawn {s : State} {b : Block} {l : List Block} (h : s.drawsIv = true)
    (hrnd : s.rnd = b :: l) :
    s.drawValue = b ∧ s.initLatch.rnd = l ∧ s.initLatch.free = s.free := by
  simp [State.initLatch, h, State.drawValue, State.drawn, hrnd]

/-- The code of a latched mode is the one staged (R76). -/
theorem Mode.code_ofCode : ∀ c : BitVec 3, c.toNat ≤ 4 → ((Mode.ofCode c).getD .ecb).code = c := by
  decide

/-! ### The KEXP steps -/

/-- KEXP steps before the last change RK and SEQ.unit alone (R105). -/
theorem kexpStep_iter_before (j : Nat) {s : State} (h : s.seq.unit.toNat + j ≤ 59) :
    ∃ rk, kexpStep^[j] s =
      { s with rk := rk, seq := { s.seq with unit := s.seq.unit + BitVec.ofNat 32 j } } := by
  induction j with
  | zero => exact ⟨s.rk, by simp⟩
  | succ j ih =>
    obtain ⟨rk, hj⟩ := ih (by omega)
    have hnot : s.seq.unit + BitVec.ofNat 32 j ≠ 59 := by bv_omega
    have hnext : s.seq.unit + BitVec.ofNat 32 j + 1 = s.seq.unit + BitVec.ofNat 32 (j + 1) := by
      bv_omega
    rw [Function.iterate_succ_apply', hj, kexpStep_of_ne hnot]
    exact ⟨_, by rw [hnext]⟩

/-- The 52 KEXP steps from word 8 complete INIT (R106). -/
theorem kexpStep_iter_all {s : State} (h : s.seq.unit = 8) :
    ∃ rk, kexpStep^[52] s =
      State.completeInit { s with rk := rk, seq := { s.seq with unit := 60 } } := by
  obtain ⟨rk, hbefore⟩ := kexpStep_iter_before 51 (s := s) (by rw [h]; decide)
  have hlast : s.seq.unit + BitVec.ofNat 32 51 = 59 := by rw [h]; rfl
  rw [Function.iterate_succ_apply', hbefore, kexpStep_last hlast]
  exact ⟨_, rfl⟩

/-- INIT after its checks: the latched instance with the expansion of its key (R106, R212). -/
theorem initRun_of_check {s : State} (h : s.initCheck = none) :
    initRun s = State.completeInit { s.initOpen.initLatch with
      rk := keyExpansion s.stage.keyIn
      seq := { s.initOpen.initLatch.seq with unit := 60 } } := by
  have hopen : s.initOpen.initCheck = none := h
  obtain ⟨hrun, -⟩ := kexps 52 (s := s.initOpen.initLatch) rfl rfl rfl (by simp) (by decide)
  have hok := seqSteps_keeps (fun u v hu hv => State.KeyScheduleOk.seqStep hu hv) 52
    (keyScheduleOk_initLatch s.initOpen) hrun
  obtain ⟨rk, hall⟩ := kexpStep_iter_all (s := s.initOpen.initLatch) rfl
  rw [hall] at hok
  have hrk : rk = keyExpansion s.stage.keyIn := hok.expanded rfl
  rw [initRun, hopen, ← hrk]
  exact hall

/-- The checks of a legal INIT pass (R212). -/
theorem initCheck_of_legal {s : State} (h : s.InitLegal) : s.initCheck = none := by
  obtain ⟨hkey, hmode, hiv⟩ := h
  rw [State.initCheck, if_neg (not_not.2 hkey), if_neg hmode.not_gt, if_neg]
  rintro ⟨hm, h16, h0⟩
  rcases hiv with hiv | hiv | hiv <;> contradiction

/-- INIT that does not raise keeps what R36 says. -/
theorem keptByInit_initRun {s : State} (h : s.initCheck = none) : KeptByInit s (initRun s) := by
  obtain ⟨hstage, htrcSel, hibuf, hhzd, hbufcap, hinputs, hrdata, hrst⟩ := keptHost_initRun s
  refine ⟨hstage, ?_, hhzd, htrcSel, hibuf, ?_, hbufcap, hinputs, hrdata, hrst⟩ <;>
    rw [initRun_of_check h] <;> simp

/-- Settles O33: the state INIT ends in, field by field; the IV by whether one is drawn. -/
theorem initResult : Obligations.InitResult := by
  refine ⟨rfl, fun s hlegal => ?_⟩
  have hcheck := initCheck_of_legal hlegal
  have hkept := keptByInit_initRun hcheck
  rw [initRun_of_check hcheck] at hkept
  refine ⟨_, (exec_init s).trans (congrArg _ (initRun_of_check hcheck)), ⟨rfl, by simp, rfl⟩, by simp,
    by simp, rfl, rfl, Mode.code_ofCode _ hlegal.mode, rfl,
    fun hm => ⟨State.initLatch_iv_ecb (s := s.initOpen) hm, State.not_drawsIv (.inl hm)⟩,
    fun hm h16 => ⟨State.initLatch_iv_supplied (s := s.initOpen) hm h16,
      State.not_drawsIv (.inr h16)⟩, fun hm h0 => ?_,
    fun hnone => State.initLatch_port_kept (s := s.initOpen) (State.not_drawsIv hnone), hkept⟩
  have hdraws : s.initOpen.drawsIv = true := State.drawsIv_iff.2 ⟨hm, h0⟩
  refine ⟨hdraws, fun b l hrnd => ?_⟩
  obtain ⟨hvalue, hport⟩ := State.initLatch_port_drawn (s := s.initOpen) hdraws hrnd
  exact ⟨(State.initLatch_iv_drawn (s := s.initOpen) hm h0).trans hvalue, hport⟩

end Sys2Proof.Machine
end

section
/-! SUPPORT. What a cipher command depends on (43_modes.md R197; 44_commands.md R219; 20_memory.md R59;
10_state.md R26): two runs on the same operands give the same records and the same result. -/

namespace Sys2Proof.Machine

/-! ### The operands of a cipher command -/

/-- The operands of a cipher command are the same: CFG, RK, LEN_IN, BUFCAP and the message in IBUF (R219). -/
structure SameOperands (s u : State) : Prop where
  cfg : u.cfg = s.cfg
  rk : u.rk = s.rk
  lenIn : u.stage.lenIn = s.stage.lenIn
  bufcap : u.bufcap = s.bufcap
  message : u.message = s.message

/-- What a cipher command keeps, its operands are part of (R36). -/
theorem SameOperands.of_kept {s u s' u' : State} (h : SameOperands s u) (hs : KeptByCipher s s')
    (hu : KeptByCipher u u') : SameOperands s' u' where
  cfg := by rw [hs.cfg, hu.cfg, h.cfg]
  rk := by rw [hs.rk, hu.rk, h.rk]
  lenIn := by rw [hs.stage, hu.stage, h.lenIn]
  bufcap := by rw [hs.bufcap, hu.bufcap, h.bufcap]
  message := by
    have hmessage := h.message
    unfold State.message at hmessage ⊢
    rw [hs.stage, hs.ibuf, hu.stage, hu.ibuf, hmessage]

/-- The checks look at operands alone (R213). -/
theorem SameOperands.check {s u : State} (h : SameOperands s u) (o : Op) : o.check u = o.check s := by
  simp only [Op.check, State.encryptCheck, State.decryptCheck, h.cfg, h.lenIn, h.bufcap]

/-- So does the message the units cover (R178). -/
theorem SameOperands.messageBytes {s u : State} (h : SameOperands s u) (o : Op) :
    o.messageBytes u = o.messageBytes s := by
  obtain ⟨enc, m⟩ := o
  cases enc with
  | true => rw [messageBytes_encrypt, messageBytes_encrypt, h.message]
  | false => rw [messageBytes_decrypt, messageBytes_decrypt, h.message]

/-- The input units are operands (R192). -/
theorem SameOperands.inputUnit {s u : State} (h : SameOperands s u) (o : Op) (i : Nat) :
    o.inputUnit u i = o.inputUnit s i := by
  rw [Op.inputUnit_eq_ofList, Op.inputUnit_eq_ofList, Op.unitBytes, Op.unitBytes, h.messageBytes]

/-- The IV in force is an operand, where the message is long enough to hold one (R179). -/
theorem SameOperands.iv {s u : State} (h : SameOperands s u) (o : Op)
    (hlong : 16 ≤ s.stage.lenIn.toNat) : o.iv u = o.iv s := by
  obtain ⟨enc, m⟩ := o
  cases enc with
  | true => rw [Op.iv, Op.iv, h.cfg]; rfl
  | false => rw [iv_decrypt hlong, iv_decrypt (by rwa [h.lenIn]), h.message]

/-! ### One unit -/

/-- What the micro-operations look at, and TRACE, are the same (R120). -/
structure SameWalk (s u : State) : Prop where
  rk : u.rk = s.rk
  block : u.dp.s = s.dp.s
  seq : u.seq = s.seq
  trace : u.trace = s.trace

theorem SameWalk.roundStep {s u : State} (h : SameWalk s u) (c : BitVec 4) (b : Block) :
    SameWalk (s.roundStep c b) (u.roundStep c b) where
  rk := h.rk
  block := rfl
  seq := by rw [State.roundStep_seq, State.roundStep_seq, h.seq]
  trace := by rw [State.roundStep_trace, State.roundStep_trace, h.trace, h.seq]

theorem SameWalk.microStep {s u : State} (h : SameWalk s u) : SameWalk (microStep s) (microStep u) := by
  unfold Machine.microStep
  simp only [arkStep, sbStep, srStep, mcStep, isbStep, isrStep, imcStep, h.rk, h.block, h.seq]
  split
  case h_8 => exact h
  all_goals exact h.roundStep _ _

theorem SameWalk.microStep_iter {s u : State} (h : SameWalk s u) (j : Nat) :
    SameWalk (Machine.microStep^[j] s) (Machine.microStep^[j] u) := by
  induction j with
  | zero => exact h
  | succ j ih =>
    rw [Function.iterate_succ_apply', Function.iterate_succ_apply']
    exact ih.microStep

/-- Two runs of an operation stand at the same unit: same operands, TRACE and SEQ.unit, and FB where the
mode has one (R26, R192). -/
structure Op.SameUnit (o : Op) (s u : State) : Prop where
  operands : SameOperands s u
  trace : u.trace = s.trace
  unit : u.seq.unit = s.seq.unit
  fb : o.mode ≠ .ecb → u.dp.fb = s.dp.fb

theorem Op.cipherInput_congr {o : Op} {fb fb' : Block} (h : o.mode ≠ .ecb → fb' = fb) (ib : Block) :
    o.cipherInput ib fb' = o.cipherInput ib fb := by
  by_cases hm : o.mode = .ecb
  · simp only [Op.cipherInput, hm]
  · rw [h hm]

theorem Op.outputUnit_congr {o : Op} {fb fb' : Block} (h : o.mode ≠ .ecb → fb' = fb) (y ib : Block)
    (n : Nat) : o.outputUnit y ib fb' n = o.outputUnit y ib fb n := by
  by_cases hm : o.mode = .ecb
  · simp only [Op.outputUnit, hm]
  · rw [h hm]

/-- LOAD makes the same of the same unit (R192). -/
theorem Op.SameUnit.loadPhase {o : Op} {s u : State} (h : o.SameUnit s u) :
    SameWalk (o.loadPhase s) (o.loadPhase u) ∧ (o.loadPhase u).dp.ib = (o.loadPhase s).dp.ib
    ∧ (o.loadPhase u).dp.ulen = (o.loadPhase s).dp.ulen := by
  have hib := h.operands.inputUnit o s.seq.unit.toNat
  have hx := Op.cipherInput_congr h.fb (o.inputUnit s s.seq.unit.toNat)
  refine ⟨⟨h.operands.rk, ?_, ?_, ?_⟩, ?_, ?_⟩ <;>
    simp only [Op.loadPhase, h.trace, h.unit, h.operands.lenIn, hib, hx]

/-- STORE, and so the whole unit, makes the same of it (R193). -/
theorem Op.SameUnit.unitStep {o : Op} {s u : State} (h : o.SameUnit s u) :
    o.SameUnit (o.unitStep s) (o.unitStep u) := by
  obtain ⟨hunit, hfb, -⟩ := o.unitStep_result s
  obtain ⟨hunit', hfb', -⟩ := o.unitStep_result u
  refine ⟨h.operands.of_kept (keptFrom_unitStep o s).kept (keptFrom_unitStep o u).kept, ?_,
    by rw [hunit, hunit', h.unit], fun hm => ?_⟩
  · obtain ⟨hload, hib, hulen⟩ := h.loadPhase
    obtain ⟨-, hblock, hseq, htrace⟩ := hload.microStep_iter 56
    have hdp := o.walk_dp s
    have hdp' := o.walk_dp u
    have hlfb : (o.loadPhase s).dp.fb = s.dp.fb := rfl
    have hlfb' : (o.loadPhase u).dp.fb = u.dp.fb := rfl
    unfold Op.unitStep
    generalize Machine.microStep^[56] (o.loadPhase s) = m at *
    generalize Machine.microStep^[56] (o.loadPhase u) = m' at *
    have hmib : m'.dp.ib = m.dp.ib := by rw [hdp, hdp', hib]
    have hmulen : m'.dp.ulen = m.dp.ulen := by rw [hdp, hdp', hulen]
    have hob := Op.outputUnit_congr (o := o) (fb := m.dp.fb) (fb' := m'.dp.fb)
      (by rw [hdp, hdp']; exact h.fb) m.dp.s m.dp.ib m.dp.ulen.toNat
    simp only [Op.storePhase, htrace, hseq, hmulen, hblock, hmib, hob]
  · rw [hfb, hfb', h.operands.rk, h.unit, h.fb hm, Op.unitBytes, Op.unitBytes, h.operands.messageBytes]

theorem Op.SameUnit.unitStep_iter {o : Op} {s u : State} (h : o.SameUnit s u) (j : Nat) :
    o.SameUnit (o.unitStep^[j] s) (o.unitStep^[j] u) := by
  induction j with
  | zero => exact h
  | succ j ih =>
    rw [Function.iterate_succ_apply', Function.iterate_succ_apply']
    exact ih.unitStep

/-! ### A whole command -/

/-- A command whose checks pass is legal (R213, R214, R216). -/
theorem Op.legal_of_check {o : Op} {s : State} (h : o.check s = none) : o.Legal s := by
  obtain ⟨enc, m⟩ := o
  cases enc with
  | true =>
    have h : s.encryptCheck = none := h
    unfold State.encryptCheck at h
    split_ifs at h with hvalid hcap hshort
    exact ⟨by simpa using hvalid, by omega, by omega⟩
  | false =>
    have h : s.decryptCheck m = none := h
    simp only [State.decryptCheck] at h
    split_ifs at h with hvalid hcap hempty hiv halign
    refine ⟨by simpa using hvalid, by omega, ?_⟩
    cases m <;> simp [legalFrame, Op.ibase, Mode.padded] at * <;> omega

/-- The message of a legal command is a block or more (R213, R216). -/
theorem Op.Legal.long {o : Op} {s : State} (h : o.Legal s) : 16 ≤ s.stage.lenIn.toNat := by
  obtain ⟨enc, m⟩ := o
  cases enc with
  | true => exact State.EncryptLegal.long h
  | false => exact (legalFrame_bounds (State.DecryptLegal.frame h)).1

theorem Op.Legal.prologue {o : Op} {s : State} (h : o.Legal s) (d : BusWord) : o.Legal (s.prologue d) :=
  Op.legal_of_check ((o.check_prologue d s).trans (Op.check_of_legal h))

/-- HEAD starts the same command on the same operands (R194). -/
theorem SameOperands.headPhase {s u : State} (h : SameOperands s u) (htrace : u.trace = s.trace) {o : Op}
    (hlong : 16 ≤ s.stage.lenIn.toNat) : o.SameUnit (o.headPhase s) (o.headPhase u) := by
  have hiv := h.iv o hlong
  refine ⟨h.of_kept (keptFrom_headPhase o s 0).kept (keptFrom_headPhase o u 0).kept, ?_, rfl,
    fun hm => ?_⟩
  · simp only [Op.headPhase_trace, Op.headRecords, htrace, h.lenIn, h.rk, hiv]
  · rw [Op.headPhase_dp, Op.headPhase_dp, if_neg hm, if_neg hm, hiv]

/-- The decrypted message in OBUF, before padding is looked for (R195). -/
theorem SameOperands.decrypted {s u : State} (h : SameOperands s u) {m : Mode}
    (hs : s.DecryptLegal m) (hu : u.DecryptLegal m) (hws : Memory.wf s.obuf = true)
    (hwu : Memory.wf u.obuf = true) :
    (Op.mk false m).decrypted ((Op.mk false m).run u)
      = (Op.mk false m).decrypted ((Op.mk false m).run s) := by
  have hbytes : ∀ v : State, v.DecryptLegal m → Memory.wf v.obuf = true →
      (Op.mk false m).decrypted ((Op.mk false m).run v) = (Op.mk false m).modeMessage (roundKey v.rk)
        ((Op.mk false m).iv v) (unitsOf ((Op.mk false m).messageBytes v)) := by
    intro v hv hw
    obtain ⟨-, -, halign⟩ := legalFrame_bounds hv.frame
    rw [Op.decrypted, (keptFrom_run (Op.mk false m) v).kept.stage]
    refine Op.readBytes_run (Op.check_of_legal (o := ⟨false, m⟩) hv) hw fun hm => ?_
    rw [Op.length_messageBytes]
    exact (halign hm).2
  rw [hbytes s hs hws, hbytes u hu hwu, h.rk, h.messageBytes,
    h.iv _ (Op.Legal.long (o := ⟨false, m⟩) hs)]

/-- LEN_OUT and the records of TAIL are the same where LEN_IN and, for DECRYPT, the decrypted message are
(R195). -/
theorem Op.tailPhase_congr {o : Op} {s u : State} (hlen : u.stage.lenIn = s.stage.lenIn)
    (hdec : o.enc = false → o.decrypted u = o.decrypted s) (htrace : u.trace = s.trace) :
    (o.tailPhase u).lenOut = (o.tailPhase s).lenOut ∧ (o.tailPhase u).trace = (o.tailPhase s).trace := by
  have hstrip : o.inverse = true → o.decrypted u = o.decrypted s := fun h => hdec (Op.inverse_iff.1 h).1
  have hlenOut : o.lenOut u = o.lenOut s := by
    rw [Op.lenOut_eq, Op.lenOut_eq, hlen]
    cases hinv : o.inverse with
    | true => rw [hstrip hinv]
    | false => rfl
  refine ⟨hlenOut, ?_⟩
  rw [Op.tailPhase_trace, Op.tailPhase_trace, Op.tailRecords, Op.tailRecords, htrace, hlen, hlenOut]
  cases hinv : o.inverse with
  | true => rw [hstrip hinv]
  | false => rfl

/-- The result of a legal command is its mode's function of the operands (R191). -/
theorem SameOperands.result {s u : State} (h : SameOperands s u) {o : Op} (hs : o.Legal s)
    (hu : o.Legal u) (hws : Memory.wf s.obuf = true) (hwu : Memory.wf u.obuf = true) :
    (o.run u).result = (o.run s).result := by
  have hcs := Op.check_of_legal hs
  have hcu := Op.check_of_legal hu
  obtain ⟨enc, m⟩ := o
  cases enc with
  | true => rw [result_run_encrypt hcs hws, result_run_encrypt hcu hwu, h.rk, h.cfg, h.message]
  | false =>
    rw [result_run_decrypt hcs (State.DecryptLegal.frame hs) hws,
      result_run_decrypt hcu (State.DecryptLegal.frame hu) hwu, h.rk, h.message]

/-- A legal command on the same operands has the same LEN_OUT and the same records (R219). -/
theorem SameOperands.run {s u : State} (h : SameOperands s u) (htrace : u.trace = s.trace) {o : Op}
    (hs : o.Legal s) (hu : o.Legal u) (hws : Memory.wf s.obuf = true) (hwu : Memory.wf u.obuf = true) :
    (o.run u).lenOut = (o.run s).lenOut ∧ (o.run u).trace = (o.run s).trace := by
  have hunits := (h.headPhase htrace (o := o) hs.long).unitStep_iter (o.units s.stage.lenIn.toNat)
  refine Op.tailPhase_congr (by rw [h.lenIn]; exact hunits.operands.lenIn) (fun henc => ?_)
    (by rw [h.lenIn]; exact hunits.trace)
  obtain ⟨enc, m⟩ := o
  obtain rfl : enc = false := henc
  exact h.decrypted hs hu hws hwu

/-- Settles O43: the checks look at operands alone; a command that raises leaves nothing else, and one that
does not makes the same records unit by unit and the result its mode gives. -/
theorem nothingCarriesOver : Obligations.NothingCarriesOver := by
  intro o s u hcfg hrk hlen hcap hbytes hws hwu
  have hsame : SameOperands s u :=
    ⟨hcfg.symm, hrk.symm, hlen.symm, hcap.symm, by rw [State.message, ← hlen]; exact hbytes.symm⟩
  have hcheck := hsame.check o
  cases hs : o.check s with
  | some e =>
    exact ⟨_, _, Op.exec_of_check hs, Op.exec_of_check (hcheck.trans hs), rfl, rfl, rfl, rfl, rfl⟩
  | none =>
    have hlegal := Op.legal_of_check hs
    have hlegal' := Op.legal_of_check (hcheck.trans hs)
    have hstart : SameOperands (s.prologue (if o.enc then 2 else 3))
        (u.prologue (if o.enc then 2 else 3)) :=
      ⟨hsame.cfg, hsame.rk, hsame.lenIn, hsame.bufcap, hsame.message⟩
    obtain ⟨hlenOut, htrace⟩ := hstart.run rfl (hlegal.prologue _) (hlegal'.prologue _) hws hwu
    refine ⟨_, _, Op.exec_of_legal hlegal, Op.exec_of_legal hlegal', rfl, ?_, hlenOut.symm,
      htrace.symm, (hstart.result (hlegal.prologue _) (hlegal'.prologue _) hws hwu).symm⟩
    rw [(Op.finished_run o rfl).err, (Op.finished_run o rfl).err]

end Sys2Proof.Machine
end

section
/-! SUPPORT. TRACE over every step (45_trace.md R240, R241): what a step appends, and where it is cleared. -/

namespace Sys2Proof.Machine

/-! ### The sequencer -/

/-- CHECK emits nothing (R304). -/
theorem checkPhase_trace (s : State) : s.checkPhase.trace = s.trace := by
  rcases checkPhase_cases s with ⟨e, -, -, ht⟩ | ⟨-, -, ht⟩ | ⟨-, u, rfl, ⟨e, -, -, ht⟩ | ⟨-, ht⟩⟩ <;>
    simp [ht]

/-- KEXP emits nothing (R105, R256). -/
theorem kexpStep_trace (s : State) : (kexpStep s).trace = s.trace := by
  by_cases hlast : s.seq.unit = 59
  · rw [kexpStep_last hlast]
    rfl
  · rw [kexpStep_of_ne hlast]

/-- A micro-operation appends its record, KEXP nothing (R105, R120). -/
theorem runUop_trace {s t : State} (h : s.runUop = .next t) : ∃ l, t.trace = s.trace ++ l := by
  rcases runUop_cases h with ⟨b, rfl, -⟩ | ⟨-, -, -, rfl⟩
  · exact ⟨_, s.roundStep_trace _ _⟩
  · exact ⟨[], by rw [kexpStep_trace, List.append_nil]⟩

/-- A sequencer step only appends to TRACE (R242). -/
theorem seqStep_trace {s t : State} (h : s.seqStep = .next t) : ∃ l, t.trace = s.trace ++ l := by
  cases hp : s.seq.phase with
  | idle =>
    cases (seqStep_idle hp).symm.trans h
    exact ⟨[], (List.append_nil _).symm⟩
  | check =>
    cases (seqStep_check hp).symm.trans h
    exact ⟨[], by rw [checkPhase_trace, List.append_nil]⟩
  | kexp => exact runUop_trace ((seqStep_kexp hp).symm.trans h)
  | head =>
    cases (seqStep_head hp).symm.trans h
    exact ⟨_, rfl⟩
  | load =>
    cases (seqStep_load hp).symm.trans h
    exact ⟨_, rfl⟩
  | round => exact runUop_trace ((seqStep_round hp).symm.trans h)
  | store =>
    cases (seqStep_store hp).symm.trans h
    exact ⟨_, rfl⟩
  | tail =>
    cases (seqStep_tail hp).symm.trans h
    exact ⟨_, rfl⟩

/-! ### Every step -/

/-- A store does not reach TRACE (R60). -/
theorem busStore_trace (a : WordAddr) (d : BusWord) (s : State) : (s.busStore a d).trace = s.trace := by
  rcases busStore_cases a d s with ⟨g, e⟩ | ⟨n, e⟩ | ⟨j, -, e⟩ <;> rw [e]

/-- A step appends to TRACE, or asserts RST, or accepts a command. -/
theorem step_trace {s t : State} (h : step s = .next t) :
    (∃ l, t.trace = s.trace ++ l) ∨ (∃ rest, s.inputs = .rst true :: rest)
      ∨ ∃ d rest, s.inputs = .write cmdAddr d :: rest ∧ s.run ≠ .busy ∧ s.rst = false := by
  have hsame : t.trace = s.trace → ∃ l, t.trace = s.trace ++ l :=
    fun e => ⟨[], by rw [e, List.append_nil]⟩
  rcases step_cases h with ⟨l, v, n, rfl⟩ | ⟨-, l, v, n, hq⟩ | ⟨a, d, l, -, -, -, rfl⟩
    | ⟨a, d, l, -, -, -, -, rfl⟩ | ⟨d, l, hin, hrst, hrest, -⟩ | ⟨b, l, hin, rfl⟩
  · exact .inl (hsame rfl)
  · exact .inl (seqStep_trace (s := s.withBoundary l v n) hq)
  · exact .inl (hsame rfl)
  · exact .inl (hsame (busStore_trace a d _))
  · exact .inr (.inr ⟨d, l, hin, hrest, hrst⟩)
  · cases b with
    | true => exact .inr (.inl ⟨l, hin⟩)
    | false => exact .inl (hsame rfl)

/-- Asserting RST empties TRACE (R240, R330). -/
theorem step_rst_trace {s t : State} {rest : List Input} (hin : s.inputs = .rst true :: rest)
    (h : step s = .next t) : t.trace = [] := by
  have hstep : step s = .next (State.driveRst true { s with inputs := rest }) := by rw [step, hin]; rfl
  cases hstep.symm.trans h
  rfl

/-- A whole command is a run from its prologue, which clears TRACE: what TRACE was is lost (R210, R241). -/
theorem runCommand_withTrace (d : BusWord) (l : List TraceRecord) (s : State) :
    State.runCommand d { s with trace := l } = s.runCommand d := by
  rw [← smallStepsRefineCommands s d _ le_rfl, ← smallStepsRefineCommands _ d _ le_rfl]
  rfl

/-- The same of an accepted command, also where the prologue is the whole step. -/
theorem acceptCommand_withTrace (d : BusWord) (l : List TraceRecord) (s : State) :
    State.acceptCommand d { s with trace := l } = s.acceptCommand d := by
  rw [State.acceptCommand, State.acceptCommand, runCommand_withTrace]
  rfl

/-- Settles O54: a step by its cases; a CMD write goes through the prologue. -/
theorem traceOnlyGrows : Obligations.TraceOnlyGrows := by
  intro s t h
  refine ⟨step_trace h, fun rest hin => step_rst_trace hin h, fun d rest hin hrest hrst => ?_⟩
  rw [step_command hin hrst hrest] at h
  refine ⟨fun hwaits => ?_, fun l => ?_⟩
  · cases (acceptCommand_of_not_waits (s := { s with inputs := rest }) d hwaits).symm.trans h
    rfl
  · rw [step_command (s := { s with trace := l }) hin hrst hrest, ← h]
    exact acceptCommand_withTrace d l { s with inputs := rest }

end Sys2Proof.Machine
end

section
/-! SUPPORT. The records of a whole ENCRYPT or DECRYPT as one list: the header of HEAD, 59 records for each
unit, those of TAIL; their kinds and their number (45_trace.md R242, R256, R259, R260). -/

namespace Sys2Proof.Machine

/-! ### The records of a unit -/

/-- OB of unit `SEQ.unit` (R193). -/
def Op.nextUnitOutput (o : Op) (s : State) : Block :=
  o.unitOutput (roundKey s.rk) s.dp.fb (o.unitBytes s s.seq.unit.toNat)

/-- The records of unit `SEQ.unit` (R249 to R252). -/
def Op.unitRecords (o : Op) (s : State) : List TraceRecord :=
  [recUnitStart s.seq.unit (o.ulen s.stage.lenIn.toNat s.seq.unit.toNat)
      (o.inputUnit s s.seq.unit.toNat),
    recUnitPre s.seq.unit o.inverse (o.loadPhase s).dp.s]
    ++ (List.range 56).map (walkRecord (o.loadPhase s))
    ++ [recUnitDone s.seq.unit (o.ulen s.stage.lenIn.toNat s.seq.unit.toNat) (o.nextUnitOutput s)
      (o.inputUnit s s.seq.unit.toNat)]

theorem Op.unitStep_trace (o : Op) (s : State) :
    (o.unitStep s).trace = s.trace ++ o.unitRecords s := by
  have hdp := o.walk_dp s
  have htrace := microStep_iter_trace (load_start o s) le_rfl
  have hunit : (microStep^[56] (o.loadPhase s)).seq.unit = s.seq.unit :=
    (keptByRoundOp_microStep_iter 56 (o.loadPhase s)).unit
  have hib : (o.loadPhase s).dp.ib = Block.ofList (o.unitBytes s s.seq.unit.toNat) :=
    o.inputUnit_eq_ofList s _
  have hulen : (o.loadPhase s).dp.ulen.toNat = (o.unitBytes s s.seq.unit.toNat).length :=
    (Op.toNat_ulen _ _ _).trans (o.length_unitBytes s _).symm
  have hx : (o.loadPhase s).dp.s = o.cipherInput (o.loadPhase s).dp.ib s.dp.fb := rfl
  have hload : (o.loadPhase s).trace = s.trace
      ++ [recUnitStart s.seq.unit (o.ulen s.stage.lenIn.toNat s.seq.unit.toNat)
          (o.inputUnit s s.seq.unit.toNat),
        recUnitPre s.seq.unit o.inverse (o.loadPhase s).dp.s] := rfl
  rw [hload, List.append_assoc] at htrace
  rw [Op.unitRecords, ← List.append_assoc, ← htrace, ← o.length_unitBytes, o.inputUnit_eq_ofList,
    Op.unitStep]
  generalize microStep^[56] (o.loadPhase s) = m at *
  simp only [Op.storePhase, hdp, hunit, hulen, hx, hib]
  rfl

@[simp] theorem Op.length_unitRecords (o : Op) (s : State) : (o.unitRecords s).length = 59 := by
  simp [Op.unitRecords]

/-- The kinds of a unit's records (R256). -/
def unitKinds : List TraceKind :=
  [TraceKind.unitStart, TraceKind.unitPre] ++ List.replicate 56 TraceKind.round ++ [TraceKind.unitDone]

theorem Op.kind_unitRecords (o : Op) (s : State) :
    (o.unitRecords s).map TraceRecord.kind = unitKinds := by
  have hwalk : TraceRecord.kind ∘ walkRecord (o.loadPhase s) = fun _ => .round := rfl
  rw [Op.unitRecords, List.map_append, List.map_append, List.map_map, hwalk, List.map_const',
    List.length_range]
  rfl

/-! ### The records of all units -/

/-- The state of a command before unit `i`, after its checks (R29). -/
def Op.beforeUnit (o : Op) (s : State) (i : Nat) : State := o.unitStep^[i] (o.headPhase s)

theorem Op.beforeUnit_succ (o : Op) (s : State) (i : Nat) :
    o.beforeUnit s (i + 1) = o.unitStep (o.beforeUnit s i) := Function.iterate_succ_apply' ..

theorem Op.run_eq_tailPhase (o : Op) (s : State) :
    o.run s = o.tailPhase (o.beforeUnit s (o.units s.stage.lenIn.toNat)) := rfl

/-- The records of the first `n` units. -/
def Op.unitsRecords (o : Op) (s : State) (n : Nat) : List TraceRecord :=
  ((List.range n).map fun i => o.unitRecords (o.beforeUnit s i)).flatten

theorem Op.unitsRecords_succ (o : Op) (s : State) (n : Nat) :
    o.unitsRecords s (n + 1) = o.unitsRecords s n ++ o.unitRecords (o.beforeUnit s n) := by
  simp [Op.unitsRecords, List.range_succ]

theorem Op.beforeUnit_trace (o : Op) (s : State) (i : Nat) :
    (o.beforeUnit s i).trace = s.trace ++ o.headRecords s ++ o.unitsRecords s i := by
  induction i with
  | zero => exact (List.append_nil _).symm
  | succ i ih =>
    rw [Op.beforeUnit_succ, Op.unitStep_trace, ih, Op.unitsRecords_succ, List.append_assoc]

@[simp] theorem Op.length_unitsRecords (o : Op) (s : State) (n : Nat) :
    (o.unitsRecords s n).length = 59 * n := by
  induction n with
  | zero => rfl
  | succ n ih =>
    rw [Op.unitsRecords_succ, List.length_append, ih, Op.length_unitRecords]
    omega

theorem Op.kind_unitsRecords (o : Op) (s : State) (n : Nat) :
    (o.unitsRecords s n).map TraceRecord.kind = (List.replicate n unitKinds).flatten := by
  induction n with
  | zero => rfl
  | succ n ih =>
    rw [Op.unitsRecords_succ, List.map_append, ih, Op.kind_unitRecords, List.replicate_succ',
      List.flatten_append, List.flatten_singleton]

/-- Record `j` of unit `i` (R260). -/
theorem Op.getElem?_unitsRecords (o : Op) (s : State) {n i j : Nat} (hi : i < n) (hj : j < 59) :
    (o.unitsRecords s n)[59 * i + j]? = (o.unitRecords (o.beforeUnit s i))[j]? := by
  induction n with
  | zero => omega
  | succ n ih =>
    rw [Op.unitsRecords_succ]
    rcases Nat.lt_succ_iff_lt_or_eq.1 hi with hlt | rfl
    · rw [List.getElem?_append_left (by rw [Op.length_unitsRecords]; omega), ih hlt]
    · rw [List.getElem?_append_right (by rw [Op.length_unitsRecords]; omega),
        Op.length_unitsRecords, Nat.add_sub_cancel_left]

/-! ### The records of a command -/

theorem Op.run_trace (o : Op) (s : State) : (o.run s).trace = s.trace ++ o.headRecords s
    ++ o.unitsRecords s (o.units s.stage.lenIn.toNat)
    ++ o.tailRecords (o.beforeUnit s (o.units s.stage.lenIn.toNat)) := by
  rw [Op.run_eq_tailPhase, Op.tailPhase_trace, Op.beforeUnit_trace]

theorem Op.length_tailRecords (o : Op) (s : State) :
    (o.tailRecords s).length = if o.inverse then 3 else 2 := by
  rw [Op.tailRecords]
  split <;> rfl

theorem Op.kind_headRecords (o : Op) (s : State) : (o.headRecords s).map TraceRecord.kind =
    [TraceKind.input] ++ List.replicate 15 TraceKind.key ++ [TraceKind.pad, TraceKind.mode] := rfl

theorem Op.kind_tailRecords (o : Op) (s : State) : (o.tailRecords s).map TraceRecord.kind =
    [TraceKind.aggregate] ++ (if o.inverse then [TraceKind.unpad] else []) ++ [TraceKind.final] := by
  rw [Op.tailRecords]
  split <;> rfl

/-- The number of records of a command (R259). -/
theorem Op.length_run_trace (o : Op) {s : State} (htrace : s.trace = []) :
    (o.run s).trace.length = (if o.inverse then 21 else 20) + 59 * o.units s.stage.lenIn.toNat := by
  rw [Op.run_trace, htrace, List.length_append, List.length_append, List.nil_append,
    Op.length_headRecords, Op.length_unitsRecords, Op.length_tailRecords]
  split <;> omega

/-! ### Commands that leave no record -/

/-- INIT emits nothing, whether it raises or not (R256). -/
theorem initRun_trace (s : State) : (initRun s).trace = [] := by
  cases hcheck : s.initCheck with
  | some e =>
    have h := (exec_init s).symm.trans (exec_init_of_check hcheck)
    rw [Host.Outcome.next.inj h]
    rfl
  | none =>
    rw [initRun_of_check hcheck]
    exact State.initLatch_trace s.initOpen

/-- A command leaves no record, or it is a cipher command that its checks let pass, and has not raised. -/
theorem runCommand_trace_cases {s t : State} {d : BusWord} (h : s.runCommand d = .next t) :
    t.trace = [] ∨ ∃ o : Op, o.Legal s ∧ t = o.run (s.prologue (if o.enc then 2 else 3)) := by
  have hcipher : ∀ o : Op, exec o.instr s = .next t →
      t.trace = [] ∨ ∃ o : Op, o.Legal s ∧ t = o.run (s.prologue (if o.enc then 2 else 3)) := by
    intro o ho
    cases hcheck : o.check s with
    | some e =>
      rw [← Host.Outcome.next.inj ((Op.exec_of_check hcheck).symm.trans ho)]
      exact .inl rfl
    | none =>
      have hlegal := Op.legal_of_check hcheck
      exact .inr ⟨o, hlegal, (Host.Outcome.next.inj ((Op.exec_of_legal hlegal).symm.trans ho)).symm⟩
  cases hd : decodeCmd s.cfg.mode d with
  | error r =>
    rw [← Host.Outcome.next.inj ((runCommand_of_error hd).symm.trans h)]
    exact .inl rfl
  | ok i =>
    rw [runCommand_of_ok hd] at h
    rcases decodeCmd_ok_iff.1 hd with ⟨-, rfl⟩ | ⟨-, rfl⟩ | ⟨-, rfl⟩
    · rw [← Host.Outcome.next.inj ((exec_init s).symm.trans h)]
      exact .inl (initRun_trace s)
    · exact hcipher ⟨true, s.cfg.mode⟩ h
    · exact hcipher ⟨false, s.cfg.mode⟩ h

/-- A command that raises leaves no record (R256). -/
theorem runCommand_error_trace {s t : State} {d : BusWord} (h : s.runCommand d = .next t)
    (herror : t.run = .error) : t.trace = [] := by
  rcases runCommand_trace_cases h with hnone | ⟨o, -, rfl⟩
  · exact hnone
  · rw [(Op.finished_run o rfl).run] at herror
    cases herror

theorem exec_init_trace {s t : State} (h : exec .init s = .next t) : t.trace = [] := by
  rw [← Host.Outcome.next.inj ((exec_init s).symm.trans h), initRun_trace]

/-- Settles O49: the kinds of the header, of each unit and of TAIL, one after another. -/
theorem traceOrder : Obligations.TraceOrder := by
  refine ⟨fun o s hlegal => ⟨_, Op.exec_of_legal hlegal, ?_⟩, fun s t => exec_init_trace,
    fun s t d => runCommand_error_trace⟩
  rw [Op.run_trace, List.map_append, List.map_append, List.map_append, Op.kind_headRecords,
    Op.kind_unitsRecords, Op.kind_tailRecords]
  simp only [List.append_assoc]
  rfl

/-! ### TRC_CNT -/

theorem State.trcCnt_of_trace_nil {s : State} (h : s.trace = []) : s.trcCnt = 0 := by
  rw [State.trcCnt, h]
  rfl

/-- Settles O51: the number of records, which a legal message bounds below `2^32`. -/
theorem traceLengths : Obligations.TraceLengths := by
  refine ⟨fun o s hlegal => ⟨_, Op.exec_of_legal hlegal, ?_⟩,
    fun s t h => State.trcCnt_of_trace_nil (exec_init_trace h),
    fun s t d h => ⟨fun he => State.trcCnt_of_trace_nil (runCommand_error_trace h he), ?_⟩⟩
  · obtain ⟨-, hunits, -, hcap⟩ := units_bounds (Op.check_of_legal hlegal)
    have hlen := o.length_run_trace (s := s.prologue (if o.enc then 2 else 3)) rfl
    rw [State.trcCnt, BitVec.toNat_ofNat, hlen, State.prologue_stage, Nat.mod_eq_of_lt]
    split <;> omega
  · rcases runCommand_trace_cases h with hnone | ⟨o, hlegal, rfl⟩
    · rw [State.trcCnt_of_trace_nil hnone]
      exact Nat.zero_le _
    · obtain ⟨-, hunits, -⟩ := units_bounds (Op.check_of_legal hlegal)
      have hlen := o.length_run_trace (s := s.prologue (if o.enc then 2 else 3)) rfl
      rw [State.prologue_stage] at hlen
      rw [State.trcCnt, BitVec.toNat_ofNat]
      refine (Nat.mod_le _ _).trans ?_
      rw [hlen]
      split <;> omega

end Sys2Proof.Machine
end

section
/-! SUPPORT. What the records of a command quote (45_trace.md R244 to R255, R260): the units as they stand
before each one, the cipher input and output of each walk, the bytes of OBUF. -/

namespace Sys2Proof.Machine

/-! ### The state before a unit -/

theorem Op.keptFrom_beforeUnit (o : Op) (s : State) (i : Nat) :
    KeptFrom (o.obase + o.total s.stage.lenIn.toNat) s (o.beforeUnit s i) := by
  have hhead := keptFrom_headPhase o s (o.total s.stage.lenIn.toNat)
  have hunits := keptFrom_unitStep_iter o i (o.headPhase s)
  rw [hhead.kept.stage] at hunits
  exact hhead.trans hunits

@[simp] theorem Op.beforeUnit_stage (o : Op) (s : State) (i : Nat) : (o.beforeUnit s i).stage = s.stage :=
  (o.keptFrom_beforeUnit s i).kept.stage

@[simp] theorem Op.beforeUnit_rk (o : Op) (s : State) (i : Nat) : (o.beforeUnit s i).rk = s.rk :=
  (o.keptFrom_beforeUnit s i).kept.rk

theorem Op.inputUnit_beforeUnit (o : Op) (s : State) (i j : Nat) :
    o.inputUnit (o.beforeUnit s i) j = o.inputUnit s j := by
  have hbytes := o.messageBytes_of_kept (o.keptFrom_beforeUnit s i).kept
  rw [Op.inputUnit_eq_ofList, Op.inputUnit_eq_ofList, Op.unitBytes, Op.unitBytes, hbytes]

theorem Op.beforeUnit_unit (o : Op) (s : State) (i : Nat) :
    (o.beforeUnit s i).seq.unit = BitVec.ofNat 32 i := by
  induction i with
  | zero => rfl
  | succ i ih =>
    rw [Op.beforeUnit_succ, (o.unitStep_result _).1, ih, BitVec.ofNat_add]
    rfl

theorem Op.toNat_beforeUnit_unit (o : Op) (s : State) {i : Nat} (hi : i < 2 ^ 32) :
    (o.beforeUnit s i).seq.unit.toNat = i := by
  rw [Op.beforeUnit_unit, BitVec.toNat_ofNat, Nat.mod_eq_of_lt hi]

/-! ### The blocks of a unit -/

/-- FB before unit `i` (R192, R193). -/
def Op.feedback (o : Op) (s : State) (i : Nat) : Block := (o.beforeUnit s i).dp.fb

/-- S before micro-operation `j` of the walk of unit `i`; at 56, the cipher output (R158). -/
def Op.walkState (o : Op) (s : State) (i j : Nat) : Block :=
  (microStep^[j] (o.loadPhase (o.beforeUnit s i))).dp.s

/-- OB of unit `i` (R193). -/
def Op.unitResult (o : Op) (s : State) (i : Nat) : Block := o.nextUnitOutput (o.beforeUnit s i)

theorem lt_of_getElem?_walkOf {dir : Bool} {j : Nat} {p : Nat × BitVec 4}
    (h : (walkOf dir)[j]? = some p) : j < 56 :=
  (List.getElem?_eq_some_iff.1 h).1.trans_eq (length_walkOf dir)

/-- Each micro-operation makes the next S of the one before (R124 to R130). -/
theorem Op.walkState_succ {o : Op} {j r : Nat} {c : BitVec 4} (h : (walkOf o.inverse)[j]? = some (r, c))
    (s : State) (i : Nat) :
    o.walkState s i (j + 1) = uopBlock (roundKey s.rk r) c (o.walkState s i j) := by
  have hj := lt_of_getElem?_walkOf h
  have hstart := load_start o (o.beforeUnit s i)
  obtain ⟨-, -, hpos⟩ := microStep_iter_position hstart hj
  rw [Op.walkState, microStep_iter_succ hstart hj, ← Option.some.inj (h.symm.trans hpos),
    Op.loadPhase_rk, Op.beforeUnit_rk]
  rfl

/-- The last S of a walk is the cipher's output (R158). -/
theorem Op.walkState_last (o : Op) (s : State) (i : Nat) :
    o.walkState s i 56 = o.unitCipher (roundKey s.rk) (o.walkState s i 0) := by
  rw [Op.walkState, Op.walk_dp, Op.beforeUnit_rk]
  rfl

section Unit

variable (o : Op) (s : State) {i : Nat} (hi : i < 2 ^ 32)
include hi

/-- The cipher input X (R192). -/
theorem Op.walkState_zero :
    o.walkState s i 0 = o.cipherInput (o.inputUnit s i) (o.feedback s i) := by
  have hx : o.walkState s i 0 = o.cipherInput
      (o.inputUnit (o.beforeUnit s i) (o.beforeUnit s i).seq.unit.toNat) (o.feedback s i) := rfl
  rw [hx, Op.toNat_beforeUnit_unit o s hi, Op.inputUnit_beforeUnit]

theorem Op.unitCipherOutput_eq_walkState :
    o.unitCipherOutput (roundKey (o.beforeUnit s i).rk) (o.feedback s i)
      (o.unitBytes (o.beforeUnit s i) i) = o.walkState s i 56 := by
  rw [Op.walkState_last, Op.walkState_zero o s hi, Op.beforeUnit_rk, Op.unitCipherOutput,
    ← Op.inputUnit_eq_ofList, Op.inputUnit_beforeUnit]

/-- OB from the cipher output (R193). -/
theorem Op.unitResult_eq : o.unitResult s i = o.outputUnit (o.walkState s i 56) (o.inputUnit s i)
    (o.feedback s i) (o.ulen s.stage.lenIn.toNat i) := by
  rw [Op.unitResult, Op.nextUnitOutput, Op.toNat_beforeUnit_unit o s hi, Op.unitOutput,
    ← Op.feedback, Op.unitCipherOutput_eq_walkState o s hi, ← Op.inputUnit_eq_ofList,
    Op.inputUnit_beforeUnit, Op.length_unitBytes, Op.beforeUnit_stage]

/-- FB for the next unit (R193). -/
theorem Op.feedback_succ : o.feedback s (i + 1) = o.nextFeedback (o.walkState s i 56)
    (o.inputUnit s i) (o.feedback s i) (o.unitResult s i) := by
  obtain ⟨-, hfb, -⟩ := o.unitStep_result (o.beforeUnit s i)
  rw [Op.feedback, Op.beforeUnit_succ, hfb, Op.toNat_beforeUnit_unit o s hi, Op.unitNext,
    ← Op.feedback, Op.unitCipherOutput_eq_walkState o s hi, ← Op.inputUnit_eq_ofList,
    Op.inputUnit_beforeUnit, Op.unitResult, Op.nextUnitOutput, Op.toNat_beforeUnit_unit o s hi]
  rfl

end Unit

/-! ### FB by mode -/

section Feedback

variable {o : Op} (s : State) {i : Nat} (hi : i < 2 ^ 32)

theorem Op.feedback_zero (hm : o.mode ≠ .ecb) : o.feedback s 0 = o.iv s := if_neg hm

include hi

/-- CBC encryption chains the ciphertext (R182). -/
theorem Op.feedback_cbc (hm : o.mode = .cbc) (henc : o.enc = true) :
    o.feedback s i = if i = 0 then o.iv s else o.unitResult s (i - 1) := by
  cases i with
  | zero => exact Op.feedback_zero s (by simp [hm])
  | succ i =>
    have hlt : i < 2 ^ 32 := by omega
    rw [Op.feedback_succ o s hlt, if_neg i.succ_ne_zero, Nat.add_sub_cancel, Op.unitResult_eq o s hlt]
    simp only [Op.nextFeedback, Op.outputUnit, hm, henc, if_true]

/-- CFB chains the ciphertext, which is the output of encryption and the input of decryption (R184,
R185). -/
theorem Op.feedback_cfb (hm : o.mode = .cfb) : o.feedback s i =
    if i = 0 then o.iv s else if o.enc then o.unitResult s (i - 1) else o.inputUnit s (i - 1) := by
  cases i with
  | zero => exact Op.feedback_zero s (by simp [hm])
  | succ i =>
    rw [Op.feedback_succ o s (by omega), if_neg i.succ_ne_zero, Nat.add_sub_cancel]
    simp only [Op.nextFeedback, hm]

/-- OFB chains the cipher output (R186). -/
theorem Op.feedback_ofb (hm : o.mode = .ofb) :
    o.feedback s i = if i = 0 then o.iv s else o.walkState s (i - 1) 56 := by
  cases i with
  | zero => exact Op.feedback_zero s (by simp [hm])
  | succ i =>
    rw [Op.feedback_succ o s (by omega), if_neg i.succ_ne_zero, Nat.add_sub_cancel]
    simp only [Op.nextFeedback, hm]

/-- CTR counts (R188, R190). -/
theorem Op.feedback_ctr (hm : o.mode = .ctr) : o.feedback s i = ctrBlock (o.iv s) i := by
  induction i with
  | zero => rw [ctrBlock_zero, Op.feedback_zero s (by simp [hm])]
  | succ i ih =>
    have hlt : i < 2 ^ 32 := by omega
    rw [Op.feedback_succ o s hlt, ← counterNext_ctrBlock, ← ih hlt]
    simp only [Op.nextFeedback, hm]

/-- The cipher input of CBC: chained for encryption, the unit itself for decryption (R182, R183). -/
theorem Op.walkState_zero_cbc (hm : o.mode = .cbc) : o.walkState s i 0 =
    if o.enc then (o.inputUnit s i).xor (if i = 0 then o.iv s else o.unitResult s (i - 1))
    else o.inputUnit s i := by
  rw [Op.walkState_zero o s hi]
  cases henc : o.enc with
  | true =>
    rw [Op.feedback_cbc s hi hm henc]
    simp only [Op.cipherInput, hm, henc, if_true]
  | false => simp only [Op.cipherInput, hm, henc, Bool.false_eq_true, if_false]

end Feedback

/-! ### OB and OBUF -/

/-- In the padded modes every unit is whole (R170, R216). -/
theorem Op.Legal.ulen_of_padded {o : Op} {s : State} {i : Nat} (h : o.Legal s)
    (hm : o.mode.padded = true) (hi : i < o.units s.stage.lenIn.toNat) :
    o.ulen s.stage.lenIn.toNat i = 16 := by
  have haligned : o.total s.stage.lenIn.toNat % 16 = 0 := by
    obtain ⟨enc, m⟩ := o
    cases enc with
    | true =>
      rw [Op.total, if_pos rfl, if_pos hm, padCount]
      omega
    | false =>
      obtain ⟨-, -, halign⟩ := legalFrame_bounds (State.DecryptLegal.frame h)
      exact (halign hm).2
  rw [Op.units, ceil16] at hi
  rw [Op.ulen]
  omega

/-- OB is zero past ULEN (R26). -/
theorem Op.Legal.get_unitResult {o : Op} {s : State} {i k : Nat} (h : o.Legal s)
    (hi : i < o.units s.stage.lenIn.toNat) (hmax : i < 2 ^ 32) (hk : k < 16)
    (hulen : o.ulen s.stage.lenIn.toNat i ≤ k) : (o.unitResult s i).get k = 0 := by
  have hpadded : o.mode.padded = false := by
    by_contra hm
    have := h.ulen_of_padded (by simpa using hm) hi
    omega
  have hstream : o.mode = .cfb ∨ o.mode = .ofb ∨ o.mode = .ctr := by
    cases hm : o.mode <;> simp [hm, Mode.padded] at hpadded ⊢
  rw [Op.unitResult_eq o s hmax, Op.get_outputUnit_stream hstream _ _ _ _ hk, if_neg (by omega)]

/-- The bytes of unit `i` in OBUF at the end of a command are those of its OB: no later unit reaches them
(R178, R193). -/
theorem Op.read_run_obuf {o : Op} {s : State} {i k : Nat} (hcheck : o.check s = none)
    (hw : Memory.wf s.obuf = true) (hi : i < o.units s.stage.lenIn.toNat)
    (hk : k < o.ulen s.stage.lenIn.toNat i) :
    Memory.read (o.obase + 16 * i + k) (o.run s).obuf = (o.unitResult s i).get k := by
  obtain ⟨-, hunits, -, hcap⟩ := units_bounds hcheck
  have hk16 : k < 16 := hk.trans_le (min_le_left _ _)
  obtain ⟨j, hj⟩ := Nat.exists_eq_add_of_lt hi
  have hrest : o.beforeUnit s (o.units s.stage.lenIn.toNat)
      = o.unitStep^[j] (o.beforeUnit s (i + 1)) := by
    rw [Op.beforeUnit, Op.beforeUnit, ← Function.iterate_add_apply, hj]
    congr 1
    omega
  have hunit := o.toNat_beforeUnit_unit s (i := i + 1) (by omega)
  obtain ⟨hlater, -⟩ := o.unitStep_iter_obuf j (s := o.beforeUnit s (i + 1))
    ((o.keptFrom_beforeUnit s _).wf hw) (by rw [hunit, Op.beforeUnit_stage]; omega)
    (by rw [Op.beforeUnit_stage]; omega)
  obtain ⟨-, -, hobuf⟩ := o.unitStep_result (o.beforeUnit s i)
  have hbytes : o.unitStored (roundKey (o.beforeUnit s i).rk) (o.beforeUnit s i).dp.fb
      (o.unitBytes (o.beforeUnit s i) (o.beforeUnit s i).seq.unit.toNat)
      = (o.unitResult s i).toList.take (o.ulen s.stage.lenIn.toNat i) := by
    rw [Op.unitStored, Op.toNat_beforeUnit_unit o s (by omega), Op.length_unitBytes,
      Op.beforeUnit_stage, Op.unitResult, Op.nextUnitOutput, Op.toNat_beforeUnit_unit o s (by omega)]
  have hlen : ((o.unitResult s i).toList.take (o.ulen s.stage.lenIn.toNat i)).length
      = o.ulen s.stage.lenIn.toNat i := List.length_take_of_le (min_le_left _ _)
  rw [hunit] at hlater
  rw [Op.run_eq_tailPhase, Op.tailPhase_obuf, hrest, hlater _ (by omega), Op.beforeUnit_succ, hobuf,
    hbytes, Op.toNat_beforeUnit_unit o s (by omega),
    Memory.read_writeBytes _ _ _ ((o.keptFrom_beforeUnit s i).wf hw), hlen, if_pos (by omega),
    Nat.add_sub_cancel_left, List.getD_eq_getElem _ _ (by omega), List.getElem_take,
    Block.getElem_toList]

/-! ### Where each record stands -/

/-- The K_KEY records stand after K_INPUT (R194). -/
theorem Op.getElem?_headRecords_key (o : Op) (s : State) {r : Nat} (hr : r < 15) :
    (o.headRecords s)[1 + r]? = some (recKey s.rk r) := by
  have hkeys : (recKeys s.rk).length = 15 := by rw [recKeys, List.length_map, List.length_range]
  rw [Op.headRecords, List.getElem?_append_left (by simp [hkeys]; omega), Nat.add_comm,
    List.getElem?_append_right (by simp), List.length_singleton, Nat.add_sub_cancel, recKeys,
    List.getElem?_map, List.getElem?_range hr, Option.map_some]

/-- A unit's K_ROUND records stand after its first two (R260). -/
theorem Op.getElem?_unitRecords_walk (o : Op) (s : State) {j : Nat} (hj : j < 56) :
    (o.unitRecords s)[2 + j]? = some (walkRecord (o.loadPhase s) j) := by
  rw [Op.unitRecords, List.getElem?_append_left (by simp; omega), Nat.add_comm,
    List.getElem?_append_right (by simp), List.length_cons, List.length_singleton,
    Nat.add_sub_cancel, List.getElem?_map, List.getElem?_range hj, Option.map_some]

section Positions

variable (o : Op) {s : State} (htrace : s.trace = []) {j a : Nat}
include htrace

/-- The header stands first (R260). -/
theorem Op.getElem?_run_header (hj : j < 18) : (o.run s).trace[j]? = (o.headRecords s)[j]? := by
  rw [Op.run_trace, htrace, List.nil_append, List.append_assoc,
    List.getElem?_append_left (by rwa [Op.length_headRecords])]

/-- Record `j` of unit `i` (R260). -/
theorem Op.getElem?_run_unit {i : Nat} (hi : i < o.units s.stage.lenIn.toNat) (hj : j < 59)
    (ha : a = 18 + 59 * i + j) : (o.run s).trace[a]? = (o.unitRecords (o.beforeUnit s i))[j]? := by
  have hlen := o.length_headRecords s
  have hunits := o.length_unitsRecords s (o.units s.stage.lenIn.toNat)
  have hoff : a - (o.headRecords s).length = 59 * i + j := by omega
  rw [Op.run_trace, htrace, List.nil_append, List.append_assoc,
    List.getElem?_append_right (by omega), hoff, List.getElem?_append_left (by omega),
    Op.getElem?_unitsRecords o s hi hj]

/-- Record `j` of TAIL (R260). -/
theorem Op.getElem?_run_tail (ha : a = 18 + 59 * o.units s.stage.lenIn.toNat + j) :
    (o.run s).trace[a]?
      = (o.tailRecords (o.beforeUnit s (o.units s.stage.lenIn.toNat)))[j]? := by
  have hlen : (o.headRecords s ++ o.unitsRecords s (o.units s.stage.lenIn.toNat)).length
      = 18 + 59 * o.units s.stage.lenIn.toNat := by
    rw [List.length_append, Op.length_headRecords, Op.length_unitsRecords]
  rw [Op.run_trace, htrace, List.nil_append, List.getElem?_append_right (by omega), hlen, ha,
    Nat.add_sub_cancel_left]

end Positions

/-! ### What each record holds -/

/-- The records of unit `i` around its walk (R249, R251, R252). -/
theorem Op.unitRecords_beforeUnit (o : Op) (s : State) {i : Nat} (hi : i < 2 ^ 32) :
    o.unitRecords (o.beforeUnit s i) =
      [recUnitStart (BitVec.ofNat 32 i) (o.ulen s.stage.lenIn.toNat i) (o.inputUnit s i),
        recUnitPre (BitVec.ofNat 32 i) o.inverse (o.walkState s i 0)]
      ++ (List.range 56).map (walkRecord (o.loadPhase (o.beforeUnit s i)))
      ++ [recUnitDone (BitVec.ofNat 32 i) (o.ulen s.stage.lenIn.toNat i) (o.unitResult s i)
        (o.inputUnit s i)] := by
  rw [Op.unitRecords, Op.toNat_beforeUnit_unit o s hi, Op.inputUnit_beforeUnit, Op.beforeUnit_unit,
    Op.beforeUnit_stage]
  rfl

/-- The record of micro-operation `j` of unit `i`, labelled with its pair of the walk (R250). -/
theorem Op.walkRecord_beforeUnit {o : Op} {j r : Nat} {c : BitVec 4}
    (h : (walkOf o.inverse)[j]? = some (r, c)) (s : State) (i : Nat) :
    walkRecord (o.loadPhase (o.beforeUnit s i)) j =
      { kind := .round, round := BitVec.ofNat 4 r, uop := c, unit := BitVec.ofNat 32 i
        data := o.walkState s i (j + 1) } := by
  have hj := lt_of_getElem?_walkOf h
  obtain ⟨-, -, hpos⟩ := microStep_iter_position (load_start o (o.beforeUnit s i)) hj
  obtain ⟨rfl, rfl⟩ := Prod.mk.inj (Option.some.inj (h.symm.trans hpos))
  rw [← o.beforeUnit_unit s i]
  rfl

/-- K_FINAL by the mode's name (R255). -/
theorem Op.recFinal_eq (o : Op) (n : BitVec 32) : o.recFinal n =
    { kind := .final, n := if o.enc = true ∧ o.mode ≠ .ecb then 1 else 0, aux := n } := by
  simp only [Op.recFinal, Bool.and_eq_true, decide_eq_true_eq]

/-- K_UNPAD of a command, from the OBUF it leaves (R254). -/
theorem Op.recUnpad_run (o : Op) (s : State) :
    recUnpad (o.decrypted (o.beforeUnit s (o.units s.stage.lenIn.toNat))) =
      { kind := .unpad
        n := BitVec.ofNat 8
          (stripCount (Memory.readBytes 0 (o.total s.stage.lenIn.toNat) (o.run s).obuf))
        m := (Memory.readBytes 0 (o.total s.stage.lenIn.toNat) (o.run s).obuf).getLastD 0
        aux := BitVec.ofNat 32 (o.total s.stage.lenIn.toNat
          - stripCount (Memory.readBytes 0 (o.total s.stage.lenIn.toNat) (o.run s).obuf)) } := by
  rw [Op.run_eq_tailPhase, Op.tailPhase_obuf, Op.decrypted, Op.beforeUnit_stage, recUnpad,
    Memory.length_readBytes]

/-- Settles O50: each record by its place; the units as they stand before each one. -/
theorem traceQuotesWhatHappened : Obligations.TraceQuotesWhatHappened := by
  rintro o u n total iv hlegal hw rfl rfl rfl
  have hexec := Op.exec_of_legal hlegal
  generalize hs : u.prologue (if o.enc then 2 else 3) = s at hexec
  have hlegal : o.Legal s := hs ▸ hlegal.prologue _
  have htrace : s.trace = [] := by rw [← hs]; rfl
  have hstage : u.stage = s.stage := by rw [← hs]; rfl
  have hrk : u.rk = s.rk := by rw [← hs]; rfl
  have hobuf : u.obuf = s.obuf := by rw [← hs]; rfl
  have hiv : o.iv u = o.iv s := by rw [← hs]; rfl
  have hmsg : o.msg u = o.msg s := by rw [← hs]; rfl
  have hcheck := Op.check_of_legal hlegal
  obtain ⟨-, hunits, -, hcap⟩ := units_bounds hcheck
  rw [hobuf] at hw
  rw [hstage, hrk, hiv, hmsg]
  refine ⟨_, o.inputUnit s, o.unitResult s, o.walkState s, _, hexec,
    Op.getElem?_run_header o htrace (by decide), fun r hr => ?_, ?_,
    Op.getElem?_run_header o htrace (by decide), ?_, ?_, rfl, fun hinv => ?_, ?_⟩
  · rw [Op.getElem?_run_header o htrace (by omega), Op.getElem?_headRecords_key o s hr]
    rfl
  · rw [Op.getElem?_run_header o htrace (by decide), ← Op.recPad_eq]
    rfl
  · rintro i hi _ rfl
    have hmax : i < 2 ^ 32 := by omega
    have hrec := o.unitRecords_beforeUnit s hmax
    refine ⟨?_, fun k hk => Block.get_tabulate _ hk, ?_, fun hm => ?_, fun hm => ?_, fun hm => ?_,
      fun hm => ?_, fun hm => ?_, fun j r c hj => ⟨?_, Op.walkState_succ hj s i⟩,
      Op.walkState_last o s i, ?_, fun k hk => ?_⟩
    · rw [o.getElem?_run_unit htrace (j := 0) hi (by decide) (by omega), hrec]
      rfl
    · rw [o.getElem?_run_unit htrace (j := 1) hi (by decide) (by omega), hrec]
      rfl
    · simp only [Op.walkState_zero o s hmax, Op.cipherInput, hm]
    · exact Op.walkState_zero_cbc s hmax hm
    · rw [Op.walkState_zero o s hmax, Op.cipherInput_stream (.inl hm), Op.feedback_cfb s hmax hm]
    · rw [Op.walkState_zero o s hmax, Op.cipherInput_stream (.inr (.inl hm)),
        Op.feedback_ofb s hmax hm]
    · rw [Op.walkState_zero o s hmax, Op.cipherInput_stream (.inr (.inr hm)),
        Op.feedback_ctr s hmax hm]
    · have hj56 := lt_of_getElem?_walkOf hj
      rw [o.getElem?_run_unit htrace (j := 2 + j) hi (by omega) (by omega),
        Op.getElem?_unitRecords_walk _ _ hj56, Op.walkRecord_beforeUnit hj]
    · rw [o.getElem?_run_unit htrace (j := 58) hi (by decide) (by omega), hrec]
      rfl
    · split
      · next hulen => exact (Op.read_run_obuf hcheck hw hi hulen).symm
      · next hulen => exact hlegal.get_unitResult hi hmax hk (by omega)
  · rw [o.getElem?_run_tail htrace (j := 0) (by omega), Op.tailRecords, Op.beforeUnit_stage]
    rfl
  · rw [o.getElem?_run_tail htrace (j := 1) (by omega), o.length_run_trace htrace, Op.tailRecords,
      hinv]
    exact ⟨congrArg some (Op.recFinal_eq _ _), rfl⟩
  · rintro hinv _ _ rfl rfl
    rw [o.getElem?_run_tail htrace (j := 1) (by omega), o.getElem?_run_tail htrace (j := 2) (by omega),
      o.length_run_trace htrace, Op.tailRecords, hinv]
    exact ⟨congrArg some (o.recUnpad_run s), congrArg some (Op.recFinal_eq _ _), rfl⟩

end Sys2Proof.Machine
end

section
/-! SUPPORT. Base64 (46_host_wrapper.md R272, R274): what one character and one group of four stand for, and
the round trip group by group. -/

namespace Sys2Proof.Machine

/-! ### Base64, one character and one group -/

theorem b64Value_b64Char {v : Nat} (hv : v < 64) : b64Value (b64Char v) = some v := by
  revert v
  decide

theorem b64Char_ne_pad {v : Nat} (hv : v < 64) : b64Char v ≠ '=' := by
  revert v
  decide

theorem b64Value_eq_some {c : Char} {v : Nat} (h : b64Value c = some v) : v < 64 ∧ b64Char v = c := by
  have char_eq {n : Nat} (hn : n = c.toNat) : Char.ofNat n = c := by rw [hn, Char.ofNat_toNat]
  simp only [b64Value] at h
  split_ifs at h <;> cases h
  · exact ⟨by omega, (if_pos (by omega)).trans (char_eq (by omega))⟩
  · exact ⟨by omega, by rw [b64Char, if_neg (by omega), if_pos (by omega), char_eq (by omega)]⟩
  · exact ⟨by omega, by
      rw [b64Char, if_neg (by omega), if_neg (by omega), if_pos (by omega), char_eq (by omega)]⟩
  · exact ⟨by decide, char_eq (n := 43) (by omega)⟩
  · exact ⟨by decide, char_eq (n := 47) (by omega)⟩

theorem b64Last_one (a : Byte) :
    b64Last (b64Char (a.toNat / 4)) (b64Char (a.toNat % 4 * 16)) '=' '=' = some [a] := by
  have ha := a.isLt
  rw [b64Last, if_pos rfl, if_pos rfl, b64Value_b64Char (by omega), b64Value_b64Char (by omega)]
  have hval : a.toNat / 4 * 4 + a.toNat % 4 * 16 / 16 = a.toNat := by omega
  have hlow : a.toNat % 4 * 16 % 16 = 0 := by omega
  simp only [hval, hlow, if_true, BitVec.ofNat_toNat, BitVec.setWidth_eq]

theorem b64Last_two (a b : Byte) :
    b64Last (b64Char (a.toNat / 4)) (b64Char (a.toNat % 4 * 16 + b.toNat / 16))
      (b64Char (b.toNat % 16 * 4)) '=' = some [a, b] := by
  have ha := a.isLt
  have hb := b.isLt
  rw [b64Last, if_pos rfl, if_neg (b64Char_ne_pad (by omega)), b64Value_b64Char (by omega),
    b64Value_b64Char (by omega), b64Value_b64Char (by omega)]
  have hfst : a.toNat / 4 * 4 + (a.toNat % 4 * 16 + b.toNat / 16) / 16 = a.toNat := by omega
  have hsnd : (a.toNat % 4 * 16 + b.toNat / 16) % 16 * 16 + b.toNat % 16 * 4 / 4 = b.toNat := by omega
  have hlow : b.toNat % 16 * 4 % 4 = 0 := by omega
  simp only [hfst, hsnd, hlow, if_true, BitVec.ofNat_toNat, BitVec.setWidth_eq]

theorem b64Last_three (a b c : Byte) :
    b64Last (b64Char (a.toNat / 4)) (b64Char (a.toNat % 4 * 16 + b.toNat / 16))
      (b64Char (b.toNat % 16 * 4 + c.toNat / 64)) (b64Char (c.toNat % 64)) = some [a, b, c] := by
  have ha := a.isLt
  have hb := b.isLt
  have hc := c.isLt
  rw [b64Last, if_neg (b64Char_ne_pad (by omega)), b64Value_b64Char (by omega),
    b64Value_b64Char (by omega), b64Value_b64Char (by omega), b64Value_b64Char (by omega)]
  have hfst : a.toNat / 4 * 4 + (a.toNat % 4 * 16 + b.toNat / 16) / 16 = a.toNat := by omega
  have hsnd : (a.toNat % 4 * 16 + b.toNat / 16) % 16 * 16 + (b.toNat % 16 * 4 + c.toNat / 64) / 4
      = b.toNat := by omega
  have hthd : (b.toNat % 16 * 4 + c.toNat / 64) % 4 * 64 + c.toNat % 64 = c.toNat := by omega
  simp only [hfst, hsnd, hthd, BitVec.ofNat_toNat, BitVec.setWidth_eq]

/-- Strictness of R274 on one group: its four characters are the ones its bytes encode to, and a group
without padding has three bytes. -/
theorem b64Encode_of_b64Last {c0 c1 c2 c3 : Char} {b : List Byte} (h : b64Last c0 c1 c2 c3 = some b) :
    b64Encode b = [c0, c1, c2, c3] ∧ (c3 ≠ '=' → b.length = 3) := by
  unfold b64Last at h
  split_ifs at h with hc3 hc2
  · subst hc3 hc2
    split at h
    · next v0 v1 h0 h1 =>
      obtain ⟨hv0, rfl⟩ := b64Value_eq_some h0
      obtain ⟨hv1, rfl⟩ := b64Value_eq_some h1
      split_ifs at h with hlow
      cases h
      have e0 : (v0 * 4 + v1 / 16) % 2 ^ 8 / 4 = v0 := by omega
      have e1 : (v0 * 4 + v1 / 16) % 2 ^ 8 % 4 * 16 = v1 := by omega
      simp only [b64Encode, BitVec.toNat_ofNat, e0, e1, ne_eq, not_true, false_imp_iff, and_self]
    · cases h
  · subst hc3
    split at h
    · next v0 v1 v2 h0 h1 h2 =>
      obtain ⟨hv0, rfl⟩ := b64Value_eq_some h0
      obtain ⟨hv1, rfl⟩ := b64Value_eq_some h1
      obtain ⟨hv2, rfl⟩ := b64Value_eq_some h2
      split_ifs at h with hlow
      cases h
      have e0 : (v0 * 4 + v1 / 16) % 2 ^ 8 / 4 = v0 := by omega
      have e1 : (v0 * 4 + v1 / 16) % 2 ^ 8 % 4 * 16 + (v1 % 16 * 16 + v2 / 4) % 2 ^ 8 / 16 = v1 := by
        omega
      have e2 : (v1 % 16 * 16 + v2 / 4) % 2 ^ 8 % 16 * 4 = v2 := by omega
      simp only [b64Encode, BitVec.toNat_ofNat, e0, e1, e2, ne_eq, not_true, false_imp_iff, and_self]
    · cases h
  · split at h
    · next v0 v1 v2 v3 h0 h1 h2 h3 =>
      obtain ⟨hv0, rfl⟩ := b64Value_eq_some h0
      obtain ⟨hv1, rfl⟩ := b64Value_eq_some h1
      obtain ⟨hv2, rfl⟩ := b64Value_eq_some h2
      obtain ⟨hv3, rfl⟩ := b64Value_eq_some h3
      cases h
      have e0 : (v0 * 4 + v1 / 16) % 2 ^ 8 / 4 = v0 := by omega
      have e1 : (v0 * 4 + v1 / 16) % 2 ^ 8 % 4 * 16 + (v1 % 16 * 16 + v2 / 4) % 2 ^ 8 / 16 = v1 := by
        omega
      have e2 : (v1 % 16 * 16 + v2 / 4) % 2 ^ 8 % 16 * 4 + (v2 % 4 * 64 + v3) % 2 ^ 8 / 64 = v2 := by
        omega
      have e3 : (v2 % 4 * 64 + v3) % 2 ^ 8 % 64 = v3 := by omega
      exact ⟨by simp only [b64Encode, BitVec.toNat_ofNat, e0, e1, e2, e3], fun _ => rfl⟩
    · cases h

/-! ### Base64, whole texts -/

theorem b64Encode_eq_nil {b : List Byte} : b64Encode b = [] ↔ b = [] := by
  cases b using b64Encode.fun_cases <;> simp [b64Encode]

theorem b64Encode_append {b : List Byte} (hb : b.length = 3) (r : List Byte) :
    b64Encode (b ++ r) = b64Encode b ++ b64Encode r := by
  obtain ⟨x, y, z, rfl⟩ := List.length_eq_three.1 hb
  simp [b64Encode]

theorem b64Decode_b64Encode (b : List Byte) : b64Decode (b64Encode b) = some b := by
  induction b using b64Encode.induct with
  | case1 => rfl
  | case2 a => exact b64Last_one a
  | case3 a b => exact b64Last_two a b
  | case4 a b c r ih =>
    rw [b64Encode, b64Decode]
    split_ifs with hr hpad
    · rw [b64Encode_eq_nil.1 hr, b64Last_three]
    · exact absurd hpad (b64Char_ne_pad (Nat.mod_lt _ (by decide)))
    · rw [b64Last_three, ih]
      rfl

theorem length_b64Encode (b : List Byte) : (b64Encode b).length = 4 * ((b.length + 2) / 3) := by
  induction b using b64Encode.induct with
  | case1 => rfl
  | case2 a => simp [b64Encode]
  | case3 a b => simp [b64Encode]
  | case4 a b c r ih =>
    simp only [b64Encode, List.length_cons, ih]
    omega

theorem b64Encode_of_b64Decode {t : List Char} {b : List Byte} (h : b64Decode t = some b) :
    b64Encode b = t := by
  induction t using b64Decode.induct generalizing b with
  | case1 => cases h; rfl
  | case2 c0 c1 c2 c3 => exact (b64Encode_of_b64Last h).1
  | case3 c0 c1 c2 r hr => rw [b64Decode, if_neg hr, if_pos rfl] at h; cases h
  | case4 c0 c1 c2 c3 r hr hpad x y hy hx ih =>
    simp only [b64Decode, if_neg hr, if_neg hpad, hx, hy] at h
    cases h
    obtain ⟨hgroup, hlen⟩ := b64Encode_of_b64Last hx
    rw [b64Encode_append (hlen hpad), hgroup, ih hy]
    rfl
  | case5 c0 c1 c2 c3 r hr hpad hnone _ =>
    rw [b64Decode, if_neg hr, if_neg hpad] at h
    split at h
    · next hx hy => exact (hnone _ _ hx hy).elim
    · cases h
  | case6 t hnil hgroup =>
    rw [b64Decode.eq_def] at h
    split at h
    · exact (hnil rfl).elim
    · exact (hgroup _ _ _ _ _ rfl).elim
    · cases h

/-- Settles O59: group by group, the last one with its padding. -/
theorem base64RoundTrip : Obligations.Base64RoundTrip :=
  ⟨fun b => ⟨b64Decode_b64Encode b, length_b64Encode b⟩, fun _ _ => b64Encode_of_b64Decode⟩

end Sys2Proof.Machine
end

section
/-! SUPPORT. UTF-8 (46_host_wrapper.md R271, R273): what a continuation byte and a scalar value carry, and the
round trip one scalar value at a time. -/

namespace Sys2Proof.Machine

/-! ### The parts of a form -/

theorem contBits_ofNat {x : Nat} (hx : x < 64) : contBits (BitVec.ofNat 8 (0x80 + x)) = some x := by
  have hval : (BitVec.ofNat 8 (0x80 + x)).toNat = 0x80 + x := Nat.mod_eq_of_lt (by omega)
  rw [contBits, hval, if_pos (by omega), Nat.add_sub_cancel_left]

theorem contBits_eq_some {b : Byte} {x : Nat} (h : contBits b = some x) :
    x < 64 ∧ b = BitVec.ofNat 8 (0x80 + x) := by
  rw [contBits] at h
  split_ifs at h with hb
  obtain rfl := Option.some.inj h
  refine ⟨by omega, BitVec.eq_of_toNat_eq ?_⟩
  rw [BitVec.toNat_ofNat]
  omega

theorem scalarFrom_toNat {low : Nat} {c : Char} (h : low ≤ c.toNat) :
    scalarFrom low c.toNat = some c := by
  have hvalid : c.toNat.isValidChar := c.valid
  rw [scalarFrom, dif_pos hvalid, if_pos h]
  exact congrArg some (Char.toNat_inj.1 (Char.toNat_ofNatAux hvalid))

theorem scalarFrom_eq_some {low n : Nat} {c : Char} (h : scalarFrom low n = some c) :
    low ≤ n ∧ c.toNat = n := by
  rw [scalarFrom] at h
  split_ifs at h with hvalid hlow
  cases h
  exact ⟨hlow, Char.toNat_ofNatAux hvalid⟩

/-! ### What decodes: one lemma per form -/

section Forms

variable {b0 b1 b2 b3 : Byte} {r : List Byte} {x1 x2 x3 : Nat} {c : Char} {cs : List Char}

theorem utf8Decode_one (h0 : b0.toNat < 0x80) (hc : scalarFrom 0 b0.toNat = some c)
    (hr : utf8Decode r = some cs) : utf8Decode (b0 :: r) = some (c :: cs) := by
  rw [utf8Decode.eq_def]
  simp only [if_pos h0, hc, hr]

theorem utf8Decode_two (hlo : 0xC0 ≤ b0.toNat) (hhi : b0.toNat < 0xE0) (h1 : contBits b1 = some x1)
    (hc : scalarFrom 0x80 ((b0.toNat - 0xC0) * 64 + x1) = some c) (hr : utf8Decode r = some cs) :
    utf8Decode (b0 :: b1 :: r) = some (c :: cs) := by
  have hone : ¬ b0.toNat < 0x80 := by omega
  rw [utf8Decode.eq_def]
  simp only [if_neg hone, if_neg hlo.not_gt, if_pos hhi, h1, hc, hr, Option.map_some]

theorem utf8Decode_three (hlo : 0xE0 ≤ b0.toNat) (hhi : b0.toNat < 0xF0) (h1 : contBits b1 = some x1)
    (h2 : contBits b2 = some x2)
    (hc : scalarFrom 0x800 ((b0.toNat - 0xE0) * 4096 + x1 * 64 + x2) = some c)
    (hr : utf8Decode r = some cs) : utf8Decode (b0 :: b1 :: b2 :: r) = some (c :: cs) := by
  have hone : ¬ b0.toNat < 0x80 := by omega
  have hcont : ¬ b0.toNat < 0xC0 := by omega
  rw [utf8Decode.eq_def]
  simp only [if_neg hone, if_neg hcont, if_neg hlo.not_gt, if_pos hhi, h1, h2, hc, hr, Option.map_some]

theorem utf8Decode_four (hlo : 0xF0 ≤ b0.toNat) (hhi : b0.toNat < 0xF8) (h1 : contBits b1 = some x1)
    (h2 : contBits b2 = some x2) (h3 : contBits b3 = some x3)
    (hc : scalarFrom 0x10000 ((b0.toNat - 0xF0) * 262144 + x1 * 4096 + x2 * 64 + x3) = some c)
    (hr : utf8Decode r = some cs) : utf8Decode (b0 :: b1 :: b2 :: b3 :: r) = some (c :: cs) := by
  have hone : ¬ b0.toNat < 0x80 := by omega
  have hcont : ¬ b0.toNat < 0xC0 := by omega
  have htwo : ¬ b0.toNat < 0xE0 := by omega
  rw [utf8Decode.eq_def]
  simp only [if_neg hone, if_neg hcont, if_neg htwo, if_neg hlo.not_gt, if_pos hhi, h1, h2, h3, hc, hr,
    Option.map_some]

/-! ### What such bytes encode: the same forms, read the other way -/

theorem utf8Char_one (h0 : b0.toNat < 0x80) (hc : scalarFrom 0 b0.toNat = some c) :
    utf8Char c = [b0] := by
  obtain ⟨-, hn⟩ := scalarFrom_eq_some hc
  rw [utf8Char, hn, if_pos h0, BitVec.ofNat_toNat, BitVec.setWidth_eq]

theorem utf8Char_two (hlo : 0xC0 ≤ b0.toNat) (hhi : b0.toNat < 0xE0) (h1 : contBits b1 = some x1)
    (hc : scalarFrom 0x80 ((b0.toNat - 0xC0) * 64 + x1) = some c) : utf8Char c = [b0, b1] := by
  obtain ⟨hx1, rfl⟩ := contBits_eq_some h1
  obtain ⟨hlow, hn⟩ := scalarFrom_eq_some hc
  have e0 : 0xC0 + c.toNat / 64 = b0.toNat := by omega
  have e1 : c.toNat % 64 = x1 := by omega
  rw [utf8Char, e0, e1, if_neg (by omega), if_pos (by omega), BitVec.ofNat_toNat, BitVec.setWidth_eq]

theorem utf8Char_three (hlo : 0xE0 ≤ b0.toNat) (hhi : b0.toNat < 0xF0) (h1 : contBits b1 = some x1)
    (h2 : contBits b2 = some x2)
    (hc : scalarFrom 0x800 ((b0.toNat - 0xE0) * 4096 + x1 * 64 + x2) = some c) :
    utf8Char c = [b0, b1, b2] := by
  obtain ⟨hx1, rfl⟩ := contBits_eq_some h1
  obtain ⟨hx2, rfl⟩ := contBits_eq_some h2
  obtain ⟨hlow, hn⟩ := scalarFrom_eq_some hc
  have e0 : 0xE0 + c.toNat / 4096 = b0.toNat := by omega
  have e1 : c.toNat / 64 % 64 = x1 := by omega
  have e2 : c.toNat % 64 = x2 := by omega
  rw [utf8Char, e0, e1, e2, if_neg (by omega), if_neg (by omega), if_pos (by omega),
    BitVec.ofNat_toNat, BitVec.setWidth_eq]

theorem utf8Char_four (hlo : 0xF0 ≤ b0.toNat) (h1 : contBits b1 = some x1)
    (h2 : contBits b2 = some x2) (h3 : contBits b3 = some x3)
    (hc : scalarFrom 0x10000 ((b0.toNat - 0xF0) * 262144 + x1 * 4096 + x2 * 64 + x3) = some c) :
    utf8Char c = [b0, b1, b2, b3] := by
  obtain ⟨hx1, rfl⟩ := contBits_eq_some h1
  obtain ⟨hx2, rfl⟩ := contBits_eq_some h2
  obtain ⟨hx3, rfl⟩ := contBits_eq_some h3
  obtain ⟨hlow, hn⟩ := scalarFrom_eq_some hc
  have e0 : 0xF0 + c.toNat / 262144 = b0.toNat := by omega
  have e1 : c.toNat / 4096 % 64 = x1 := by omega
  have e2 : c.toNat / 64 % 64 = x2 := by omega
  have e3 : c.toNat % 64 = x3 := by omega
  rw [utf8Char, e0, e1, e2, e3, if_neg (by omega), if_neg (by omega), if_neg (by omega),
    BitVec.ofNat_toNat, BitVec.setWidth_eq]

end Forms

/-! ### One scalar value -/

theorem char_toNat_lt (c : Char) : c.toNat < 0x110000 := by
  have hvalid : c.toNat < 0xD800 ∨ 0xDFFF < c.toNat ∧ c.toNat < 0x110000 := c.valid
  omega

theorem utf8Decode_utf8Char_append (c : Char) {r : List Byte} {cs : List Char}
    (hr : utf8Decode r = some cs) : utf8Decode (utf8Char c ++ r) = some (c :: cs) := by
  have hmax := char_toNat_lt c
  have hcont (n : Nat) : contBits (BitVec.ofNat 8 (0x80 + n % 64)) = some (n % 64) :=
    contBits_ofNat (Nat.mod_lt _ (by decide))
  have hbyte {n : Nat} (hn : n < 256) : (BitVec.ofNat 8 n).toNat = n := Nat.mod_eq_of_lt hn
  unfold utf8Char
  dsimp only
  split_ifs with h1 h2 h3
  · have hb := hbyte (n := c.toNat) (by omega)
    exact utf8Decode_one (by omega) (by rw [hb, scalarFrom_toNat (Nat.zero_le _)]) hr
  · have hb := hbyte (n := 0xC0 + c.toNat / 64) (by omega)
    have hn : (0xC0 + c.toNat / 64 - 0xC0) * 64 + c.toNat % 64 = c.toNat := by omega
    exact utf8Decode_two (by omega) (by omega) (hcont _) (by rw [hb, hn, scalarFrom_toNat (by omega)]) hr
  · have hb := hbyte (n := 0xE0 + c.toNat / 4096) (by omega)
    have hn : (0xE0 + c.toNat / 4096 - 0xE0) * 4096 + c.toNat / 64 % 64 * 64 + c.toNat % 64
        = c.toNat := by omega
    exact utf8Decode_three (by omega) (by omega) (hcont _) (hcont _)
      (by rw [hb, hn, scalarFrom_toNat (by omega)]) hr
  · have hb := hbyte (n := 0xF0 + c.toNat / 262144) (by omega)
    have hn : (0xF0 + c.toNat / 262144 - 0xF0) * 262144 + c.toNat / 4096 % 64 * 4096
        + c.toNat / 64 % 64 * 64 + c.toNat % 64 = c.toNat := by omega
    exact utf8Decode_four (by omega) (by omega) (hcont _) (hcont _) (hcont _)
      (by rw [hb, hn, scalarFrom_toNat (by omega)]) hr

/-- R273: what decodes begins with the encoding of its first scalar value, the shortest form. -/
theorem utf8Decode_cons_eq_some {b0 : Byte} {t : List Byte} {cs : List Char}
    (h : utf8Decode (b0 :: t) = some cs) :
    ∃ c ds r, cs = c :: ds ∧ b0 :: t = utf8Char c ++ r ∧ utf8Decode r = some ds := by
  rw [utf8Decode.eq_def] at h
  dsimp only at h
  split_ifs at h with hone hcont htwo hthree hfour
  · split at h
    · next c ds hc hds =>
      exact ⟨c, ds, t, (Option.some.inj h).symm, by rw [utf8Char_one hone hc, List.singleton_append], hds⟩
    · cases h
  · obtain _ | ⟨b1, t⟩ := t
    · cases h
    dsimp only at h
    split at h
    · next x1 ds h1 hds =>
      obtain ⟨c, hc, rfl⟩ := Option.map_eq_some_iff.1 h
      exact ⟨c, ds, t, rfl, by rw [utf8Char_two (by omega) htwo h1 hc]; rfl, hds⟩
    · cases h
  · obtain _ | ⟨b1, _ | ⟨b2, t⟩⟩ := t
    · cases h
    · cases h
    dsimp only at h
    split at h
    · next x1 x2 ds h1 h2 hds =>
      obtain ⟨c, hc, rfl⟩ := Option.map_eq_some_iff.1 h
      exact ⟨c, ds, t, rfl, by rw [utf8Char_three (by omega) hthree h1 h2 hc]; rfl, hds⟩
    · cases h
  · obtain _ | ⟨b1, _ | ⟨b2, _ | ⟨b3, t⟩⟩⟩ := t
    · cases h
    · cases h
    · cases h
    dsimp only at h
    split at h
    · next x1 x2 x3 ds h1 h2 h3 hds =>
      obtain ⟨c, hc, rfl⟩ := Option.map_eq_some_iff.1 h
      exact ⟨c, ds, t, rfl, by rw [utf8Char_four (by omega) h1 h2 h3 hc]; rfl, hds⟩
    · cases h
  · obtain _ | ⟨b1, _ | ⟨b2, _ | ⟨b3, t⟩⟩⟩ := t <;> cases h

/-! ### Whole texts -/

theorem utf8Decode_utf8Encode (t : List Char) : utf8Decode (utf8Encode t) = some t := by
  induction t with
  | nil => rfl
  | cons c t ih => exact utf8Decode_utf8Char_append c ih

theorem utf8Encode_of_utf8Decode {b : List Byte} {t : List Char} (h : utf8Decode b = some t) :
    utf8Encode t = b := by
  induction t generalizing b with
  | nil =>
    cases b with
    | nil => rfl
    | cons b0 b => obtain ⟨_, _, _, hnil, -⟩ := utf8Decode_cons_eq_some h; cases hnil
  | cons c t ih =>
    cases b with
    | nil => cases h
    | cons b0 b =>
      obtain ⟨_, _, r, heq, hb, hr⟩ := utf8Decode_cons_eq_some h
      cases heq
      rw [hb, ← ih hr]
      rfl

/-- Settles O60: one scalar value at a time. -/
theorem utf8RoundTrip : Obligations.Utf8RoundTrip :=
  ⟨utf8Decode_utf8Encode, fun _ _ => utf8Encode_of_utf8Decode⟩

end Sys2Proof.Machine
end

section
/-! SUPPORT. What a command that raises leaves (60_exceptions.md R306, R307), and that every step has a next
state (R304, R308). -/

namespace Sys2Proof.Machine

/-! ### Commands that end in ERROR -/

/-- A command word that ends in ERROR leaves what error entry writes into the state before it, in which
INIT has ended the previous instance (R212, R306). -/
theorem runCommand_error {s t : State} {d : BusWord} (h : s.runCommand d = .next t)
    (herror : t.run = .error) :
    ∃ e, t = State.refusedWith e d
      (if d = 1 then { s with cfg := { s.cfg with valid := false } } else s) := by
  have hcipher : ∀ o : Op, exec o.instr s = .next t →
      ∃ e, t = s.refusedWith e (if o.enc then 2 else 3) := by
    intro o ho
    cases hcheck : o.check s with
    | some e => exact ⟨e, Host.Outcome.next.inj (ho.symm.trans (Op.exec_of_check hcheck))⟩
    | none =>
      cases ho.symm.trans (Op.exec_of_legal (Op.legal_of_check hcheck))
      cases herror.symm.trans (Op.finished_run o rfl).run
  cases hd : decodeCmd s.cfg.mode d with
  | error r =>
    have hne : d ≠ 1 := by
      rintro rfl
      cases hd.symm.trans (decodeCmd_ok_iff.2 (.inl ⟨rfl, rfl⟩))
    rw [if_neg hne]
    exact ⟨.badcmd, Host.Outcome.next.inj (h.symm.trans (runCommand_of_error hd))⟩
  | ok i =>
    rw [runCommand_of_ok hd] at h
    rcases decodeCmd_ok_iff.1 hd with ⟨rfl, rfl⟩ | ⟨rfl, rfl⟩ | ⟨rfl, rfl⟩
    · cases hcheck : s.initCheck with
      | some e => exact ⟨e, Host.Outcome.next.inj (h.symm.trans (exec_init_of_check hcheck))⟩
      | none =>
        rw [exec_init, initRun_of_check hcheck] at h
        cases h
        cases herror
    · exact hcipher ⟨true, s.cfg.mode⟩ h
    · exact hcipher ⟨false, s.cfg.mode⟩ h

/-- Of a core whose sequencer rests, error entry leaves SEQ as it was (R306). -/
theorem State.refusedWith_of_idle {s : State} (h : s.seq.phase = .idle) (e : ErrorCode) (d : BusWord) :
    s.refusedWith e d =
      { s with run := .error, err := e.reg, lenOut := 0, trace := [], cmd := d } := by
  have hseq : { s.seq with phase := .idle } = s.seq := by rw [← h]
  rw [State.refusedWith, hseq]

/-- Settles O37: such a command ends in error entry, and SEQ was in phase IDLE before it. -/
theorem errorsArePrecise : Obligations.ErrorsArePrecise := by
  intro s t d hidle h herror
  obtain ⟨e, rfl⟩ := runCommand_error h herror
  have hphase : (if d = 1 then { s with cfg := { s.cfg with valid := false } } else s).seq.phase
      = .idle := by
    split <;> exact hidle
  rw [State.refusedWith_of_idle hphase]

/-! ### Every step has a next state -/

/-- Every command word has a next state, a reserved one too (R211, R304). -/
theorem runCommand_next (d : BusWord) (s : State) : ∃ t, s.runCommand d = .next t := by
  obtain ⟨-, -, t, -, -, ht⟩ := runCommand_small d s
  exact ⟨t, ht⟩

theorem acceptCommand_next (d : BusWord) (s : State) : ∃ t, s.acceptCommand d = .next t := by
  cases hwaits : hostWaits s.inputs with
  | true => rw [acceptCommand_of_waits d hwaits]; exact runCommand_next d s
  | false => exact ⟨_, acceptCommand_of_not_waits d hwaits⟩

/-- A host write is dropped, stored or a command: it has a next state (R330, R341, R210). -/
theorem busWrite_next (a : WordAddr) (d : BusWord) (s : State) : ∃ t, s.busWrite a d = .next t := by
  unfold State.busWrite
  split_ifs with hrst hbusy
  · exact ⟨_, rfl⟩
  · exact ⟨_, rfl⟩
  · split
    · exact acceptCommand_next d s
    · exact ⟨_, rfl⟩

/-- The sequencer has a next state: KEXP is at a word of R105, and a round micro-operation stands on the
walk, so its code is one R78 produces (R31). -/
theorem State.Inv.seqStep_next {s : State} (h : s.Inv) : ∃ t, s.seqStep = .next t := by
  cases hp : s.seq.phase with
  | idle => exact ⟨_, seqStep_idle hp⟩
  | check => exact ⟨_, seqStep_check hp⟩
  | kexp =>
    have hkexp : decodeUop s.seq.uop = .ok .kexp := by rw [h.keySchedule.kexpUop hp]; rfl
    exact ⟨_, (seqStep_uop (.inl hp) hkexp).trans (exec_kexp (h.keySchedule.kexpUnit hp))⟩
  | head => exact ⟨_, seqStep_head hp⟩
  | load => exact ⟨_, seqStep_load hp⟩
  | round =>
    obtain ⟨⟨hlo, hhi⟩, -⟩ := walk_next _ _ _ (h.onWalk hp)
    exact ⟨_, (seqStep_round hp).trans (runUop_micro hlo hhi)⟩
  | store => exact ⟨_, seqStep_store hp⟩
  | tail => exact ⟨_, seqStep_tail hp⟩

/-- What the boundary fields hold does not stop the sequencer. -/
theorem State.Inv.seqStep_withBoundary_next {s : State} (h : s.Inv) (l : List Input) (v : BusWord)
    (n : Nat) : ∃ t, (s.withBoundary l v n).seqStep = .next t :=
  State.Inv.seqStep_next (inv_keptByCases.boundary s l v n h)

/-- Every input has a next state (R304). -/
theorem State.Inv.inputStep_next {s : State} (h : s.Inv) (i : Input) (rest : List Input) :
    ∃ t, s.inputStep i rest = .next t := by
  cases i with
  | write a d => exact busWrite_next a d _
  | read a => exact ⟨_, rfl⟩
  | poll =>
    simp only [State.inputStep, State.pollStep]
    split
    · obtain ⟨v, n, hread⟩ := busRead_boundary statusAddr s
      rw [hread]
      exact h.seqStep_withBoundary_next s.inputs v n
    · exact ⟨_, rfl⟩
  | seq =>
    simp only [State.inputStep]
    split
    · exact h.seqStep_withBoundary_next rest s.rdata s.free
    · exact ⟨_, rfl⟩
  | rst level => exact ⟨_, rfl⟩

/-- Settles O58: an input has a next state, and with none waiting the sequencer has one or the core rests. -/
theorem coreNeverStops : Obligations.CoreNeverStops := by
  intro s h
  cases hin : s.inputs with
  | nil =>
    simp only [step, hin, State.quietStep]
    split
    · exact h.seqStep_next
    · exact ⟨s, rfl⟩
  | cons i rest =>
    simp only [step, hin]
    exact h.inputStep_next i rest

end Sys2Proof.Machine
end

section
/-! SUPPORT. Reset, the resting core and accesses while BUSY (70_reset_and_hazards.md R330 to R341), and what
reaches HZD (R24). -/

namespace Sys2Proof.Machine

/-! ### The core at rest -/

/-- Settles O7: with no input only the sequencer could move, and it does so only while BUSY. -/
theorem restingCoreWaits : Obligations.RestingCoreWaits := by
  intro s hin hrest
  rw [step, hin]
  exact if_neg (mt State.busy_iff.1 hrest)

/-! ### RST -/

/-- The step of a host write takes it off and gives it to the bus (R60). -/
theorem step_write {s : State} {a : WordAddr} {d : BusWord} {rest : List Input}
    (hin : s.inputs = .write a d :: rest) :
    step s = State.busWrite a d { s with inputs := rest } := by
  rw [step, hin]
  rfl

/-- The step of a change of RST takes it off and drives the pin (R330). -/
theorem step_rst {s : State} {b : Bool} {rest : List Input} (hin : s.inputs = .rst b :: rest) :
    step s = .next (State.driveRst b { s with inputs := rest }) := by
  rw [step, hin]
  rfl

/-- A write while RST is asserted is dropped (R330). -/
theorem busWrite_in_reset {s : State} (a : WordAddr) (d : BusWord) (hrst : s.rst = true) :
    s.busWrite a d = .next s := if_pos hrst

/-- Asserting RST gives the values of R40, whatever the state (R330, R331): it keeps boundary fields and
BUFCAP alone, and the table of R40 names none of them. -/
theorem isReset_driveRst (s : State) : (s.driveRst true).IsReset :=
  { (resetValues : State.reset.IsReset) with }

/-- Settles O8: RST is driven in one step; while it is asserted the bus drops writes, and a read changes
boundary fields alone, as in every state. -/
theorem resetInputEntersReset : Obligations.ResetInputEntersReset := by
  refine ⟨fun s rest hin => ?_, fun s rest hrst => ⟨fun a d hin => ?_, fun a hin => ?_, fun hin => ?_⟩⟩
  · exact ⟨_, step_rst hin, isReset_driveRst _, rfl, rfl⟩
  · exact (step_write hin).trans (busWrite_in_reset a d hrst)
  · exact readsHaveNoEffect.1 s a rest hin
  · exact step_rst hin

/-! ### HZD -/

/-- CHECK does not reach HZD (R29). -/
theorem checkPhase_hzd (s : State) : s.checkPhase.hzd = s.hzd := by
  rcases checkPhase_cases s with ⟨e, -, -, ht⟩ | ⟨-, -, ht⟩ | ⟨-, u, rfl, ⟨e, -, -, ht⟩ | ⟨-, ht⟩⟩ <;>
    simp [ht]

/-- A micro-operation is an instruction, and none reaches HZD (R36). -/
theorem runUop_hzd {s t : State} (h : s.runUop = .next t) : t.hzd = s.hzd := by
  obtain ⟨i, -, hexec⟩ := exec_of_runUop h
  obtain ⟨-, -, -, hhzd, -⟩ := commandsKeepHostRegisters i s t hexec
  exact hhzd

/-- No phase of the sequencer reaches HZD (R29). -/
theorem seqStep_hzd {s t : State} (h : s.seqStep = .next t) : t.hzd = s.hzd := by
  cases hp : s.seq.phase with
  | idle =>
    cases (seqStep_idle hp).symm.trans h
    rfl
  | check =>
    cases (seqStep_check hp).symm.trans h
    exact checkPhase_hzd s
  | kexp => exact runUop_hzd ((seqStep_kexp hp).symm.trans h)
  | head =>
    cases (seqStep_head hp).symm.trans h
    rfl
  | load =>
    cases (seqStep_load hp).symm.trans h
    rfl
  | round => exact runUop_hzd ((seqStep_round hp).symm.trans h)
  | store =>
    cases (seqStep_store hp).symm.trans h
    rfl
  | tail =>
    cases (seqStep_tail hp).symm.trans h
    rfl

/-- A whole command does not reach HZD: it is an instruction, or a reserved word that raises (R36, R211). -/
theorem runCommand_hzd {d : BusWord} {s t : State} (h : s.runCommand d = .next t) : t.hzd = s.hzd := by
  cases hd : decodeCmd s.cfg.mode d with
  | error r =>
    cases (runCommand_of_error hd).symm.trans h
    rfl
  | ok i =>
    obtain ⟨-, -, -, hhzd, -⟩ := commandsKeepHostRegisters i s t ((runCommand_of_ok hd).symm.trans h)
    exact hhzd

/-- A store does not reach HZD (R60). -/
theorem busStore_hzd (a : WordAddr) (d : BusWord) (s : State) : (s.busStore a d).hzd = s.hzd := by
  rcases busStore_cases a d s with ⟨g, e⟩ | ⟨n, e⟩ | ⟨j, -, e⟩ <;> rw [e]

/-- A step keeps HZD, or asserts RST, which clears it, or drops a write while BUSY, which sets it (R341). -/
theorem step_hzd {s t : State} (h : step s = .next t) :
    t.hzd = s.hzd ∨ ((∃ rest, s.inputs = .rst true :: rest) ∧ t.hzd = false)
      ∨ (s.run = .busy ∧ (∃ a d rest, s.inputs = .write a d :: rest) ∧ t.hzd = true) := by
  rcases step_cases h with ⟨l, v, n, rfl⟩ | ⟨-, l, v, n, hq⟩ | ⟨a, d, l, hin, -, hb, rfl⟩
    | ⟨a, d, l, -, -, -, -, rfl⟩ | ⟨d, l, -, -, -, ⟨-, hrun⟩ | ⟨-, rfl⟩⟩ | ⟨b, l, hin, rfl⟩
  · exact .inl rfl
  · exact .inl (seqStep_hzd (s := s.withBoundary l v n) hq)
  · exact .inr (.inr ⟨hb, ⟨a, d, l, hin⟩, rfl⟩)
  · exact .inl (busStore_hzd a d _)
  · exact .inl (runCommand_hzd (s := { s with inputs := l }) hrun)
  · exact .inl rfl
  · cases b with
    | true => exact .inr (.inl ⟨⟨l, hin⟩, rfl⟩)
    | false => exact .inl rfl

/-! ### Accesses while BUSY -/

/-- Settles O15: the bus drops a write with HZD set and reads STATUS as it is; a step changes HZD only by RST
or by such a write. -/
theorem busyAccesses : Obligations.BusyAccesses := by
  refine ⟨fun s rest hb hrst => ?_, fun s t h => ?_⟩
  · have hbusy := State.busy_iff.2 hb
    refine ⟨fun a d hin => ?_, fun a hin => readsHaveNoEffect.1 s a rest hin, fun hin => ?_⟩
    · exact (step_write hin).trans (busWrite_hzd (u := { s with inputs := rest }) d hrst hbusy)
    · rw [step_read hin, busRead_status (u := s.withBoundary rest s.rdata s.free) hrst hbusy]
      rfl
  · rcases step_hzd h with hkept | ⟨⟨rest, hin⟩, hclear⟩ | ⟨hb, hin, hset⟩
    · exact ⟨fun hs _ => hkept.trans hs,
        fun hs ht => absurd (hs.symm.trans (hkept.symm.trans ht)) Bool.false_ne_true⟩
    · exact ⟨fun _ hno => absurd hin (hno rest),
        fun _ ht => absurd (hclear.symm.trans ht) Bool.false_ne_true⟩
    · exact ⟨fun _ _ => hset, fun _ _ => ⟨hb, hin⟩⟩

end Sys2Proof.Machine
end
